-- ==== Sys2Proof/Word.lean ====
section
/-! DEFINITION. The two bit-vector types of the core: a byte of a tagged region and a 32-bit register or immediate. -/

namespace Sys2Proof

/-- One byte of a region (R50). -/
abbrev Byte := BitVec 8

/-- A register, an address or an immediate: 32 bits, unsigned unless a rule reads it as signed (R7). -/
abbrev Word := BitVec 32

end Sys2Proof
end

