-- ==== Sys2Proof/Config.lean ====
section
/-! DEFINITION. The implementation parameters of R6: the fixed ones as constants, the bounds of the open ones, and the
values `State.reset` takes for the capacities (log 1). `MEM_CAP` and `STACK_CAP` themselves stand in the state, as the
capacity of each region, because launch supplies them. -/

namespace Sys2Proof.Config

/-- `RECUR_MAX`, the capacity of the call stack in return addresses (R6, R31). -/
abbrev recurMax : Nat := 1000

/-- `WORD_SIZE`, the bytes of a multi-byte value (R6). -/
abbrev wordSize : Nat := 4

/-- The least capacity of a region (R6): bytes 0 to 3 exist. -/
abbrev capMin : Nat := 4

/-- The greatest capacity of a region (R6): `2^31 - 1` bytes. -/
abbrev capMax : Nat := 2147483647

/-- The reference value of `STACK_CAP` (R6), which `State.reset` takes. DESIGN CHOICE (log 1). -/
abbrev stackCapReset : Nat := 100000

/-- The value of `MEM_CAP` that `State.reset` takes: the greatest R6 allows. DESIGN CHOICE (log 1). -/
abbrev memCapReset : Nat := capMax

/-- The value of `stk_top` on an empty operand stack (R32). -/
abbrev emptyTop : Word := 0xFFFFFFFF#32

/-- `MEM_CAP` and `STACK_CAP` each satisfy `4 <= cap <= 2^31 - 1` (R6). -/
abbrev capOk (cap : Nat) : Prop := capMin ≤ cap ∧ cap ≤ capMax

end Sys2Proof.Config
end

