-- ==== Sys2Proof/Syntax.lean ====
section
/-! DEFINITION. The 60 instructions of R95, one constructor per row of spec/opcode_table.json, and the four formats of R91.
Every operand of every instruction is a 32-bit immediate (R92). -/

namespace Sys2Proof

/-- An instruction, with its immediates in the order `A`, `B`, `C` of R95. -/
inductive Instr where
  -- Control and call/return (40_control_call.md)
  | die    -- R110
  | nop    -- R111
  | testDie    -- R112
  | call (addr : Word)    -- R113
  | ret    -- R114
  -- Jumps (41_jumps.md)
  | jmp (addr : Word)    -- R120
  | je (addr : Word)    -- R121
  | jn (addr : Word)    -- R122
  | jl (addr : Word)    -- R123
  | jg (addr : Word)    -- R124
  | jls (addr : Word)    -- R125
  | jgs (addr : Word)    -- R126
  -- Loop (42_loop.md)
  | loop (count : Word) (bodyAddr : Word) (endAddr : Word)    -- R130
  | lcont    -- R131
  | lbrk    -- R132
  -- Stack shape and memory transfer (43_stack_memory.md)
  | psh (value : Word)    -- R140
  | pop    -- R141
  | pop2    -- R142
  | popn (n : Word)    -- R143
  | pshfr (addr : Word)    -- R144
  | poptr (addr : Word)    -- R145
  | movtr (addr : Word)    -- R146
  | stktr (src : Word) (dst : Word)    -- R147
  | cpyr (src : Word) (dst : Word)    -- R148
  | setr (dst : Word) (value : Word)    -- R149
  | pshfrr (addr : Word)    -- R150
  | pshfrs    -- R151
  -- Unsigned arithmetic (44_arith_unsigned.md)
  | inc    -- R162
  | dec    -- R163
  | add    -- R164
  | sub    -- R165
  | mul    -- R166
  | div    -- R167
  | mod    -- R168
  -- Signed arithmetic (45_arith_signed.md)
  | incs    -- R180
  | decs    -- R181
  | adds    -- R182
  | subs    -- R183
  | muls    -- R184
  | divs    -- R185
  | mods    -- R186
  -- Unsigned bitwise (46_bitwise_unsigned.md)
  | and    -- R200
  | not    -- R201
  | xor    -- R202
  | or    -- R203
  | lshft    -- R204
  | rshft    -- R205
  | lrot    -- R206
  | rrot    -- R207
  -- Signed bitwise (47_bitwise_signed.md)
  | ands    -- R220
  | nots    -- R221
  | xors    -- R222
  | ors    -- R223
  | lshfts    -- R224
  | rshfts    -- R225
  | lrots    -- R226
  | rrots    -- R227
  -- Inspection and debug (48_inspect_debug.md)
  | nspctr (typeCode : Word) (addr : Word)    -- R240
  | nspctst (typeCode : Word) (offset : Word)    -- R241
  | brkp    -- R242
  deriving DecidableEq, Repr

/-- The four formats of R91: an opcode byte followed by 0, 1, 2 or 3 immediates. -/
inductive Format where
  | f0 | f1 | f2 | f3
  deriving DecidableEq, Repr

/-- How many immediates a format has (R91). -/
def Format.immediates : Format → Nat
  | .f0 => 0
  | .f1 => 1
  | .f2 => 2
  | .f3 => 3

/-- `len`, the encoded length of a format in bytes (R91): 1, 5, 9 or 13. -/
def Format.length : Format → Nat
  | .f0 => 1
  | .f1 => 5
  | .f2 => 9
  | .f3 => 13

end Sys2Proof
end

