-- ==== Sys2Proof/WellFormed.lean ====
section
/-! DEFINITION. Well-formed operands. R98: no immediate has reserved bits, so every `Instr` is well-formed as it stands;
what can be ill-formed is an operand list as the assembler writes it (R99): too few or too many operands for the format
(R91), or an operand outside the range of an immediate. -/

namespace Sys2Proof

/-- An assembler operand is a number of R99: `-2147483648 .. 4294967295`. -/
def immediateOk (n : Int) : Bool := decide (-2147483648 ≤ n) && decide (n ≤ 4294967295)

/-- The operands written for an instruction fit its format (R90, R91) and each is in range (R99). -/
def operandsOk (f : Format) (ops : List Int) : Bool :=
  ops.length == f.immediates && ops.all immediateOk

/-- The immediates of an instruction, in the order `A`, `B`, `C` (R95). -/
def Instr.immediates : Instr → List Word
  | .die => []
  | .nop => []
  | .testDie => []
  | .call addr => [addr]
  | .ret => []
  | .jmp addr => [addr]
  | .je addr => [addr]
  | .jn addr => [addr]
  | .jl addr => [addr]
  | .jg addr => [addr]
  | .jls addr => [addr]
  | .jgs addr => [addr]
  | .loop count bodyAddr endAddr => [count, bodyAddr, endAddr]
  | .lcont => []
  | .lbrk => []
  | .psh value => [value]
  | .pop => []
  | .pop2 => []
  | .popn n => [n]
  | .pshfr addr => [addr]
  | .poptr addr => [addr]
  | .movtr addr => [addr]
  | .stktr src dst => [src, dst]
  | .cpyr src dst => [src, dst]
  | .setr dst value => [dst, value]
  | .pshfrr addr => [addr]
  | .pshfrs => []
  | .inc => []
  | .dec => []
  | .add => []
  | .sub => []
  | .mul => []
  | .div => []
  | .mod => []
  | .incs => []
  | .decs => []
  | .adds => []
  | .subs => []
  | .muls => []
  | .divs => []
  | .mods => []
  | .and => []
  | .not => []
  | .xor => []
  | .or => []
  | .lshft => []
  | .rshft => []
  | .lrot => []
  | .rrot => []
  | .ands => []
  | .nots => []
  | .xors => []
  | .ors => []
  | .lshfts => []
  | .rshfts => []
  | .lrots => []
  | .rrots => []
  | .nspctr typeCode addr => [typeCode, addr]
  | .nspctst typeCode offset => [typeCode, offset]
  | .brkp => []

/-- The format of an instruction (R95). -/
def Instr.format : Instr → Format
  | .die => .f0
  | .nop => .f0
  | .testDie => .f0
  | .call _ => .f1
  | .ret => .f0
  | .jmp _ => .f1
  | .je _ => .f1
  | .jn _ => .f1
  | .jl _ => .f1
  | .jg _ => .f1
  | .jls _ => .f1
  | .jgs _ => .f1
  | .loop _ _ _ => .f3
  | .lcont => .f0
  | .lbrk => .f0
  | .psh _ => .f1
  | .pop => .f0
  | .pop2 => .f0
  | .popn _ => .f1
  | .pshfr _ => .f1
  | .poptr _ => .f1
  | .movtr _ => .f1
  | .stktr _ _ => .f2
  | .cpyr _ _ => .f2
  | .setr _ _ => .f2
  | .pshfrr _ => .f1
  | .pshfrs => .f0
  | .inc => .f0
  | .dec => .f0
  | .add => .f0
  | .sub => .f0
  | .mul => .f0
  | .div => .f0
  | .mod => .f0
  | .incs => .f0
  | .decs => .f0
  | .adds => .f0
  | .subs => .f0
  | .muls => .f0
  | .divs => .f0
  | .mods => .f0
  | .and => .f0
  | .not => .f0
  | .xor => .f0
  | .or => .f0
  | .lshft => .f0
  | .rshft => .f0
  | .lrot => .f0
  | .rrot => .f0
  | .ands => .f0
  | .nots => .f0
  | .xors => .f0
  | .ors => .f0
  | .lshfts => .f0
  | .rshfts => .f0
  | .lrots => .f0
  | .rrots => .f0
  | .nspctr _ _ => .f2
  | .nspctst _ _ => .f2
  | .brkp => .f0

/-- The well-formedness check of an instruction: its immediates, read as unsigned numbers, are operands R99 accepts for
its format. -/
def Instr.wellFormed (i : Instr) : Bool :=
  operandsOk i.format (i.immediates.map fun w => (w.toNat : Int))

end Sys2Proof
end

