-- ==== Sys2Proof/Decode.lean ====
section
/-! DEFINITION. The instruction encoding of 30_encoding.md: `OPCODE_MAP` as one table (R95), decoding of any bytes (R94,
R96), the encoder, and the host's entry point for one table word. -/

namespace Sys2Proof

/-- A 32-bit value from its four little-endian bytes, least significant first (R52, R92). -/
def leWord (b0 b1 b2 b3 : Byte) : Word := b3 ++ b2 ++ b1 ++ b0

/-- Byte `k` of a 32-bit value, `v[8k+7 : 8k]` (R52, R58). -/
def Word.byte (v : Word) (k : Nat) : Byte := v.extractLsb' (8 * k) 8

/-- The four little-endian bytes of an immediate (R92). -/
def leBytes (v : Word) : List Byte := [Word.byte v 0, Word.byte v 1, Word.byte v 2, Word.byte v 3]

/-- What an opcode stands for: its format, with the instruction its immediates build (R91, R92). -/
inductive OpcodeShape where
  | f0 (i : Instr)
  | f1 (mk : Word → Instr)
  | f2 (mk : Word → Word → Instr)
  | f3 (mk : Word → Word → Word → Instr)

/-- The format of an opcode's shape (R91). -/
def OpcodeShape.format : OpcodeShape → Format
  | .f0 _ => .f0
  | .f1 _ => .f1
  | .f2 _ => .f2
  | .f3 _ => .f3

/-- One row of `OPCODE_MAP`: byte, mnemonic, format (R95). -/
structure OpcodeRow where
  byte : Byte
  mnemonic : String
  shape : OpcodeShape

/-- `OPCODE_MAP` (R95), in catalogue order. This table alone fixes the byte of an instruction: replacing its bytes
changes no other definition (R6, D1). The source's 61st opcode has no row (R97). -/
def opcodeMap : List OpcodeRow :=
  -- Control and call/return (40_control_call.md)
  [ ⟨0x00#8, "die", .f0 .die⟩,
     ⟨0x01#8, "nop", .f0 .nop⟩,
     ⟨0x02#8, "test_die", .f0 .testDie⟩,
     ⟨0x03#8, "call", .f1 .call⟩,
     ⟨0x04#8, "ret", .f0 .ret⟩ ]
  -- Jumps (41_jumps.md)
  ++ [ ⟨0x05#8, "jmp", .f1 .jmp⟩,
     ⟨0x06#8, "je", .f1 .je⟩,
     ⟨0x07#8, "jn", .f1 .jn⟩,
     ⟨0x08#8, "jl", .f1 .jl⟩,
     ⟨0x09#8, "jg", .f1 .jg⟩,
     ⟨0x0A#8, "jls", .f1 .jls⟩,
     ⟨0x0B#8, "jgs", .f1 .jgs⟩ ]
  -- Loop (42_loop.md)
  ++ [ ⟨0x0C#8, "loop", .f3 .loop⟩,
     ⟨0x0D#8, "lcont", .f0 .lcont⟩,
     ⟨0x0E#8, "lbrk", .f0 .lbrk⟩ ]
  -- Stack shape and memory transfer (43_stack_memory.md)
  ++ [ ⟨0x0F#8, "psh", .f1 .psh⟩,
     ⟨0x10#8, "pop", .f0 .pop⟩,
     ⟨0x11#8, "pop2", .f0 .pop2⟩,
     ⟨0x12#8, "popn", .f1 .popn⟩,
     ⟨0x13#8, "pshfr", .f1 .pshfr⟩,
     ⟨0x14#8, "poptr", .f1 .poptr⟩,
     ⟨0x15#8, "movtr", .f1 .movtr⟩,
     ⟨0x16#8, "stktr", .f2 .stktr⟩,
     ⟨0x17#8, "cpyr", .f2 .cpyr⟩,
     ⟨0x18#8, "setr", .f2 .setr⟩,
     ⟨0x19#8, "pshfrr", .f1 .pshfrr⟩,
     ⟨0x1A#8, "pshfrs", .f0 .pshfrs⟩ ]
  -- Unsigned arithmetic (44_arith_unsigned.md)
  ++ [ ⟨0x1B#8, "inc", .f0 .inc⟩,
     ⟨0x1C#8, "dec", .f0 .dec⟩,
     ⟨0x1D#8, "add", .f0 .add⟩,
     ⟨0x1E#8, "sub", .f0 .sub⟩,
     ⟨0x1F#8, "mul", .f0 .mul⟩,
     ⟨0x20#8, "div", .f0 .div⟩,
     ⟨0x21#8, "mod", .f0 .mod⟩ ]
  -- Signed arithmetic (45_arith_signed.md)
  ++ [ ⟨0x22#8, "incs", .f0 .incs⟩,
     ⟨0x23#8, "decs", .f0 .decs⟩,
     ⟨0x24#8, "adds", .f0 .adds⟩,
     ⟨0x25#8, "subs", .f0 .subs⟩,
     ⟨0x26#8, "muls", .f0 .muls⟩,
     ⟨0x27#8, "divs", .f0 .divs⟩,
     ⟨0x28#8, "mods", .f0 .mods⟩ ]
  -- Unsigned bitwise (46_bitwise_unsigned.md)
  ++ [ ⟨0x29#8, "and", .f0 .and⟩,
     ⟨0x2A#8, "not", .f0 .not⟩,
     ⟨0x2B#8, "xor", .f0 .xor⟩,
     ⟨0x2C#8, "or", .f0 .or⟩,
     ⟨0x2D#8, "lshft", .f0 .lshft⟩,
     ⟨0x2E#8, "rshft", .f0 .rshft⟩,
     ⟨0x2F#8, "lrot", .f0 .lrot⟩,
     ⟨0x30#8, "rrot", .f0 .rrot⟩ ]
  -- Signed bitwise (47_bitwise_signed.md)
  ++ [ ⟨0x31#8, "ands", .f0 .ands⟩,
     ⟨0x32#8, "nots", .f0 .nots⟩,
     ⟨0x33#8, "xors", .f0 .xors⟩,
     ⟨0x34#8, "ors", .f0 .ors⟩,
     ⟨0x35#8, "lshfts", .f0 .lshfts⟩,
     ⟨0x36#8, "rshfts", .f0 .rshfts⟩,
     ⟨0x37#8, "lrots", .f0 .lrots⟩,
     ⟨0x38#8, "rrots", .f0 .rrots⟩ ]
  -- Inspection and debug (48_inspect_debug.md)
  ++ [ ⟨0x39#8, "nspctr", .f2 .nspctr⟩,
     ⟨0x3A#8, "nspctst", .f2 .nspctst⟩,
     ⟨0x3B#8, "brkp", .f0 .brkp⟩ ]

/-- The place of an instruction in the catalogue of R95, counted from 0. -/
def Instr.catalogueIndex : Instr → Nat
  | .die => 0
  | .nop => 1
  | .testDie => 2
  | .call _ => 3
  | .ret => 4
  | .jmp _ => 5
  | .je _ => 6
  | .jn _ => 7
  | .jl _ => 8
  | .jg _ => 9
  | .jls _ => 10
  | .jgs _ => 11
  | .loop _ _ _ => 12
  | .lcont => 13
  | .lbrk => 14
  | .psh _ => 15
  | .pop => 16
  | .pop2 => 17
  | .popn _ => 18
  | .pshfr _ => 19
  | .poptr _ => 20
  | .movtr _ => 21
  | .stktr _ _ => 22
  | .cpyr _ _ => 23
  | .setr _ _ => 24
  | .pshfrr _ => 25
  | .pshfrs => 26
  | .inc => 27
  | .dec => 28
  | .add => 29
  | .sub => 30
  | .mul => 31
  | .div => 32
  | .mod => 33
  | .incs => 34
  | .decs => 35
  | .adds => 36
  | .subs => 37
  | .muls => 38
  | .divs => 39
  | .mods => 40
  | .and => 41
  | .not => 42
  | .xor => 43
  | .or => 44
  | .lshft => 45
  | .rshft => 46
  | .lrot => 47
  | .rrot => 48
  | .ands => 49
  | .nots => 50
  | .xors => 51
  | .ors => 52
  | .lshfts => 53
  | .rshfts => 54
  | .lrots => 55
  | .rrots => 56
  | .nspctr _ _ => 57
  | .nspctst _ _ => 58
  | .brkp => 59

/-- The row of an opcode byte, if it has one (R94, R96). -/
def lookupOpcode (op : Byte) : Option OpcodeRow := opcodeMap.find? fun row => row.byte == op

/-- Why bytes do not decode: the opcode byte has no row (R96), or the bytes end before the instruction does (R94). -/
inductive DecodeError where
  | unknownOpcode
  | truncated
  deriving DecidableEq, Repr

/-- One immediate from the front of the bytes, least significant byte first (R92). -/
def takeImmediate : List Byte → Option (Word × List Byte)
  | b0 :: b1 :: b2 :: b3 :: rest => some (leWord b0 b1 b2 b3, rest)
  | _ => none

/-- The immediates of an opcode's format from the bytes after it, left to right (R92), and the bytes that remain. -/
def OpcodeShape.build (bs : List Byte) : OpcodeShape → Option (Instr × List Byte)
  | .f0 i => some (i, bs)
  | .f1 mk =>
    match takeImmediate bs with
    | none => none
    | some (a, rest) => some (mk a, rest)
  | .f2 mk =>
    match takeImmediate bs with
    | none => none
    | some (a, rest) =>
      match takeImmediate rest with
      | none => none
      | some (b, rest) => some (mk a b, rest)
  | .f3 mk =>
    match takeImmediate bs with
    | none => none
    | some (a, rest) =>
      match takeImmediate rest with
      | none => none
      | some (b, rest) =>
        match takeImmediate rest with
        | none => none
        | some (c, rest) => some (mk a b c, rest)

/-- Decode the instruction at the front of the bytes, in the order of R94: no opcode byte, then an opcode without a row,
then missing immediates. The answer holds the instruction and the bytes after it. -/
def decode : List Byte → Except DecodeError (Instr × List Byte)
  | [] => .error .truncated
  | op :: rest =>
    match lookupOpcode op with
    | none => .error .unknownOpcode
    | some row =>
      match row.shape.build rest with
      | none => .error .truncated
      | some r => .ok r

/-- The opcode byte of an instruction: that of its row in the catalogue (R95). -/
def Instr.opcode (i : Instr) : Byte :=
  match opcodeMap[i.catalogueIndex]? with
  | some row => row.byte
  | none => 0

/-- The bytes of an instruction: its opcode, then its immediates left to right (R90 to R93). -/
def encode (i : Instr) : List Byte := i.opcode :: i.immediates.flatMap leBytes

/-- `len`, the encoded length of an instruction (R91). -/
def Instr.length (i : Instr) : Nat := i.format.length

/-- The longest encoded length (R91). -/
abbrev maxLength : Nat := 13

/-- The bytes of an instruction word `w` of `nbits` bits, numbered as R93 numbers them (bit `8k + j` is bit `j` of byte
`k`), padded with zero bytes to the longest instruction. -/
def tableBytes (nbits w : Nat) : List Byte :=
  (List.range maxLength).map fun k => BitVec.ofNat 8 ((w % 2 ^ nbits) / 2 ^ (8 * k))

/-- The instruction the decoder reads from an instruction word, none where it refuses. -/
def decodeTableWord (nbits w : Nat) : Option Instr :=
  match decode (tableBytes nbits w) with
  | .ok (i, _) => some i
  | .error _ => none

end Sys2Proof
end

