-- ==== Sys2Proof/Machine/Memory.lean ====
section
/-! DEFINITION. Tagged memory: the six tags, the three value types, sparse cells in one canonical form, and a region of
bytes with a parallel buffer of tags (R34, R35, R50 to R54). -/

namespace Sys2Proof.Machine

/-! ## Tags and value types -/

/-- The tag of one byte address (R35). -/
inductive Tag where
  | uint32Head
  | int32Head
  | uint8
  | uint32Tail
  | int32Tail
  | untagged
  deriving DecidableEq, Repr

/-- The 3-bit code of a tag (R35). Codes 6 and 7 never occur. -/
def Tag.code : Tag → BitVec 3
  | .uint32Head => 0
  | .int32Head => 1
  | .uint8 => 2
  | .uint32Tail => 3
  | .int32Tail => 4
  | .untagged => 5

/-- The types of a value held in memory (R7, R15). -/
inductive ValTy where
  | u32
  | i32
  | u8
  deriving DecidableEq, Repr

/-- The widths of an access (R61): `n` is 1 or 4. -/
inductive Width where
  | one
  | four
  deriving DecidableEq, Repr

/-- The number of bytes of a width. -/
def Width.bytes : Width → Nat
  | .one => 1
  | .four => Config.wordSize

/-- `width(ty)` (R15). -/
def ValTy.width : ValTy → Width
  | .u32 => .four
  | .i32 => .four
  | .u8 => .one

/-- `width(ty)` in bytes (R15). -/
def ValTy.bytes (ty : ValTy) : Nat := ty.width.bytes

/-- `Head(ty)`, the tag of a value's first byte (R35, R54). -/
def ValTy.head : ValTy → Tag
  | .u32 => .uint32Head
  | .i32 => .int32Head
  | .u8 => .uint8

/-- `Tail(ty)`, the tag of bytes 1, 2 and 3 of a 4-byte value (R35, R54). A `Uint8` has no tail byte, so its arm is
never read. -/
def ValTy.tail : ValTy → Tag
  | .u32 => .uint32Tail
  | .i32 => .int32Tail
  | .u8 => .untagged

/-- The type a tag starts, if it is a head tag (R35, R57). -/
def Tag.starts : Tag → Option ValTy
  | .uint32Head => some .u32
  | .int32Head => some .i32
  | .uint8 => some .u8
  | .uint32Tail => none
  | .int32Tail => none
  | .untagged => none

/-- A typed value: its type and its pattern, a `U8` pattern widened with zero bits (R9, R15). -/
abbrev Value := ValTy × Word

/-- The request of a typed read (R15). -/
inductive Request where
  | exactly (ty : ValTy)
  | word
  | any
  deriving DecidableEq, Repr

/-- `Accepts(req, ty)` (R57). -/
def Request.accepts : Request → ValTy → Bool
  | .any, _ => true
  | .exactly want, ty => want == ty
  | .word, .u32 => true
  | .word, .i32 => true
  | .word, .u8 => false

/-! ## Sparse cells -/

/-- What address `k` holds: its entry, or `d` where it has none. -/
def Sparse.get {α : Type} (d : α) : List (Nat × α) → Nat → α
  | [], _ => d
  | (k, v) :: rest, a => if a = k then v else Sparse.get d rest a

/-- Put an entry in its place in the rising order of addresses. -/
def Sparse.insert {α : Type} (a : Nat) (v : α) : List (Nat × α) → List (Nat × α)
  | [] => [(a, v)]
  | (k, w) :: rest =>
    if a < k then (a, v) :: (k, w) :: rest
    else if a = k then (a, v) :: rest
    else (k, w) :: Sparse.insert a v rest

/-- Make address `a` hold `v`. Writing the value an unlisted address reads as removes the entry. -/
def Sparse.set {α : Type} [DecidableEq α] (d : α) (a : Nat) (v : α) (cells : List (Nat × α)) : List (Nat × α) :=
  if v = d then cells.filter fun cell => cell.1 != a else Sparse.insert a v cells

/-- The canonical form: addresses strictly rising and below `bound`, no entry equal to what an unlisted address reads
as. -/
abbrev Sparse.canonical {α : Type} [DecidableEq α] (d : α) (bound : Nat) (cells : List (Nat × α)) : Prop :=
  cells.Pairwise (fun x y => x.1 < y.1) ∧ ∀ cell ∈ cells, cell.1 < bound ∧ cell.2 ≠ d

/-! ## Regions -/

/-- A tagged region (R50, R53): its capacity in bytes and, in canonical form, the bytes that are not 0 and the tags that are
not `Untagged`. An unlisted address reads as byte 0 and tag `Untagged`, the launch contents of R33, R38 and R341. -/
structure Memory where
  cap : Nat
  bytes : List Host.Cell
  tags : List (Nat × Tag)
  deriving DecidableEq, Repr

/-- The region of a capacity with every byte 0 and every tag `Untagged`. -/
def Memory.blank (cap : Nat) : Memory := { cap := cap, bytes := [], tags := [] }

/-- Both lists of a region are in canonical form, and every listed address is in the region. -/
abbrev Memory.wf (m : Memory) : Prop :=
  Sparse.canonical (0#8) m.cap m.bytes ∧ Sparse.canonical Tag.untagged m.cap m.tags

/-- `R.byte[a]` (R10). -/
def Memory.byteAt (m : Memory) (a : Nat) : Byte := Sparse.get 0#8 m.bytes a

/-- `R.tag[a]` (R10). -/
def Memory.tagAt (m : Memory) (a : Nat) : Tag := Sparse.get .untagged m.tags a

/-- `R.byte[a] <- b`. -/
def Memory.setByte (m : Memory) (a : Nat) (b : Byte) : Memory := { m with bytes := Sparse.set 0#8 a b m.bytes }

/-- `R.tag[a] <- t`. -/
def Memory.setTag (m : Memory) (a : Nat) (t : Tag) : Memory := { m with tags := Sparse.set .untagged a t m.tags }

/-- The little-endian value of the `n` bytes at `a`, a single byte widened with zero bits (R52, R55). -/
def Memory.valueAt (m : Memory) (a : Nat) : Width → Word
  | .one => (m.byteAt a).setWidth 32
  | .four => leWord (m.byteAt a) (m.byteAt (a + 1)) (m.byteAt (a + 2)) (m.byteAt (a + 3))

/-- Write the low `n` bytes of `v` at `a`, little-endian, leaving the tags (R52, R56). -/
def Memory.setBytes (m : Memory) (a : Nat) (v : Word) : Width → Memory
  | .one => m.setByte a (Word.byte v 0)
  | .four =>
    (((m.setByte a (Word.byte v 0)).setByte (a + 1) (Word.byte v 1)).setByte (a + 2) (Word.byte v 2)).setByte (a + 3)
      (Word.byte v 3)

/-- Tag the bytes of a value of type `ty` at `a`: `Head(ty)`, then `Tail(ty)` for a 4-byte value (R54, R58). -/
def Memory.setTags (m : Memory) (a : Nat) (ty : ValTy) : Memory :=
  match ty.width with
  | .one => m.setTag a ty.head
  | .four => (((m.setTag a ty.head).setTag (a + 1) ty.tail).setTag (a + 2) ty.tail).setTag (a + 3) ty.tail

/-- The bytes and tags of a typed write at `a`, without its bounds check (R54, R58). -/
def Memory.store (m : Memory) (a : Nat) (ty : ValTy) (v : Word) : Memory := (m.setBytes a v ty.width).setTags a ty

/-- Bytes 1 to `width(ty) - 1` of the value at `a` carry `Tail(ty)` (R54, R57). -/
def Memory.tailsOk (m : Memory) (a : Nat) (ty : ValTy) : Bool :=
  match ty.width with
  | .one => true
  | .four => m.tagAt (a + 1) == ty.tail && m.tagAt (a + 2) == ty.tail && m.tagAt (a + 3) == ty.tail

end Sys2Proof.Machine
end

