-- ==== Sys2Proof/Machine/State.lean ====
section
/-! DEFINITION. The architectural state of the core (10_state.md), as plain data, and its value right after reset (R38,
R342, R343). -/

namespace Sys2Proof.Machine

/-- `status`, the execution state (R22). -/
inductive Status where
  | running
  | halted
  | faulted
  deriving DecidableEq, Repr

/-- The kind held in `fault_kind` (R24, R300). -/
inductive FaultKind where
  | none
  | invalidAddress
  | typeMismatch
  | stackOverflow
  | stackUnderflow
  | callStackOverflow
  | callStackUnderflow
  | divisionByZero
  | unknownOpcode
  | nestedLoop
  | noActiveLoop
  deriving DecidableEq, Repr

/-- The 8-bit code of a fault kind (R300). Codes 11 to 255 never occur. -/
def FaultKind.code : FaultKind → BitVec 8
  | .none => 0
  | .invalidAddress => 1
  | .typeMismatch => 2
  | .stackOverflow => 3
  | .stackUnderflow => 4
  | .callStackOverflow => 5
  | .callStackUnderflow => 6
  | .divisionByZero => 7
  | .unknownOpcode => 8
  | .nestedLoop => 9
  | .noActiveLoop => 10

/-- `where` of an `Inspect` event (R325): the region inspected. -/
inductive Place where
  | mem
  | stack
  deriving DecidableEq, Repr

/-- One record of the output event stream (R325). -/
inductive Event where
  /-- `Inspect(where, place, type_code, value)`, emitted by `nspctr` and `nspctst`. -/
  | inspect (region : Place) (place : Word) (typeCode : Word) (value : Word)
  /-- `Break(addr)`, emitted by `brkp`. -/
  | brk (addr : Word)
  /-- `Checkpoint(addr)`, emitted by `test_die`. -/
  | checkpoint (addr : Word)
  deriving DecidableEq, Repr

/-- The operand stack: its region `S`, whose capacity is `STACK_CAP`, and its cursor `stk_top` and `stk_count` (R32,
R33). -/
structure OperandStack where
  mem : Memory
  top : Word
  count : Word
  deriving DecidableEq, Repr

/-- The call stack: the entries `cs[0..999]` that are not 0, in canonical form, and `cs_depth`, 32 bits wide (R7, R31).
An unlisted entry reads as 0, its reset value. -/
structure CallStack where
  entries : List (Nat × Word)
  depth : Word
  deriving DecidableEq, Repr

/-- The loop registers `lp_counter`, `lp_body`, `lp_end` and `lp_active` (R29, R30). -/
structure LoopRegs where
  counter : Word
  bodyAddr : Word
  endAddr : Word
  active : Bool
  deriving DecidableEq, Repr

/-- The whole architectural state (10_state.md). `MEM_CAP` is `mem.cap` and `STACK_CAP` is `stk.mem.cap`. -/
structure State where
  /-- Main memory `M` (R34). -/
  mem : Memory
  /-- The operand stack: `S`, `stk_top`, `stk_count` (R32, R33). -/
  stk : OperandStack
  /-- The call stack: `cs`, `cs_depth` (R31). -/
  calls : CallStack
  /-- The loop registers (R29, R30). -/
  lp : LoopRegs
  /-- `ip` (R21). -/
  ip : Word
  /-- `status` (R22). -/
  status : Status
  /-- `exit_code` (R23). -/
  exitCode : Word
  /-- `fault_kind` (R24). -/
  faultKind : FaultKind
  /-- `fault_ip` (R25). -/
  faultIp : Word
  /-- The output event stream, oldest first (R14, R325). -/
  events : List Event
  deriving DecidableEq, Repr

/-- Why the MODEL stops. Every fault of the spec is a next state (R310), so the one reason here is a state for which the
spec's own primitives give no result. -/
inductive Fault where
  /-- Raised by `stkNext` and `stkPrev` alone, in a state that breaks the stack invariant R77: `S.tag[stk_top]` starts no
  value, or the value below the top would start below address 0. R70 and R71 give no result there. Safe: no state that
  launch reaches stops so (log 3). -/
  | brokenStack
  deriving DecidableEq, Repr

/-- Why the model has no meaning for an instruction. -/
inductive Refusal where
  /-- Raised by an arm of `exec` whose instruction has no meaning yet. Safe: the model stops. No arm raises it now. -/
  | notModelled (mnemonic : String)
  deriving DecidableEq, Repr

/-- The state right after reset (R38, R342, R343) of a launch that loads an empty image with the default `INIT_TAGS` and
the capacities of log 1: main memory reads as zeros, so the bootstrap pointer and `ip` are 0. A program is placed by
launch, not by reset (log 2). -/
def State.reset : State where
  mem := Memory.blank Config.memCapReset
  stk := { mem := Memory.blank Config.stackCapReset, top := Config.emptyTop, count := 0 }
  calls := { entries := [], depth := 0 }
  lp := { counter := 0, bodyAddr := 0, endAddr := 0, active := false }
  ip := 0
  status := .running
  exitCode := 0
  faultKind := .none
  faultIp := 0
  events := []

end Sys2Proof.Machine
end

