-- ==== Sys2Proof/Machine/Ops.lean ====
section
/-! DEFINITION. The shared operations every meaning is built from: raising a fault and its entry (R12, R310), the region
primitives (R55 to R58), the operand-stack primitives (R70 to R76), the call stack, and the events (R14). -/

namespace Sys2Proof.Machine

/-! ## Raising -/

/-- Why an instruction ends before its last effect: it raises a fault of the spec (R12), or the model stops. -/
inductive Stop where
  | raise (kind : FaultKind)
  | stuck (why : Fault)
  deriving DecidableEq, Repr

/-- The result of a part of an instruction. On an error its writes are dropped with it (R12). -/
abbrev Res (α : Type) := Except Stop α

/-- `raise F` (R12). -/
def raise {α : Type} (kind : FaultKind) : Res α := .error (.raise kind)

/-- Fault entry (R301, R310): the state before the instruction, with `status`, `fault_kind` and `fault_ip` written. There is no
return from it (R311). -/
def State.takeFault (kind : FaultKind) (s : State) : State :=
  { s with status := .faulted, faultKind := kind, faultIp := s.ip }

/-- Perform an instruction on a copy of the state (R12, R303, R360): its result is the next state, unless it raises, and then the
next state is fault entry on the state before it. -/
def State.perform (s : State) (r : Res State) : Host.Outcome State Fault Refusal :=
  match r with
  | .ok t => .next t
  | .error (.raise kind) => .next (s.takeFault kind)
  | .error (.stuck why) => .fault why

/-! ## Region primitives -/

/-- `RawRead(R, a, n)` (R55): the bound is checked on whole numbers, so no address wraps (R51), and no address needs
alignment (R60). -/
def rawRead (m : Memory) (a : Nat) (n : Width) : Res Word :=
  if a + n.bytes > m.cap then raise .invalidAddress else .ok (m.valueAt a n)

/-- `RawWrite(R, a, n, v)` (R56). Only the loader uses it. -/
def rawWrite (m : Memory) (a : Nat) (n : Width) (v : Word) : Res Memory :=
  if a + n.bytes > m.cap then raise .invalidAddress else .ok (m.setBytes a v n)

/-- `TagRead(R, a, req)` (R57). -/
def tagRead (m : Memory) (a : Nat) (req : Request) : Res Value :=
  if a + 1 > m.cap then raise .invalidAddress
  else
    match (m.tagAt a).starts with
    | none => raise .typeMismatch
    | some ty =>
      if a + ty.bytes > m.cap then raise .invalidAddress
      else if m.tailsOk a ty = false then raise .typeMismatch
      else if req.accepts ty = false then raise .typeMismatch
      else .ok (ty, m.valueAt a ty.width)

/-- `TagWrite(R, a, ty, v)` (R58). -/
def tagWrite (m : Memory) (a : Nat) (ty : ValTy) (v : Word) : Res Memory :=
  if a + ty.bytes > m.cap then raise .invalidAddress else .ok (m.store a ty v)

/-! ## Operand-stack primitives -/

/-- `StkNext()` (R70). Where `S.tag[stk_top]` starts no value the spec gives no result and the model stops (log 3). -/
def stkNext (k : OperandStack) : Res Nat :=
  if k.count = 0 then .ok 0
  else
    match (k.mem.tagAt k.top.toNat).starts with
    | some ty => .ok (k.top.toNat + ty.bytes)
    | none => .error (.stuck .brokenStack)

/-- `StkPrev(a)` (R71). Where the value below would start below address 0 the spec gives no result and the model stops
(log 3). -/
def stkPrev (k : OperandStack) (a : Nat) : Res Nat :=
  if a = 0 then .error (.stuck .brokenStack)
  else if k.mem.tagAt (a - 1) = .uint8 then .ok (a - 1)
  else if a < 4 then .error (.stuck .brokenStack)
  else .ok (a - 4)

/-- `Push(ty, v)` (R72). -/
def push (k : OperandStack) (ty : ValTy) (v : Word) : Res OperandStack := do
  let a ← stkNext k
  if a + ty.bytes > k.mem.cap then raise .stackOverflow
  else do
    let m ← tagWrite k.mem a ty v
    .ok { mem := m, top := BitVec.ofNat 32 a, count := k.count + 1 }

/-- `Pop()` (R73): the popped value, and the stack without it. The bytes and tags stay in `S`. -/
def pop (k : OperandStack) : Res (Value × OperandStack) :=
  if k.count = 0 then raise .stackUnderflow
  else do
    let v ← tagRead k.mem k.top.toNat .any
    if k.count = 1 then .ok (v, { k with top := Config.emptyTop, count := k.count - 1 })
    else do
      let a ← stkPrev k k.top.toNat
      .ok (v, { k with top := BitVec.ofNat 32 a, count := k.count - 1 })

/-- `PeekTop(req)` (R74). -/
def peekTop (k : OperandStack) (req : Request) : Res Value :=
  if k.count.toNat < 1 then raise .stackUnderflow else tagRead k.mem k.top.toNat req

/-- `PeekSecond(req)` (R75). -/
def peekSecond (k : OperandStack) (req : Request) : Res Value :=
  if k.count.toNat < 2 then raise .stackUnderflow
  else do
    let a ← stkPrev k k.top.toNat
    tagRead k.mem a req

/-- `n` calls of `Pop()`, their results discarded (R76). -/
def popTimes : Nat → OperandStack → Res OperandStack
  | 0, k => .ok k
  | n + 1, k => do
    let r ← pop k
    popTimes n r.2

/-- `Remove(n)` (R76): the check comes first, so a failing `Remove` pops nothing. -/
def remove (k : OperandStack) (n : Nat) : Res OperandStack :=
  if k.count.toNat < n then raise .stackUnderflow else popTimes n k

/-! ## Call stack -/

/-- `cs[i]` (R10, R31). -/
def CallStack.entry (c : CallStack) (i : Nat) : Word := Sparse.get 0#32 c.entries i

/-- CallStack push (R113): store the return address at `cs[cs_depth]`, then increment `cs_depth`. -/
def callPush (c : CallStack) (ret : Word) : Res CallStack :=
  if c.depth.toNat = Config.recurMax then raise .callStackOverflow
  else .ok { entries := Sparse.set 0#32 c.depth.toNat ret c.entries, depth := c.depth + 1 }

/-- CallStack pop (R114): decrement `cs_depth` and answer the stored address, which keeps its place in `cs`. -/
def callPop (c : CallStack) : Res (Word × CallStack) :=
  if c.depth = 0 then raise .callStackUnderflow
  else .ok (c.entry (c.depth - 1).toNat, { c with depth := c.depth - 1 })

/-! ## Instruction pointer and events -/

/-- `ip <- ip + len` (R13). -/
def State.advance (s : State) (len : Nat) : State := { s with ip := s.ip + BitVec.ofNat 32 len }

/-- `ip <- target` (R13). -/
def State.jump (s : State) (target : Word) : State := { s with ip := target }

/-- The two ways out of a conditional jump of format F1 (R121 to R126): the target, or past the immediate. -/
def State.jumpIf (s : State) (taken : Bool) (target : Word) : State := if taken then s.jump target else s.advance 5

/-- `emit E` (R14). -/
def State.emit (s : State) (e : Event) : State := { s with events := s.events ++ [e] }

end Sys2Proof.Machine
end

