-- ==== Sys2Proof/Machine/Flags.lean ====
section
/-! DEFINITION. The core has no flags, condition codes or predicates (R28), so no flag is ever computed. What a conditional
jump tests is computed from its two operands each time (R121 to R126): those conditions stand here. -/

namespace Sys2Proof.Machine

/-- `s32(v)`, the signed value of a 32-bit pattern (R9). -/
def s32 (v : Word) : Int := if v.toNat < 2147483648 then (v.toNat : Int) else (v.toNat : Int) - 4294967296

/-- `a <u b` (R9). -/
def ltU (a b : Word) : Bool := decide (a.toNat < b.toNat)

/-- `a <s b` (R9). -/
def ltS (a b : Word) : Bool := decide (s32 a < s32 b)

end Sys2Proof.Machine
end

