-- ==== Sys2Proof/Machine/Operands.lean ====
section
/-! DEFINITION. The operand forms of the instruction rules: the top one or two values of the operand stack, a value or a
pointer in main memory, a live stack address, and a type code. Immediates are the `Word` fields of `Instr` (R92). -/

namespace Sys2Proof.Machine

/-- The top value as 32 bits, under the `WORD` request (R151, R161). -/
def topWord (k : OperandStack) : Res Word := do
  let v ← peekTop k .word
  .ok v.2

/-- The top and the second value as 32 bits, under the `WORD` request, top first (R123, R160). -/
def topTwoWords (k : OperandStack) : Res (Word × Word) :=
  if k.count.toNat < 2 then raise .stackUnderflow
  else do
    let t ← peekTop k .word
    let s ← peekSecond k .word
    .ok (t.2, s.2)

/-- The 4 bytes at the top value's first byte and the 4 at the second's, without a tag check, top first (R121). -/
def topTwoRaw (k : OperandStack) : Res (Word × Word) :=
  if k.count.toNat < 2 then raise .stackUnderflow
  else do
    let second ← stkPrev k k.top.toNat
    let t ← rawRead k.mem k.top.toNat .four
    let s ← rawRead k.mem second .four
    .ok (t, s)

/-- `mem[addr]`, with its own type (R144, R148). -/
def memValue (m : Memory) (addr : Word) : Res Value := tagRead m addr.toNat .any

/-- A pointer held at `mem[addr]`: a `Uint32` or `Int32`, used as an unsigned address (R150, R151). -/
def memPointer (m : Memory) (addr : Word) : Res Word := do
  let v ← tagRead m addr.toNat .word
  .ok v.2

/-- `stack[src]`, a value of the live stack by its byte address (R147). -/
def stackValue (k : OperandStack) (src : Word) : Res Value := do
  let next ← stkNext k
  if src.toNat ≥ next then raise .invalidAddress else tagRead k.mem src.toNat .any

/-- `TypeOfCode(c)` (48_inspect_debug.md): 0, 1 and 2; any other code raises `TypeMismatch`. -/
def typeOfCode (c : Word) : Res ValTy :=
  if c = 0 then .ok .u32
  else if c = 1 then .ok .i32
  else if c = 2 then .ok .u8
  else raise .typeMismatch

/-- The stack address `nspctst` inspects: `offset` bytes below the top value's first byte (R241). -/
def inspectedAddr (k : OperandStack) (offset : Word) : Res Nat :=
  if k.count = 0 then raise .stackUnderflow
  else if offset.toNat > k.top.toNat then raise .invalidAddress
  else .ok (k.top.toNat - offset.toNat)

end Sys2Proof.Machine
end

