-- ==== Sys2Proof/Machine/Alu.lean ====
section
/-! DEFINITION. The two shared procedures of the arithmetic and bitwise instructions (R160, R161), and the function each
instruction gives them: computed on integers, then narrowed (R9). -/

namespace Sys2Proof.Machine

/-! ## Shared procedures -/

/-- `BinOp(f, rty, zcheck)` on the operand stack (R160): right operand on top, left operand second, both popped, the
result pushed. -/
def binOp (f : Word → Word → Word) (rty : ValTy) (zcheck : Bool) (k : OperandStack) : Res OperandStack := do
  let rl ← topTwoWords k
  if zcheck && rl.1 == 0 then raise .divisionByZero
  else do
    let afterRight ← pop k
    let afterLeft ← pop afterRight.2
    push afterLeft.2 rty (f rl.2 rl.1)

/-- `UnOp(f, rty)` on the operand stack (R161): the top value replaced in place. -/
def unOp (f : Word → Word) (rty : ValTy) (k : OperandStack) : Res OperandStack := do
  let v ← topWord k
  let m ← tagWrite k.mem k.top.toNat rty (f v)
  .ok { k with mem := m }

/-! ## Narrowing -/

/-- `u32(x)`, `x mod 2^32` (R9). -/
def u32 (x : Int) : Word := BitVec.ofInt 32 x

/-! ## Unsigned arithmetic (R162 to R168) -/

/-- `inc` (R162). -/
def incFn (v : Word) : Word := u32 (v.toNat + 1)

/-- `dec` (R163). -/
def decFn (v : Word) : Word := u32 ((v.toNat : Int) - 1)

/-- `add` (R164). -/
def addFn (l r : Word) : Word := u32 (l.toNat + r.toNat)

/-- `sub` (R165). -/
def subFn (l r : Word) : Word := u32 ((l.toNat : Int) - r.toNat)

/-- `mul` (R166). -/
def mulFn (l r : Word) : Word := u32 (l.toNat * r.toNat)

/-- `div` (R167): `floor(l / r)`. -/
def divFn (l r : Word) : Word := u32 ((l.toNat / r.toNat : Nat) : Int)

/-- `mod` (R168): `l - r * floor(l / r)`. -/
def modFn (l r : Word) : Word := u32 ((l.toNat : Int) - r.toNat * ((l.toNat / r.toNat : Nat) : Int))

/-! ## Signed arithmetic (R180 to R186) -/

/-- `incs` (R180). -/
def incsFn (v : Word) : Word := u32 (s32 v + 1)

/-- `decs` (R181). -/
def decsFn (v : Word) : Word := u32 (s32 v - 1)

/-- `adds` (R182). -/
def addsFn (l r : Word) : Word := u32 (s32 l + s32 r)

/-- `subs` (R183). -/
def subsFn (l r : Word) : Word := u32 (s32 l - s32 r)

/-- `muls` (R184). -/
def mulsFn (l r : Word) : Word := u32 (s32 l * s32 r)

/-- `divs` (R185): `trunc(l / r)`, and the one quotient that does not fit wraps. -/
def divsFn (l r : Word) : Word :=
  if s32 l = -2147483648 ∧ s32 r = -1 then 0x80000000#32 else u32 (Int.tdiv (s32 l) (s32 r))

/-- `mods` (R186): `l - r * trunc(l / r)`. -/
def modsFn (l r : Word) : Word :=
  if s32 l = -2147483648 ∧ s32 r = -1 then 0#32 else u32 (s32 l - s32 r * Int.tdiv (s32 l) (s32 r))

/-! ## Shifts and rotates (R204 to R207, R224 to R227) -/

/-- Shift left (R204, R224): the count is unsigned, and 32 or more gives 0. -/
def shiftLeftFn (l r : Word) : Word := if r.toNat ≥ 32 then 0#32 else u32 ((l.toNat * 2 ^ r.toNat : Nat) : Int)

/-- Logical shift right (R205). -/
def shiftRightFn (l r : Word) : Word := if r.toNat ≥ 32 then 0#32 else u32 ((l.toNat / 2 ^ r.toNat : Nat) : Int)

/-- Arithmetic shift right (R225): 32 or more gives copies of the sign bit. -/
def shiftRightSignedFn (l r : Word) : Word :=
  if r.toNat ≥ 32 then (if s32 l < 0 then 0xFFFFFFFF#32 else 0#32)
  else u32 (Int.fdiv (s32 l) (2 ^ r.toNat))

/-- Rotate left by `n`, `0 < n < 32`, as its pair of shifts (R206, R226). -/
def rotatePair (l : Word) (n : Nat) : Word :=
  u32 ((l.toNat * 2 ^ n : Nat) : Int) ||| u32 ((l.toNat / 2 ^ (32 - n) : Nat) : Int)

/-- Rotate left, the count modulo 32 (R206, R226). -/
def rotateLeftFn (l r : Word) : Word := if r.toNat % 32 = 0 then l else rotatePair l (r.toNat % 32)

/-- Rotate right, the count modulo 32 (R207, R227). -/
def rotateRightFn (l r : Word) : Word :=
  if r.toNat % 32 = 0 then l
  else
    u32 ((l.toNat / 2 ^ (r.toNat % 32) : Nat) : Int) ||| u32 ((l.toNat * 2 ^ (32 - r.toNat % 32) : Nat) : Int)

/-! ## The whole instruction -/

/-- A binary instruction: `BinOp`, then `ip <- ip + 1` (R160). -/
def execBinOp (f : Word → Word → Word) (rty : ValTy) (zcheck : Bool) (s : State) :
    Host.Outcome State Fault Refusal :=
  s.perform do
    let k ← binOp f rty zcheck s.stk
    .ok ({ s with stk := k }.advance 1)

/-- A unary instruction: `UnOp`, then `ip <- ip + 1` (R161). -/
def execUnOp (f : Word → Word) (rty : ValTy) (s : State) : Host.Outcome State Fault Refusal :=
  s.perform do
    let k ← unOp f rty s.stk
    .ok ({ s with stk := k }.advance 1)

end Sys2Proof.Machine
end

