-- ==== Sys2Proof/Machine/ArithSigned.lean ====
section
/-! DEFINITION. Signed arithmetic instructions (45_arith_signed.md). Results are tagged `Int32`. -/

namespace Sys2Proof.Machine

/-- `incs` (R180). -/
def execIncs (s : State) : Host.Outcome State Fault Refusal := execUnOp incsFn .i32 s

/-- `decs` (R181). -/
def execDecs (s : State) : Host.Outcome State Fault Refusal := execUnOp decsFn .i32 s

/-- `adds` (R182). -/
def execAdds (s : State) : Host.Outcome State Fault Refusal := execBinOp addsFn .i32 false s

/-- `subs` (R183). -/
def execSubs (s : State) : Host.Outcome State Fault Refusal := execBinOp subsFn .i32 false s

/-- `muls` (R184). -/
def execMuls (s : State) : Host.Outcome State Fault Refusal := execBinOp mulsFn .i32 false s

/-- `divs` (R185). -/
def execDivs (s : State) : Host.Outcome State Fault Refusal := execBinOp divsFn .i32 true s

/-- `mods` (R186). -/
def execMods (s : State) : Host.Outcome State Fault Refusal := execBinOp modsFn .i32 true s

end Sys2Proof.Machine
end

