-- ==== Sys2Proof/Machine/ArithUnsigned.lean ====
section
/-! DEFINITION. Unsigned arithmetic instructions (44_arith_unsigned.md). Results are tagged `Uint32`. -/

namespace Sys2Proof.Machine

/-- `inc` (R162). -/
def execInc (s : State) : Host.Outcome State Fault Refusal := execUnOp incFn .u32 s

/-- `dec` (R163). -/
def execDec (s : State) : Host.Outcome State Fault Refusal := execUnOp decFn .u32 s

/-- `add` (R164). -/
def execAdd (s : State) : Host.Outcome State Fault Refusal := execBinOp addFn .u32 false s

/-- `sub` (R165). -/
def execSub (s : State) : Host.Outcome State Fault Refusal := execBinOp subFn .u32 false s

/-- `mul` (R166). -/
def execMul (s : State) : Host.Outcome State Fault Refusal := execBinOp mulFn .u32 false s

/-- `div` (R167). -/
def execDiv (s : State) : Host.Outcome State Fault Refusal := execBinOp divFn .u32 true s

/-- `mod` (R168). -/
def execMod (s : State) : Host.Outcome State Fault Refusal := execBinOp modFn .u32 true s

end Sys2Proof.Machine
end

