-- ==== Sys2Proof/Machine/BitSigned.lean ====
section
/-! DEFINITION. Signed bitwise instructions (47_bitwise_signed.md). Results are tagged `Int32`. -/

namespace Sys2Proof.Machine

/-- `ands` (R220). -/
def execAnds (s : State) : Host.Outcome State Fault Refusal := execBinOp (fun l r => l &&& r) .i32 false s

/-- `nots` (R221). -/
def execNots (s : State) : Host.Outcome State Fault Refusal := execUnOp (fun v => ~~~v) .i32 s

/-- `xors` (R222). -/
def execXors (s : State) : Host.Outcome State Fault Refusal := execBinOp (fun l r => l ^^^ r) .i32 false s

/-- `ors` (R223). -/
def execOrs (s : State) : Host.Outcome State Fault Refusal := execBinOp (fun l r => l ||| r) .i32 false s

/-- `lshfts` (R224). -/
def execLshfts (s : State) : Host.Outcome State Fault Refusal := execBinOp shiftLeftFn .i32 false s

/-- `rshfts` (R225). -/
def execRshfts (s : State) : Host.Outcome State Fault Refusal := execBinOp shiftRightSignedFn .i32 false s

/-- `lrots` (R226). -/
def execLrots (s : State) : Host.Outcome State Fault Refusal := execBinOp rotateLeftFn .i32 false s

/-- `rrots` (R227). -/
def execRrots (s : State) : Host.Outcome State Fault Refusal := execBinOp rotateRightFn .i32 false s

end Sys2Proof.Machine
end

