-- ==== Sys2Proof/Machine/BitUnsigned.lean ====
section
/-! DEFINITION. Unsigned bitwise instructions (46_bitwise_unsigned.md). Results are tagged `Uint32`. -/

namespace Sys2Proof.Machine

/-- `and` (R200). -/
def execAnd (s : State) : Host.Outcome State Fault Refusal := execBinOp (fun l r => l &&& r) .u32 false s

/-- `not` (R201). -/
def execNot (s : State) : Host.Outcome State Fault Refusal := execUnOp (fun v => ~~~v) .u32 s

/-- `xor` (R202). -/
def execXor (s : State) : Host.Outcome State Fault Refusal := execBinOp (fun l r => l ^^^ r) .u32 false s

/-- `or` (R203). -/
def execOr (s : State) : Host.Outcome State Fault Refusal := execBinOp (fun l r => l ||| r) .u32 false s

/-- `lshft` (R204). -/
def execLshft (s : State) : Host.Outcome State Fault Refusal := execBinOp shiftLeftFn .u32 false s

/-- `rshft` (R205). -/
def execRshft (s : State) : Host.Outcome State Fault Refusal := execBinOp shiftRightFn .u32 false s

/-- `lrot` (R206). -/
def execLrot (s : State) : Host.Outcome State Fault Refusal := execBinOp rotateLeftFn .u32 false s

/-- `rrot` (R207). -/
def execRrot (s : State) : Host.Outcome State Fault Refusal := execBinOp rotateRightFn .u32 false s

end Sys2Proof.Machine
end

