-- ==== Sys2Proof/Machine/Control.lean ====
section
/-! DEFINITION. Control and call/return instructions (40_control_call.md). -/

namespace Sys2Proof.Machine

/-- `die` (R110): a successful halt. `ip` keeps the address of the `die`. -/
def execDie (s : State) : Host.Outcome State Fault Refusal :=
  .next { s with status := .halted, exitCode := 0 }

/-- `nop` (R111). -/
def execNop (s : State) : Host.Outcome State Fault Refusal := .next (s.advance 1)

/-- `test_die` (R112): a checkpoint event, then on. -/
def execTestDie (s : State) : Host.Outcome State Fault Refusal :=
  .next ((s.emit (.checkpoint s.ip)).advance 1)

/-- `call addr` (R113): the return address is that of the instruction after the call. -/
def execCall (addr : Word) (s : State) : Host.Outcome State Fault Refusal :=
  s.perform do
    let c ← callPush s.calls (s.ip + 5)
    .ok ({ s with calls := c }.jump addr)

/-- `ret` (R114). -/
def execRet (s : State) : Host.Outcome State Fault Refusal :=
  s.perform do
    let r ← callPop s.calls
    .ok ({ s with calls := r.2 }.jump r.1)

end Sys2Proof.Machine
end

