-- ==== Sys2Proof/Machine/Inspect.lean ====
section
/-! DEFINITION. Inspection and debug instructions (48_inspect_debug.md). On success they write only `ip` and the event
stream (R243). -/

namespace Sys2Proof.Machine

/-- `nspctr type_code addr` (R240). -/
def execNspctr (typeCode addr : Word) (s : State) : Host.Outcome State Fault Refusal :=
  s.perform do
    let ty ← typeOfCode typeCode
    let v ← rawRead s.mem addr.toNat ty.width
    .ok ((s.emit (.inspect .mem addr typeCode v)).advance 9)

/-- `nspctst type_code offset` (R241). -/
def execNspctst (typeCode offset : Word) (s : State) : Host.Outcome State Fault Refusal :=
  s.perform do
    let ty ← typeOfCode typeCode
    let a ← inspectedAddr s.stk offset
    let v ← rawRead s.stk.mem a ty.width
    .ok ((s.emit (.inspect .stack offset typeCode v)).advance 9)

/-- `brkp` (R242): a `Break` event, then on. Only the run driver reads the event (R323). -/
def execBrkp (s : State) : Host.Outcome State Fault Refusal := .next ((s.emit (.brk s.ip)).advance 1)

end Sys2Proof.Machine
end

