-- ==== Sys2Proof/Machine/Jumps.lean ====
section
/-! DEFINITION. Jump instructions (41_jumps.md). No jump pops, and no target is checked when the jump is taken (R127). -/

namespace Sys2Proof.Machine

/-- A jump on a condition on the raw bytes of top and second (R121, R122). -/
def jumpOnRaw (cond : Word → Word → Bool) (addr : Word) (s : State) : Host.Outcome State Fault Refusal :=
  s.perform do
    let ts ← topTwoRaw s.stk
    .ok (s.jumpIf (cond ts.1 ts.2) addr)

/-- A jump on a condition on top and second as 32-bit values (R123 to R126). -/
def jumpOnWords (cond : Word → Word → Bool) (addr : Word) (s : State) : Host.Outcome State Fault Refusal :=
  s.perform do
    let ts ← topTwoWords s.stk
    .ok (s.jumpIf (cond ts.1 ts.2) addr)

/-- `jmp addr` (R120). -/
def execJmp (addr : Word) (s : State) : Host.Outcome State Fault Refusal := .next (s.jump addr)

/-- `je addr` (R121). -/
def execJe (addr : Word) (s : State) : Host.Outcome State Fault Refusal := jumpOnRaw (fun t u => t == u) addr s

/-- `jn addr` (R122). -/
def execJn (addr : Word) (s : State) : Host.Outcome State Fault Refusal := jumpOnRaw (fun t u => t != u) addr s

/-- `jl addr` (R123): top less than second, unsigned. -/
def execJl (addr : Word) (s : State) : Host.Outcome State Fault Refusal := jumpOnWords (fun t u => ltU t u) addr s

/-- `jg addr` (R124): top greater than second, unsigned. -/
def execJg (addr : Word) (s : State) : Host.Outcome State Fault Refusal := jumpOnWords (fun t u => ltU u t) addr s

/-- `jls addr` (R125): top less than second, signed. -/
def execJls (addr : Word) (s : State) : Host.Outcome State Fault Refusal := jumpOnWords (fun t u => ltS t u) addr s

/-- `jgs addr` (R126): top greater than second, signed. -/
def execJgs (addr : Word) (s : State) : Host.Outcome State Fault Refusal := jumpOnWords (fun t u => ltS u t) addr s

end Sys2Proof.Machine
end

