-- ==== Sys2Proof/Machine/Loop.lean ====
section
/-! DEFINITION. Loop instructions (42_loop.md), on the one loop context of the machine (R133). -/

namespace Sys2Proof.Machine

/-- `loop count body_addr end_addr` (R130). -/
def execLoop (count bodyAddr endAddr : Word) (s : State) : Host.Outcome State Fault Refusal :=
  s.perform <|
    if s.lp.active then raise .nestedLoop
    else
      .ok ({ s with lp := { counter := count, bodyAddr := bodyAddr, endAddr := endAddr, active := true } }.jump bodyAddr)

/-- `lcont` (R131, C4): another pass while the counter is above 1, else the loop ends with counter 0. -/
def execLcont (s : State) : Host.Outcome State Fault Refusal :=
  s.perform <|
    if s.lp.active = false then raise .noActiveLoop
    else if s.lp.counter.toNat > 1 then
      .ok ({ s with lp := { s.lp with counter := s.lp.counter - 1 } }.jump s.lp.bodyAddr)
    else .ok ({ s with lp := { s.lp with counter := 0, active := false } }.jump s.lp.endAddr)

/-- `lbrk` (R132): the counter and the addresses keep their values. -/
def execLbrk (s : State) : Host.Outcome State Fault Refusal :=
  s.perform <|
    if s.lp.active = false then raise .noActiveLoop
    else .ok ({ s with lp := { s.lp with active := false } }.jump s.lp.endAddr)

end Sys2Proof.Machine
end

