-- ==== Sys2Proof/Machine/StackShape.lean ====
section
/-! DEFINITION. Stack-shape instructions (43_stack_memory.md, R140 to R143). -/

namespace Sys2Proof.Machine

/-- `psh value` (R140): the immediate is pushed as a `Uint32`. -/
def execPsh (value : Word) (s : State) : Host.Outcome State Fault Refusal :=
  s.perform do
    let k ← push s.stk .u32 value
    .ok ({ s with stk := k }.advance 5)

/-- `pop` (R141). -/
def execPop (s : State) : Host.Outcome State Fault Refusal :=
  s.perform do
    let r ← pop s.stk
    .ok ({ s with stk := r.2 }.advance 1)

/-- `pop2` (R142). -/
def execPop2 (s : State) : Host.Outcome State Fault Refusal :=
  s.perform do
    let k ← remove s.stk 2
    .ok ({ s with stk := k }.advance 1)

/-- `popn n` (R143). -/
def execPopn (n : Word) (s : State) : Host.Outcome State Fault Refusal :=
  s.perform do
    let k ← remove s.stk n.toNat
    .ok ({ s with stk := k }.advance 5)

end Sys2Proof.Machine
end

