-- ==== Sys2Proof/Machine/Transfer.lean ====
section
/-! DEFINITION. Memory-transfer instructions (43_stack_memory.md, R144 to R151). A value moves with its own type. -/

namespace Sys2Proof.Machine

/-- `pshfr addr` (R144). -/
def execPshfr (addr : Word) (s : State) : Host.Outcome State Fault Refusal :=
  s.perform do
    let v ← memValue s.mem addr
    let k ← push s.stk v.1 v.2
    .ok ({ s with stk := k }.advance 5)

/-- `poptr addr` (R145). -/
def execPoptr (addr : Word) (s : State) : Host.Outcome State Fault Refusal :=
  s.perform do
    let r ← pop s.stk
    let m ← tagWrite s.mem addr.toNat r.1.1 r.1.2
    .ok ({ s with stk := r.2, mem := m }.advance 5)

/-- `movtr addr` (R146). -/
def execMovtr (addr : Word) (s : State) : Host.Outcome State Fault Refusal :=
  s.perform do
    let v ← peekTop s.stk .any
    let m ← tagWrite s.mem addr.toNat v.1 v.2
    .ok ({ s with mem := m }.advance 5)

/-- `stktr src dst` (R147). -/
def execStktr (src dst : Word) (s : State) : Host.Outcome State Fault Refusal :=
  s.perform do
    let v ← stackValue s.stk src
    let m ← tagWrite s.mem dst.toNat v.1 v.2
    .ok ({ s with mem := m }.advance 9)

/-- `cpyr src dst` (R148). -/
def execCpyr (src dst : Word) (s : State) : Host.Outcome State Fault Refusal :=
  s.perform do
    let v ← memValue s.mem src
    let m ← tagWrite s.mem dst.toNat v.1 v.2
    .ok ({ s with mem := m }.advance 9)

/-- `setr dst value` (R149): the immediate is stored as a `Uint32`. -/
def execSetr (dst value : Word) (s : State) : Host.Outcome State Fault Refusal :=
  s.perform do
    let m ← tagWrite s.mem dst.toNat .u32 value
    .ok ({ s with mem := m }.advance 9)

/-- `pshfrr addr` (R150). -/
def execPshfrr (addr : Word) (s : State) : Host.Outcome State Fault Refusal :=
  s.perform do
    let p ← memPointer s.mem addr
    let v ← memValue s.mem p
    let k ← push s.stk v.1 v.2
    .ok ({ s with stk := k }.advance 5)

/-- `pshfrs` (R151): the address on top is replaced by the value two levels away. -/
def execPshfrs (s : State) : Host.Outcome State Fault Refusal :=
  s.perform do
    let a ← topWord s.stk
    let p ← memPointer s.mem a
    let v ← memValue s.mem p
    let r ← pop s.stk
    let k ← push r.2 v.1 v.2
    .ok ({ s with stk := k }.advance 1)

end Sys2Proof.Machine
end

