-- ==== Sys2Proof/Machine/Dispatch.lean ====
section
/-! DEFINITION. One arm per instruction: the meaning `exec` gives it. -/

namespace Sys2Proof.Machine

/-- Perform one decoded instruction (R322), `ip` standing at its opcode byte (R13). -/
def exec (i : Instr) (s : State) : Host.Outcome State Fault Refusal :=
  match i with
  | .die => Sys2Proof.Machine.execDie s
  | .nop => Sys2Proof.Machine.execNop s
  | .testDie => Sys2Proof.Machine.execTestDie s
  | .call addr => Sys2Proof.Machine.execCall addr s
  | .ret => Sys2Proof.Machine.execRet s
  | .jmp addr => Sys2Proof.Machine.execJmp addr s
  | .je addr => Sys2Proof.Machine.execJe addr s
  | .jn addr => Sys2Proof.Machine.execJn addr s
  | .jl addr => Sys2Proof.Machine.execJl addr s
  | .jg addr => Sys2Proof.Machine.execJg addr s
  | .jls addr => Sys2Proof.Machine.execJls addr s
  | .jgs addr => Sys2Proof.Machine.execJgs addr s
  | .loop count bodyAddr endAddr => Sys2Proof.Machine.execLoop count bodyAddr endAddr s
  | .lcont => Sys2Proof.Machine.execLcont s
  | .lbrk => Sys2Proof.Machine.execLbrk s
  | .psh value => Sys2Proof.Machine.execPsh value s
  | .pop => Sys2Proof.Machine.execPop s
  | .pop2 => Sys2Proof.Machine.execPop2 s
  | .popn n => Sys2Proof.Machine.execPopn n s
  | .pshfr addr => Sys2Proof.Machine.execPshfr addr s
  | .poptr addr => Sys2Proof.Machine.execPoptr addr s
  | .movtr addr => Sys2Proof.Machine.execMovtr addr s
  | .stktr src dst => Sys2Proof.Machine.execStktr src dst s
  | .cpyr src dst => Sys2Proof.Machine.execCpyr src dst s
  | .setr dst value => Sys2Proof.Machine.execSetr dst value s
  | .pshfrr addr => Sys2Proof.Machine.execPshfrr addr s
  | .pshfrs => Sys2Proof.Machine.execPshfrs s
  | .inc => Sys2Proof.Machine.execInc s
  | .dec => Sys2Proof.Machine.execDec s
  | .add => Sys2Proof.Machine.execAdd s
  | .sub => Sys2Proof.Machine.execSub s
  | .mul => Sys2Proof.Machine.execMul s
  | .div => Sys2Proof.Machine.execDiv s
  | .mod => Sys2Proof.Machine.execMod s
  | .incs => Sys2Proof.Machine.execIncs s
  | .decs => Sys2Proof.Machine.execDecs s
  | .adds => Sys2Proof.Machine.execAdds s
  | .subs => Sys2Proof.Machine.execSubs s
  | .muls => Sys2Proof.Machine.execMuls s
  | .divs => Sys2Proof.Machine.execDivs s
  | .mods => Sys2Proof.Machine.execMods s
  | .and => Sys2Proof.Machine.execAnd s
  | .not => Sys2Proof.Machine.execNot s
  | .xor => Sys2Proof.Machine.execXor s
  | .or => Sys2Proof.Machine.execOr s
  | .lshft => Sys2Proof.Machine.execLshft s
  | .rshft => Sys2Proof.Machine.execRshft s
  | .lrot => Sys2Proof.Machine.execLrot s
  | .rrot => Sys2Proof.Machine.execRrot s
  | .ands => Sys2Proof.Machine.execAnds s
  | .nots => Sys2Proof.Machine.execNots s
  | .xors => Sys2Proof.Machine.execXors s
  | .ors => Sys2Proof.Machine.execOrs s
  | .lshfts => Sys2Proof.Machine.execLshfts s
  | .rshfts => Sys2Proof.Machine.execRshfts s
  | .lrots => Sys2Proof.Machine.execLrots s
  | .rrots => Sys2Proof.Machine.execRrots s
  | .nspctr typeCode addr => Sys2Proof.Machine.execNspctr typeCode addr s
  | .nspctst typeCode offset => Sys2Proof.Machine.execNspctst typeCode offset s
  | .brkp => Sys2Proof.Machine.execBrkp s

end Sys2Proof.Machine
end

