-- ==== Sys2Proof/Machine/Fetch.lean ====
section
/-! DEFINITION. Fetch and decode of the instruction at `ip` (R94): raw reads of main memory, which ignore tags. -/

namespace Sys2Proof.Machine

/-- The bytes of main memory from `ip` on, as far as the longest instruction and no further than `MEM_CAP` (R94). -/
def fetchBytes (s : State) : List Byte :=
  (List.range (min maxLength (s.mem.cap - s.ip.toNat))).map fun k => s.mem.byteAt (s.ip.toNat + k)

/-- The fault of bytes that do not decode (R94): bytes that end too soon are an access outside `M`. -/
def decodeFault : DecodeError → FaultKind
  | .unknownOpcode => .unknownOpcode
  | .truncated => .invalidAddress

/-- `FetchDecode()` (R94): the instruction at `ip`. -/
def fetchDecode (s : State) : Res Instr :=
  match decode (fetchBytes s) with
  | .ok (i, _) => .ok i
  | .error e => raise (decodeFault e)

/-- Place bytes from address `a` on, tags untouched (R56); bytes at or above `MEM_CAP` do not exist and are dropped. -/
def placeBytes (m : Memory) : Nat → List Byte → Memory
  | _, [] => m
  | a, b :: rest => placeBytes (if a < m.cap then m.setByte a b else m) (a + 1) rest

end Sys2Proof.Machine
end

