-- ==== Sys2Proof/Machine/Step.lean ====
section
/-! DEFINITION. One step of the core (R322), and the placing of an instruction where the next step fetches. -/

namespace Sys2Proof.Machine

/-- `step()` (R322, R350 to R352, R360): nothing in a terminal state, else fetch, decode and the instruction's rule, or fault entry. -/
def step (s : State) : Host.Outcome State Fault Refusal :=
  if s.status = .running then
    match fetchDecode s with
    | .ok i => exec i s
    | .error (.raise kind) => .next (s.takeFault kind)
    | .error (.stuck why) => .fault why
  else .next s

/-- `s` with an instruction word placed at `ip`, where the next step fetches, and the core `Running`, without which no
step fetches (R322). It stands for the load of a program that launch performs (log 2). -/
def State.withFetchWord (s : State) (nbits w : Nat) : State :=
  { s with mem := placeBytes s.mem s.ip.toNat (tableBytes nbits w), status := .running }

end Sys2Proof.Machine
end

