-- ==== Sys2Proof/Machine/Driver.lean ====
section
/-! DEFINITION. The host's side of the boundary (R320 to R328): the execution state it reads, the run driver, and the debug
reads. None of it changes what an instruction does. -/

namespace Sys2Proof.Machine

/-! ## Execution state -/

/-- The `state` field of `STATUS` (R26). -/
def Status.code : Status → BitVec 2
  | .running => 0
  | .halted => 1
  | .faulted => 2

/-- The `STATUS` word (R26): state in bits 1:0, fault kind in bits 15:8, every other bit 0. -/
def State.statusWord (s : State) : Word := 0#16 ++ s.faultKind.code ++ 0#6 ++ s.status.code

/-- `ExecutionState` (R321). -/
structure ExecutionState where
  status : Status
  exitCode : Word
  faultKind : FaultKind
  faultIp : Word
  ip : Word
  deriving DecidableEq, Repr

/-- The execution state the host reads (R321). -/
def State.executionState (s : State) : ExecutionState :=
  { status := s.status, exitCode := s.exitCode, faultKind := s.faultKind, faultIp := s.faultIp, ip := s.ip }

/-- `halted` of the source, `status != Running` (R27). -/
def State.halted (s : State) : Bool := s.status != .running

/-! ## Run driver -/

/-- `Break(_)` (R323, R325). -/
def Event.isBreak : Event → Bool
  | .inspect _ _ _ _ => false
  | .brk _ => true
  | .checkpoint _ => false

/-- The events a step from `s` to `t` emitted: those after the ones `s` held (R14, R323). -/
def newEvents (s t : State) : List Event := t.events.drop s.events.length

/-- How a bounded run ended. -/
inductive RunEnd where
  /-- `run_to_completion` returned, with `stopped_on_break` (R323). -/
  | returned (s : State) (stoppedOnBreak : Bool)
  /-- The bound on the steps was reached with the core still `Running` (R324, log 8). -/
  | stepsUsed (s : State)
  /-- The model stopped (log 3). -/
  | modelStopped
  deriving DecidableEq, Repr

/-- `run_to_completion(debug_mode)` (R323) for at most `n` steps (R324, log 8). -/
def runToCompletion (debugMode : Bool) : Nat → State → RunEnd
  | 0, s => if s.status = .running then .stepsUsed s else .returned s false
  | n + 1, s =>
    if s.status = .running then
      match step s with
      | .next t =>
        if debugMode && (newEvents s t).any Event.isBreak then .returned t true else runToCompletion debugMode n t
      | .fault _ => .modelStopped
      | .refused _ => .modelStopped
    else .returned s false

/-! ## Debug reads -/

/-- A host read of a region at `a`: raw bytes and the tag there, none where it leaves the region (R326). -/
def hostRead (m : Memory) (a : Nat) (n : Width) : Option (Word × Tag) :=
  match rawRead m a n with
  | .ok v => some (v, m.tagAt a)
  | .error _ => none

/-- `read_memory(addr, type)` (R326). -/
def readMemory (s : State) (addr typeCode : Word) : Option (Word × Tag) :=
  match typeOfCode typeCode with
  | .ok ty => hostRead s.mem addr.toNat ty.width
  | .error _ => none

/-- `read_stack(offset, type)` (R326). -/
def readStack (s : State) (offset typeCode : Word) : Option (Word × Tag) :=
  match typeOfCode typeCode, inspectedAddr s.stk offset with
  | .ok ty, .ok a => hostRead s.stk.mem a ty.width
  | _, _ => none

end Sys2Proof.Machine
end

