-- ==== Sys2Proof/Machine/Launch.lean ====
section
/-! DEFINITION. Launch and reset (R340 to R345): the loader's writes, the bootstrap read, and the reset of every register. -/

namespace Sys2Proof.Machine

/-- What launch is given beside the image (R6, R320): the capacities, and `INIT_TAGS` as the entries that are not
`Untagged`. -/
structure LaunchParams where
  memCap : Nat
  stackCap : Nat
  initTags : List (Nat × Tag)
  deriving DecidableEq, Repr

/-- The parameters are those of R6: both capacities in range, and a tag for addresses of `M` only, in canonical form. -/
abbrev LaunchParams.ok (p : LaunchParams) : Prop :=
  Config.capOk p.memCap ∧ Config.capOk p.stackCap ∧ Sparse.canonical Tag.untagged p.memCap p.initTags

/-- Why a launch is refused, and no core starts. -/
inductive LaunchError where
  /-- The image is longer than `MEM_CAP` (R341). -/
  | imageTooLong
  /-- The parameters are not those of R6 (log 4). -/
  | badParams
  deriving DecidableEq, Repr

/-- The loader's byte copy from address `a` on, each byte by `RawWrite` (R341). -/
def loadImage : Nat → List Byte → Memory → Res Memory
  | _, [], m => .ok m
  | a, b :: rest, m => do
    let m ← rawWrite m a .one (b.setWidth 32)
    loadImage (a + 1) rest m

/-- Reset with main memory as the loader left it (R342, R343): `ip` from the bootstrap pointer, every other register at
its value of R38. -/
def resetWith (mem : Memory) (stackCap : Nat) : State where
  mem := mem
  stk := { mem := Memory.blank stackCap, top := Config.emptyTop, count := 0 }
  calls := { entries := [], depth := 0 }
  lp := { counter := 0, bodyAddr := 0, endAddr := 0, active := false }
  ip := mem.valueAt 0 .four
  status := .running
  exitCode := 0
  faultKind := .none
  faultIp := 0
  events := []

/-- `launch(image, init_tags)` (R320, R340, R341): the image over zeroed memory, tags `INIT_TAGS`, then reset. -/
def launch (p : LaunchParams) (image : List Byte) : Except LaunchError State :=
  if p.ok then
    match loadImage 0 image { cap := p.memCap, bytes := [], tags := p.initTags } with
    | .ok m => .ok (resetWith m p.stackCap)
    | .error _ => .error .imageTooLong
  else .error .badParams

/-- The parameters `State.reset` stands for: the capacities of log 1 and the default `INIT_TAGS` (R6). -/
def LaunchParams.default : LaunchParams :=
  { memCap := Config.memCapReset, stackCap := Config.stackCapReset, initTags := [] }

end Sys2Proof.Machine
end

