-- ==== Sys2Proof/Safety.lean ====
section
/-! DEFINITION. What claims are stated in: the operand stack seen as a list of typed values (R77), the invariant of the
whole state, the states that launch reaches, and where an instruction stores. -/

namespace Sys2Proof.Machine

/-! ## The operand stack as a list of values -/

/-- The end of a stack of values, listed from the top down: the first free address (R77). -/
def extent : List Value → Nat
  | [] => 0
  | v :: below => extent below + v.1.bytes

/-- The region holds value `v` at `a`: its head tag, its tail tags and its bytes (R54). -/
def Memory.holds (m : Memory) (a : Nat) (v : Value) : Bool :=
  m.tagAt a == v.1.head && m.tailsOk a v.1 && m.valueAt a v.1.width == v.2

/-- The region holds the values, listed from the top down, contiguously from address 0 upward (R77). -/
def Memory.holdsAll (m : Memory) : List Value → Bool
  | [] => true
  | v :: below => m.holds (extent below) v && m.holdsAll below

/-- `stk_top` for a stack of values, listed from the top down (R77). -/
def topOf : List Value → Word
  | [] => Config.emptyTop
  | _ :: below => BitVec.ofNat 32 (extent below)

/-- The live values of the operand stack, listed from the top down, are `vals` (R77). -/
abbrev OperandStack.Holds (k : OperandStack) (vals : List Value) : Prop :=
  Config.capOk k.mem.cap ∧ extent vals ≤ k.mem.cap ∧ k.count.toNat = vals.length ∧ k.top = topOf vals ∧
    k.mem.holdsAll vals = true

/-- The stack invariant of R77: the live values are some list of typed values. -/
def OperandStack.Inv (k : OperandStack) : Prop := ∃ vals, k.Holds vals

/-- The type is one the `WORD` request accepts (R15). -/
abbrev isWord (ty : ValTy) : Prop := ty = .u32 ∨ ty = .i32

/-- The stack `k` with a value put on top of the values `below`, whatever lay there before: the bytes and tags of the
value at the end of `below`, and the cursor at it (R72). -/
def OperandStack.putOn (k : OperandStack) (below : List Value) (v : Value) : OperandStack :=
  { mem := k.mem.store (extent below) v.1 v.2, top := BitVec.ofNat 32 (extent below),
    count := BitVec.ofNat 32 (below.length + 1) }

/-- The stack `k` with only the values `vals` left live: the region as it is, the cursor moved (R73). -/
def OperandStack.cutTo (k : OperandStack) (vals : List Value) : OperandStack :=
  { k with top := topOf vals, count := BitVec.ofNat 32 vals.length }

/-! ## The invariant of the state -/

/-- The call stack's invariant (R31): the depth is in `[0, RECUR_MAX]`, and only entries 0 to 999 are written. -/
abbrev CallStack.Inv (c : CallStack) : Prop :=
  c.depth.toNat ≤ Config.recurMax ∧ Sparse.canonical (0#32) Config.recurMax c.entries

/-- The execution state's invariant (R23 to R25): a fault kind exactly when `Faulted`, then with `fault_ip = ip`, else
with `fault_ip` at its reset value, and exit code 0. -/
abbrev State.StatusInv (s : State) : Prop :=
  (s.status = .faulted ↔ s.faultKind ≠ .none) ∧ (s.status = .faulted → s.faultIp = s.ip) ∧
    (s.status ≠ .faulted → s.faultIp = 0) ∧ s.exitCode = 0

/-- An event is one R325 describes: a type code 0, 1 or 2, and a `Uint8` value zero-extended. -/
def Event.ok : Event → Bool
  | .inspect _ _ typeCode value => decide (typeCode.toNat < 3) && (typeCode != 2 || decide (value.toNat < 256))
  | .brk _ => true
  | .checkpoint _ => true

/-- What holds of every state of a launched core. -/
structure State.Inv (s : State) : Prop where
  /-- Main memory is in canonical form, its capacity that of R6. -/
  mem : s.mem.wf ∧ Config.capOk s.mem.cap
  /-- The operand-stack region is in canonical form. -/
  stkMem : s.stk.mem.wf
  /-- The stack invariant R77, with the capacity of R6. -/
  stk : s.stk.Inv
  /-- The call stack's invariant R31. -/
  calls : s.calls.Inv
  /-- The execution state's invariant. -/
  status : s.StatusInv
  /-- Every event is one R325 describes. -/
  events : ∀ e ∈ s.events, e.ok = true

/-! ## Runs -/

/-- The states a core passes through: those a launch leaves, of any parameters and image, and those steps lead to. -/
inductive Reachable : State → Prop where
  | launched {p : LaunchParams} {image : List Byte} {s : State} (h : launch p image = .ok s) : Reachable s
  | stepped {s t : State} (hs : Reachable s) (h : step s = .next t) : Reachable t

/-! ## Where an instruction stores -/

/-- An address and the number of bytes stored there. -/
abbrev Span := Nat × Nat

/-- The address lies outside the bytes stored, or nothing is stored. -/
def outside : Option Span → Nat → Prop
  | none, _ => True
  | some (a, n), x => x < a ∨ a + n ≤ x

/-- The span of a value of the type a read answers, at address `a`. -/
def spanOf (a : Nat) : Res Value → Option Span
  | .ok v => some (a, v.1.bytes)
  | .error _ => none

/-- The bytes of main memory an instruction stores to (R145 to R149): its destination, for as many bytes as the value
it stores has. Every other instruction stores nothing there (R36). -/
def mainStoreSpan (i : Instr) (s : State) : Option Span :=
  match i with
  | .poptr addr => spanOf addr.toNat (peekTop s.stk .any)
  | .movtr addr => spanOf addr.toNat (peekTop s.stk .any)
  | .stktr src dst => spanOf dst.toNat (stackValue s.stk src)
  | .cpyr src dst => spanOf dst.toNat (memValue s.mem src)
  | .setr dst _ => some (dst.toNat, 4)
  | .die | .nop | .testDie | .call _ | .ret | .jmp _ | .je _ | .jn _ | .jl _ | .jg _ | .jls _ | .jgs _
  | .loop _ _ _ | .lcont | .lbrk | .psh _ | .pop | .pop2 | .popn _ | .pshfr _ | .pshfrr _ | .pshfrs | .inc | .dec
  | .add | .sub | .mul | .div | .mod | .incs | .decs | .adds | .subs | .muls | .divs | .mods | .and | .not | .xor
  | .or | .lshft | .rshft | .lrot | .rrot | .ands | .nots | .xors | .ors | .lshfts | .rshfts | .lrots | .rrots
  | .nspctr _ _ | .nspctst _ _ | .brkp => none

/-- A span at an address that an operation answers. -/
def spanAt (a : Res Nat) (bytes : Nat) : Option Span :=
  match a with
  | .ok a => some (a, bytes)
  | .error _ => none

/-- A span at an address that an operation answers, of the type a read answers. -/
def spanAtOf (a : Res Nat) (v : Res Value) : Option Span :=
  match v with
  | .ok v => spanAt a v.1.bytes
  | .error _ => none

/-- The bytes of the operand-stack region an instruction stores to: a push at the first free address (R72, R140, R144,
R150), the left operand's place for a binary instruction (R160), the top for a unary one (R161) and for `pshfrs`
(R151). Every other instruction stores nothing there. -/
def stackStoreSpan (i : Instr) (s : State) : Option Span :=
  match i with
  | .psh _ => spanAt (stkNext s.stk) 4
  | .pshfr addr => spanAtOf (stkNext s.stk) (memValue s.mem addr)
  | .pshfrr addr => spanAtOf (stkNext s.stk) (memPointer s.mem addr >>= memValue s.mem)
  | .pshfrs => spanAtOf (.ok s.stk.top.toNat) (topWord s.stk >>= memPointer s.mem >>= memValue s.mem)
  | .add | .sub | .mul | .div | .mod | .adds | .subs | .muls | .divs | .mods | .and | .xor | .or | .lshft | .rshft
  | .lrot | .rrot | .ands | .xors | .ors | .lshfts | .rshfts | .lrots | .rrots => spanAt (stkPrev s.stk s.stk.top.toNat) 4
  | .inc | .dec | .incs | .decs | .not | .nots => some (s.stk.top.toNat, 4)
  | .die | .nop | .testDie | .call _ | .ret | .jmp _ | .je _ | .jn _ | .jl _ | .jg _ | .jls _ | .jgs _
  | .loop _ _ _ | .lcont | .lbrk | .pop | .pop2 | .popn _ | .poptr _ | .movtr _ | .stktr _ _ | .cpyr _ _
  | .setr _ _ | .nspctr _ _ | .nspctst _ _ | .brkp => none

end Sys2Proof.Machine
end

