-- ==== Sys2Proof/Certificates/Slice0/Obligations.lean ====
section
/-! DEFINITION. The statements for the provers, in the order of the spec's files. `Sys2Proof.Spec` holds the rule shapes
that several of them share. Every statement holds for every `MEM_CAP` and `STACK_CAP`, and for every state unless it says
otherwise. -/

open Sys2Proof Sys2Proof.Machine

namespace Sys2Proof.Spec

/-- `FetchDecode()` as R94 writes it, one raw read after another. -/
def fetchDecodeRule (s : State) : Res Instr := do
  let op ← rawRead s.mem s.ip.toNat .one
  match lookupOpcode (op.setWidth 8) with
  | none => raise .unknownOpcode
  | some row =>
    if s.ip.toNat + row.shape.format.length > s.mem.cap then raise .invalidAddress
    else
      match row.shape with
      | .f0 i => .ok i
      | .f1 mk => do
        let a ← rawRead s.mem (s.ip.toNat + 1) .four
        .ok (mk a)
      | .f2 mk => do
        let a ← rawRead s.mem (s.ip.toNat + 1) .four
        let b ← rawRead s.mem (s.ip.toNat + 5) .four
        .ok (mk a b)
      | .f3 mk => do
        let a ← rawRead s.mem (s.ip.toNat + 1) .four
        let b ← rawRead s.mem (s.ip.toNat + 5) .four
        let c ← rawRead s.mem (s.ip.toNat + 9) .four
        .ok (mk a b c)

/-- The unsigned number whose little-endian bytes are `bs`: bit `8k + j` is bit `j` of byte `k` (R93). -/
def numberOf : List Byte → Nat
  | [] => 0
  | b :: rest => b.toNat + 256 * numberOf rest

/-- R160 for one instruction of format F0: `BinOp(f, rty, zcheck)`, every way it ends. `vr` is the right operand, on
top, and `vl` the left, below it. -/
def BinaryRule (i : Instr) (op : Byte) (f : Word → Word → Word) (rty : ValTy) (zcheck : Bool) : Prop :=
  encode i = [op] ∧
  ∀ s : State,
    (s.stk.count.toNat < 2 → exec i s = .next (s.takeFault .stackUnderflow)) ∧
    ∀ (vr vl : Value) (below : List Value), s.stk.Holds (vr :: vl :: below) →
      (¬ isWord vr.1 ∨ ¬ isWord vl.1 → exec i s = .next (s.takeFault .typeMismatch)) ∧
      (isWord vr.1 → isWord vl.1 → zcheck = true → vr.2 = 0 → exec i s = .next (s.takeFault .divisionByZero)) ∧
      (isWord vr.1 → isWord vl.1 → (zcheck = false ∨ vr.2 ≠ 0) →
        exec i s = .next { s with ip := s.ip + 1, stk := s.stk.putOn below (rty, f vl.2 vr.2) } ∧
        (s.stk.putOn below (rty, f vl.2 vr.2)).Holds ((rty, f vl.2 vr.2) :: below))

/-- R161 for one instruction of format F0: `UnOp(f, rty)`, every way it ends. -/
def UnaryRule (i : Instr) (op : Byte) (f : Word → Word) (rty : ValTy) : Prop :=
  encode i = [op] ∧
  ∀ s : State,
    (s.stk.count = 0 → exec i s = .next (s.takeFault .stackUnderflow)) ∧
    ∀ (v : Value) (below : List Value), s.stk.Holds (v :: below) →
      (¬ isWord v.1 → exec i s = .next (s.takeFault .typeMismatch)) ∧
      (isWord v.1 →
        exec i s = .next { s with ip := s.ip + 1, stk := s.stk.putOn below (rty, f v.2) } ∧
        (s.stk.putOn below (rty, f v.2)).Holds ((rty, f v.2) :: below))

/-- R121 and R122: a jump of format F1 on a condition on the 4 raw bytes at the top value `t` and at the second `u`,
every way it ends. Nothing is popped. -/
def RawJumpRule (mk : Word → Instr) (op : Byte) (taken : Word → Word → Prop) : Prop :=
  ∀ addr : Word, encode (mk addr) = op :: leBytes addr ∧
  ∀ s : State,
    (s.stk.count.toNat < 2 → exec (mk addr) s = .next (s.takeFault .stackUnderflow)) ∧
    ∀ (t u : Value) (below : List Value), s.stk.Holds (t :: u :: below) →
      (extent (u :: below) + 4 > s.stk.mem.cap → exec (mk addr) s = .next (s.takeFault .invalidAddress)) ∧
      (extent (u :: below) + 4 ≤ s.stk.mem.cap →
        (taken (s.stk.mem.valueAt (extent (u :: below)) .four) (s.stk.mem.valueAt (extent below) .four) →
          exec (mk addr) s = .next { s with ip := addr }) ∧
        (¬ taken (s.stk.mem.valueAt (extent (u :: below)) .four) (s.stk.mem.valueAt (extent below) .four) →
          exec (mk addr) s = .next { s with ip := s.ip + 5 }))

/-- R123 to R126: a jump of format F1 on a condition on the top value `t` and the second `u` as 32-bit values, every way
it ends. Nothing is popped. -/
def WordJumpRule (mk : Word → Instr) (op : Byte) (taken : Word → Word → Prop) : Prop :=
  ∀ addr : Word, encode (mk addr) = op :: leBytes addr ∧
  ∀ s : State,
    (s.stk.count.toNat < 2 → exec (mk addr) s = .next (s.takeFault .stackUnderflow)) ∧
    ∀ (t u : Value) (below : List Value), s.stk.Holds (t :: u :: below) →
      (¬ isWord t.1 ∨ ¬ isWord u.1 → exec (mk addr) s = .next (s.takeFault .typeMismatch)) ∧
      (isWord t.1 → isWord u.1 →
        (taken t.2 u.2 → exec (mk addr) s = .next { s with ip := addr }) ∧
        (¬ taken t.2 u.2 → exec (mk addr) s = .next { s with ip := s.ip + 5 }))

/-- What a push of value `v` onto the values `vals` leads to, in an instruction `i` of length `len` (R72): the value on
top, or `StackOverflow`. -/
def PushOutcome (i : Instr) (len : Word) (s : State) (vals : List Value) (v : Value) : Prop :=
  (extent vals + v.1.bytes > s.stk.mem.cap → exec i s = .next (s.takeFault .stackOverflow)) ∧
  (extent vals + v.1.bytes ≤ s.stk.mem.cap →
    exec i s = .next { s with ip := s.ip + len, stk := s.stk.putOn vals v } ∧
    (s.stk.putOn vals v).Holds (v :: vals))

/-- What a store of value `v` to main memory at `dst` leads to, in an instruction `i` of length `len` that leaves the
operand stack as `k` (R58): the typed write, or `InvalidAddress`. -/
def StoreOutcome (i : Instr) (len : Word) (s : State) (k : OperandStack) (dst : Word) (v : Value) : Prop :=
  (dst.toNat + v.1.bytes > s.mem.cap → exec i s = .next (s.takeFault .invalidAddress)) ∧
  (dst.toNat + v.1.bytes ≤ s.mem.cap →
    exec i s = .next { s with ip := s.ip + len, stk := k, mem := s.mem.store dst.toNat v.1 v.2 })

/-- The type code of a type (48_inspect_debug.md): 0, 1 and 2. -/
def codeOf : ValTy → Nat
  | .u32 => 0
  | .i32 => 1
  | .u8 => 2

/-- `n` executions of `lcont`, one after the other, each completing. -/
inductive Lconts : Nat → State → State → Prop where
  | none (s : State) : Lconts 0 s s
  | more {n : Nat} {s t u : State} (h : Lconts n s t) (hx : exec .lcont t = .next u) : Lconts (n + 1) s u

/-- `n` rounds of R323's loop that do not return: each a step from a running core that, in debug mode, emits no
`Break`. -/
inductive QuietSteps (debugMode : Bool) : Nat → State → State → Prop where
  | none (s : State) : QuietSteps debugMode 0 s s
  | more {n : Nat} {s t u : State} (hr : s.status = .running) (h : step s = .next t)
      (hq : debugMode = true → ∀ a, Event.brk a ∉ newEvents s t) (rest : QuietSteps debugMode n t u) :
      QuietSteps debugMode (n + 1) s u

/-- Where `ip` may stand after an instruction that completes (R13, R91, R110, R113, R114, R120 to R126, R130 to R132):
past its immediates for the instructions that fall through, and only there; at the target its operand or register
gives for those that transfer control, with both ways for `je` to `jgs`; and where it was for `die`. -/
def ipAfter (i : Instr) (s : State) : List Word :=
  match i with
  | .die => [s.ip]
  | .call a | .jmp a => [a]
  | .je a | .jn a | .jl a | .jg a | .jls a | .jgs a => [a, s.ip + 5]
  | .ret => [s.calls.entry (s.calls.depth - 1).toNat]
  | .loop _ body _ => [body]
  | .lcont => [if s.lp.counter.toNat > 1 then s.lp.bodyAddr else s.lp.endAddr]
  | .lbrk => [s.lp.endAddr]
  | .nop | .testDie | .pop | .pop2 | .pshfrs | .inc | .dec | .add | .sub | .mul | .div | .mod | .incs | .decs | .adds
  | .subs | .muls | .divs | .mods | .and | .not | .xor | .or | .lshft | .rshft | .lrot | .rrot | .ands | .nots | .xors
  | .ors | .lshfts | .rshfts | .lrots | .rrots | .brkp => [s.ip + 1]
  | .psh _ | .popn _ | .pshfr _ | .poptr _ | .movtr _ | .pshfrr _ => [s.ip + 5]
  | .stktr _ _ | .cpyr _ _ | .setr _ _ | .nspctr _ _ | .nspctst _ _ => [s.ip + 9]

end Sys2Proof.Spec

open Sys2Proof.Spec

/-! ## Encoding (30_encoding.md) -/

/-- R90 to R93: decoding the encoding of an instruction gives it back, with every immediate at every value, and leaves
the bytes that follow. -/
def Obligations.EncodedInstructionDecodesToItself : Prop :=
  ∀ (i : Instr) (rest : List Byte), decode (encode i ++ rest) = .ok (i, rest)

/-- R90 to R98: bytes decode only as the encoding of the instruction read from them: each word has one meaning. -/
def Obligations.DecodedBytesAreTheEncoding : Prop :=
  ∀ (bs : List Byte) (i : Instr) (rest : List Byte), decode bs = .ok (i, rest) → bs = encode i ++ rest

/-- R93: an instruction word with the opcode in bits 7:0, `A` in bits 39:8, `B` in bits 71:40 and `C` in bits 103:72
decodes to the instruction, for every instruction, at the length of its format (R91). -/
def Obligations.InstructionWordsDecode : Prop :=
  ∀ i : Instr, (encode i).length = i.format.length ∧
    decodeTableWord (8 * i.format.length) (numberOf (encode i)) = some i

/-- R95: words written out from the opcode map and the formats decode to the instructions they stand for. -/
def Obligations.SampleWordsDecode : Prop :=
  decode [0x00] = .ok (.die, []) ∧
  decode [0x03, 0x0A, 0x00, 0x00, 0x00] = .ok (.call 10, []) ∧
  decode [0x0B, 0x19, 0x00, 0x00, 0x00] = .ok (.jgs 25, []) ∧
  decode [0x0C, 0x03, 0, 0, 0, 0x16, 0, 0, 0, 0x18, 0, 0, 0] = .ok (.loop 3 22 24, []) ∧
  decode [0x0F, 0x04, 0x03, 0x02, 0x01] = .ok (.psh 0x01020304, []) ∧
  decode [0x16, 0x01, 0, 0, 0, 0x40, 0, 0, 0] = .ok (.stktr 1 64, []) ∧
  decode [0x1D] = .ok (.add, []) ∧ decode [0x27] = .ok (.divs, []) ∧ decode [0x30] = .ok (.rrot, []) ∧
  decode [0x32] = .ok (.nots, []) ∧ decode [0x3B] = .ok (.brkp, [])

/-- R96: fetching an opcode byte from `0x3C` to `0xFF` raises `UnknownOpcode`, whatever follows it and wherever memory
ends. -/
def Obligations.IllegalOpcodeRaisesUnknownOpcode : Prop :=
  ∀ s : State, s.status = .running → s.ip.toNat < s.mem.cap → 0x3C ≤ (s.mem.byteAt s.ip.toNat).toNat →
    step s = .next (s.takeFault .unknownOpcode)

/-- R94: the model's fetch and decode is the rule's sequence of raw reads and checks; a running core's step starts with
it, then performs the instruction, or reports the fault with `fault_ip = ip`. -/
def Obligations.FetchDecodeFollowsTheRule : Prop :=
  ∀ s : State, fetchDecode s = fetchDecodeRule s ∧
    (s.status = .running → ∀ i : Instr, fetchDecodeRule s = .ok i → step s = exec i s) ∧
    (s.status = .running → ∀ kind : FaultKind, fetchDecodeRule s = raise kind →
      step s = .next { s with status := .faulted, faultKind := kind, faultIp := s.ip })

/-! ## Steps and faults (60_exceptions.md) -/

/-- R322: one step is the decoded instruction's rule, or fault entry for a fault of fetch and decode, and nothing in a
terminal state. -/
def Obligations.StepRunsTheDecodedInstruction : Prop :=
  ∀ s : State,
    (s.status ≠ .running → step s = .next s) ∧
    (s.status = .running → ∀ (i : Instr) (rest : List Byte), decode (fetchBytes s) = .ok (i, rest) →
      step s = exec i s) ∧
    (s.status = .running → ∀ e : DecodeError, decode (fetchBytes s) = .error e →
      step s = .next (s.takeFault (match e with | .unknownOpcode => .unknownOpcode | .truncated => .invalidAddress)))

/-- R94 and R67: when the bytes of an instruction stand in main memory at `ip`, whatever their tags, the step performs
that instruction. -/
def Obligations.BytesAtIpRunTheInstruction : Prop :=
  ∀ (s : State) (i : Instr), s.status = .running → s.ip.toNat + i.length ≤ s.mem.cap →
    (∀ k, k < i.length → (encode i)[k]? = some (s.mem.byteAt (s.ip.toNat + k))) → step s = exec i s

/-- R310: a step that leaves a running core `Faulted` changes `status`, `fault_kind` and `fault_ip` and nothing else,
and records the address of the faulting instruction. -/
def Obligations.FaultsArePrecise : Prop :=
  ∀ s t : State, s.status = .running → step s = .next t → t.status = .faulted →
    t.faultKind ≠ .none ∧ t.faultIp = s.ip ∧
      t = { s with status := .faulted, faultKind := t.faultKind, faultIp := s.ip }

/-- R22 and R110: a step leaves a running core `Halted` exactly when it performed a `die`. -/
def Obligations.OnlyDieHalts : Prop :=
  ∀ s t : State, s.status = .running → step s = .next t → (t.status = .halted ↔ fetchDecode s = .ok .die)

/-- R26: the layout of `STATUS`: state in bits 1:0, fault kind in bits 15:8, which is 0 unless the core is `Faulted`,
and 0 in every other bit; the reset value is 0. R300: the code of each fault kind. -/
def Obligations.StatusWordLayout : Prop :=
  State.reset.statusWord = 0 ∧ ∀ s : State,
    s.statusWord.extractLsb' 0 2 = (match s.status with | .running => 0#2 | .halted => 1#2 | .faulted => 2#2) ∧
    s.statusWord.extractLsb' 2 6 = 0#6 ∧
    s.statusWord.extractLsb' 8 8 = (match s.faultKind with
      | .none => 0#8 | .invalidAddress => 1#8 | .typeMismatch => 2#8 | .stackOverflow => 3#8 | .stackUnderflow => 4#8
      | .callStackOverflow => 5#8 | .callStackUnderflow => 6#8 | .divisionByZero => 7#8 | .unknownOpcode => 8#8
      | .nestedLoop => 9#8 | .noActiveLoop => 10#8) ∧
    s.statusWord.extractLsb' 16 16 = 0#16 ∧
    (s.StatusInv → s.status ≠ .faulted → s.statusWord.extractLsb' 8 8 = 0#8)

/-- R323, with the bound on the steps that log 8 adds (the model's choice): the run driver returns exactly where the rule
stops. Without a break it is the first terminal state that quiet rounds reach within the bound; with one, in debug mode,
the state right after the first step that emitted a `Break`. It uses the bound up exactly when that many quiet rounds leave
the core `Running`. -/
def Obligations.RunReturnsOnlyWhereTheRuleStops : Prop :=
  ∀ (debugMode : Bool) (n : Nat) (s t : State),
    (runToCompletion debugMode n s = .returned t false ↔
      ∃ k, k ≤ n ∧ QuietSteps debugMode k s t ∧ t.status ≠ .running) ∧
    (runToCompletion debugMode n s = .returned t true ↔
      debugMode = true ∧ ∃ k u, k < n ∧ QuietSteps debugMode k s u ∧ u.status = .running ∧ step u = .next t ∧
        ∃ a, Event.brk a ∈ newEvents u t) ∧
    (runToCompletion debugMode n s = .stepsUsed t ↔ QuietSteps debugMode n s t ∧ t.status = .running)

/-- R326: the host's reads of memory and stack are raw, with the tag, and answer an error for a bad type code, an empty
stack, an offset below the stack, or bytes out of bounds. -/
def Obligations.HostReadsAreRaw : Prop :=
  ∀ (s : State) (ty : ValTy) (code : Word), code.toNat = codeOf ty →
    ∀ x : Word,
      (x.toNat + ty.bytes ≤ s.mem.cap →
        readMemory s x code = some (s.mem.valueAt x.toNat ty.width, s.mem.tagAt x.toNat)) ∧
      (x.toNat + ty.bytes > s.mem.cap → readMemory s x code = none) ∧
      (s.stk.count ≠ 0 → x.toNat ≤ s.stk.top.toNat → s.stk.top.toNat - x.toNat + ty.bytes ≤ s.stk.mem.cap →
        readStack s x code =
          some (s.stk.mem.valueAt (s.stk.top.toNat - x.toNat) ty.width,
            s.stk.mem.tagAt (s.stk.top.toNat - x.toNat))) ∧
      (s.stk.count = 0 ∨ x.toNat > s.stk.top.toNat ∨ s.stk.top.toNat - x.toNat + ty.bytes > s.stk.mem.cap →
        readStack s x code = none) ∧
      (∀ bad : Word, 2 < bad.toNat → readMemory s x bad = none ∧ readStack s x bad = none)

/-! ## Reset and launch (70_reset_and_hazards.md) -/

/-- R342 and R343 on the reset state, with its capacities: those are the model's choice (log 1). -/
def Obligations.ResetStateValues : Prop :=
  let s := State.reset
  s.ip = s.mem.valueAt 0 .four ∧ s.status = .running ∧ s.exitCode = 0 ∧ s.faultKind = .none ∧ s.faultIp = 0 ∧
  s.lp = { counter := 0, bodyAddr := 0, endAddr := 0, active := false } ∧
  s.calls.depth = 0 ∧ (∀ j, s.calls.entry j = 0) ∧ s.stk.top = 0xFFFFFFFF ∧ s.stk.count = 0 ∧
  (∀ a, s.stk.mem.byteAt a = 0 ∧ s.stk.mem.tagAt a = .untagged) ∧
  (∀ a, s.mem.byteAt a = 0 ∧ s.mem.tagAt a = .untagged) ∧ s.events = [] ∧
  s.mem.cap = 2147483647 ∧ s.stk.mem.cap = 100000

/-- R341 to R343: the state a launch leaves: the image from address 0 and zeros above it, the tags of `INIT_TAGS`, `ip`
from the bootstrap pointer, and every other register at its reset value. -/
def Obligations.LaunchLoadsTheImageAndResets : Prop :=
  ∀ (p : LaunchParams) (image : List Byte) (s : State), launch p image = .ok s →
    (∀ k, s.mem.byteAt k = (image[k]?).getD 0) ∧
    (∀ k, s.mem.tagAt k = Sparse.get Tag.untagged p.initTags k) ∧
    s.mem.cap = p.memCap ∧ s.stk.mem.cap = p.stackCap ∧
    s.ip = s.mem.byteAt 3 ++ s.mem.byteAt 2 ++ s.mem.byteAt 1 ++ s.mem.byteAt 0 ∧ s.status = .running ∧
    s.exitCode = 0 ∧ s.faultKind = .none ∧ s.faultIp = 0 ∧
    s.lp = { counter := 0, bodyAddr := 0, endAddr := 0, active := false } ∧
    s.calls.depth = 0 ∧ (∀ j, s.calls.entry j = 0) ∧ s.stk.top = 0xFFFFFFFF ∧ s.stk.count = 0 ∧
    (∀ a, s.stk.mem.byteAt a = 0 ∧ s.stk.mem.tagAt a = .untagged) ∧ s.events = []

/-- R341: with parameters of R6, a launch starts a core exactly when the image is no longer than `MEM_CAP`. -/
def Obligations.LaunchStartsExactlyWhenTheImageFits : Prop :=
  ∀ (p : LaunchParams) (image : List Byte), p.ok →
    (image.length ≤ p.memCap → ∃ s, launch p image = .ok s) ∧
    (image.length > p.memCap → launch p image = .error .imageTooLong)

/-! ## The invariant of the state -/

/-- The invariant holds right after reset, and right after every launch. Its canonical form of memory and of the
call stack's entries is the model's own choice of representation (log 9), and the capacities of the reset state are the
model's (log 1). -/
def Obligations.LaunchEstablishesTheInvariant : Prop :=
  State.reset.Inv ∧ ∀ (p : LaunchParams) (image : List Byte) (s : State), launch p image = .ok s → s.Inv

/-- R31, R77, R23 to R25, R325, and the canonical form of memory, which is the model's own choice of representation
(log 9): every step keeps the invariant. -/
def Obligations.StepKeepsTheInvariant : Prop :=
  ∀ s t : State, s.Inv → step s = .next t → t.Inv

/-- R310, R322: from every state that meets the invariant the step answers a next state: no instruction stops the
model. The canonical form in the premise is the model's own choice of representation (log 9). -/
def Obligations.InvariantStatesAlwaysStep : Prop :=
  ∀ s : State, s.Inv → ∃ t, step s = .next t

/-- R341 to R343, R322, R310: for every launch, every image and every number of steps, the core meets the invariant (R77,
R31, R23 to R25, R325) and has a next state. The invariant's canonical form of memory and of the call stack's entries is
the model's own choice of representation (log 9). -/
def Obligations.LaunchedCoreNeverStopsTheModel : Prop :=
  ∀ s : State, Reachable s → s.Inv ∧ ∃ t, step s = .next t

/-! ## Tagged memory (20_memory.md) -/

/-- R55: a raw read answers the little-endian number of its bytes, whatever their tags, or raises `InvalidAddress`. -/
def Obligations.RawReadIsLittleEndian : Prop :=
  ∀ (m : Memory) (a : Nat) (n : Width),
    (a + n.bytes > m.cap → rawRead m a n = raise .invalidAddress) ∧
    (a + n.bytes ≤ m.cap → ∃ v, rawRead m a n = .ok v ∧
      v.toNat = numberOf ((List.range n.bytes).map fun k => m.byteAt (a + k)))

/-- R57: what a typed read answers, in every case. -/
def Obligations.TypedReadChecksHeadAndTails : Prop :=
  ∀ (m : Memory) (a : Nat) (req : Request),
    (a + 1 > m.cap → tagRead m a req = raise .invalidAddress) ∧
    (a + 1 ≤ m.cap → (∀ ty : ValTy, m.tagAt a ≠ ty.head) → tagRead m a req = raise .typeMismatch) ∧
    ∀ ty : ValTy, a + 1 ≤ m.cap → m.tagAt a = ty.head →
      (a + ty.bytes > m.cap → tagRead m a req = raise .invalidAddress) ∧
      (a + ty.bytes ≤ m.cap → (∃ k, 1 ≤ k ∧ k < ty.bytes ∧ m.tagAt (a + k) ≠ ty.tail) →
        tagRead m a req = raise .typeMismatch) ∧
      (a + ty.bytes ≤ m.cap → (∀ k, 1 ≤ k → k < ty.bytes → m.tagAt (a + k) = ty.tail) →
        ((req = .any ∨ req = .exactly ty ∨ (req = .word ∧ isWord ty)) → tagRead m a req = .ok (ty, m.valueAt a ty.width)) ∧
        (¬ (req = .any ∨ req = .exactly ty ∨ (req = .word ∧ isWord ty)) → tagRead m a req = raise .typeMismatch))

/-- R58: what a typed write leaves at every address: the bytes and tags of the value inside its span, the old byte and
tag outside it. The last clause, that the write keeps the canonical form, is no part of R58: it is the model's own choice
of representation (log 9). -/
def Obligations.TypedWriteWritesExactlyItsSpan : Prop :=
  ∀ (m : Memory) (a : Nat) (ty : ValTy) (v : Word),
    (a + ty.bytes > m.cap → tagWrite m a ty v = raise .invalidAddress) ∧
    (a + ty.bytes ≤ m.cap → ∃ m', tagWrite m a ty v = .ok m' ∧ m' = m.store a ty v ∧ m'.cap = m.cap ∧
      (∀ k, k < ty.bytes → m'.byteAt (a + k) = v.extractLsb' (8 * k) 8) ∧ m'.tagAt a = ty.head ∧
      (∀ k, 1 ≤ k → k < ty.bytes → m'.tagAt (a + k) = ty.tail) ∧
      (∀ x, x < a ∨ a + ty.bytes ≤ x → m'.byteAt x = m.byteAt x ∧ m'.tagAt x = m.tagAt x) ∧ (m.wf → m'.wf))

/-- R57, R58 and property P1: a typed write followed by a typed read returns the value, another type's read and a read
of any interior byte raise `TypeMismatch`. -/
def Obligations.TypedWriteThenReadReturnsTheValue : Prop :=
  ∀ (m m' : Memory) (a : Nat) (ty : ValTy) (v : Word), (ty = .u8 → v.toNat < 256) → tagWrite m a ty v = .ok m' →
    tagRead m' a (.exactly ty) = .ok (ty, v) ∧ tagRead m' a .any = .ok (ty, v) ∧
    (∀ other : ValTy, other ≠ ty → tagRead m' a (.exactly other) = raise .typeMismatch) ∧
    (∀ x req, a < x → x < a + ty.bytes → tagRead m' x req = raise .typeMismatch)

/-- R59: a write that overlaps a stored value breaks it: a byte written over a tail makes the old value unreadable, and
reads back itself. -/
def Obligations.OverlappingWriteBreaksTheOldValue : Prop :=
  ∀ (m m1 m2 : Memory) (a k : Nat) (ty : ValTy) (v b : Word), isWord ty → 1 ≤ k → k < 4 → b.toNat < 256 →
    tagWrite m a ty v = .ok m1 → tagWrite m1 (a + k) .u8 b = .ok m2 →
    (∀ req, tagRead m2 a req = raise .typeMismatch) ∧ tagRead m2 (a + k) .any = .ok (.u8, b) ∧
    (∀ j, 1 ≤ j → j < 4 → j ≠ k → m2.tagAt (a + j) = ty.tail) ∧ m2.tagAt a = ty.head

/-- R72 and R73: a value pushed on a stack that has room is on top of the old values, and the next pop answers it and
leaves the old values and the old cursor; without room the push raises `StackOverflow`. -/
def Obligations.PushThenPopRestoresTheStack : Prop :=
  ∀ (k : OperandStack) (vals : List Value) (ty : ValTy) (v : Word), k.Holds vals → (ty = .u8 → v.toNat < 256) →
    (extent vals + ty.bytes > k.mem.cap → push k ty v = raise .stackOverflow) ∧
    (extent vals + ty.bytes ≤ k.mem.cap → ∃ k' k'', push k ty v = .ok k' ∧ k'.Holds ((ty, v) :: vals) ∧
      k'.top.toNat = extent vals ∧ pop k' = .ok ((ty, v), k'') ∧ k''.Holds vals ∧ k''.top = k.top ∧
      k''.count = k.count)

/-! ## Control and call (40_control_call.md) -/

/-- R110, R111, R112, R242: `die` halts with exit code 0 and keeps `ip`, `nop` only advances, `test_die` emits a checkpoint
and advances, and `brkp` emits a `Break` and advances. -/
def Obligations.DieNopTestDieAndBrkp : Prop :=
  encode .die = [0x00] ∧ encode .nop = [0x01] ∧ encode .testDie = [0x02] ∧ encode .brkp = [0x3B] ∧
  ∀ s : State,
    exec .die s = .next { s with status := .halted, exitCode := 0 } ∧
    exec .nop s = .next { s with ip := s.ip + 1 } ∧
    exec .testDie s = .next { s with ip := s.ip + 1, events := s.events ++ [.checkpoint s.ip] } ∧
    exec .brkp s = .next { s with ip := s.ip + 1, events := s.events ++ [.brk s.ip] }

/-- R113: `call` stores the return address `ip + 5` at `cs[cs_depth]`, increments the depth and jumps, or raises
`CallStackOverflow` at depth 1000. No other entry changes. -/
def Obligations.CallStoresTheReturnAddress : Prop :=
  ∀ addr : Word, encode (.call addr) = 0x03 :: leBytes addr ∧
  ∀ s : State,
    (s.calls.depth = 1000 → exec (.call addr) s = .next (s.takeFault .callStackOverflow)) ∧
    (s.calls.depth ≠ 1000 → ∃ c : CallStack, exec (.call addr) s = .next { s with ip := addr, calls := c } ∧
      c.depth = s.calls.depth + 1 ∧
      ∀ j, c.entry j = if j = s.calls.depth.toNat then s.ip + 5 else s.calls.entry j)

/-- R114: `ret` decrements the depth and jumps to the stored address, which keeps its place, or raises
`CallStackUnderflow` at depth 0. -/
def Obligations.RetJumpsToTheStoredAddress : Prop :=
  encode .ret = [0x04] ∧
  ∀ s : State,
    (s.calls.depth = 0 → exec .ret s = .next (s.takeFault .callStackUnderflow)) ∧
    (s.calls.depth ≠ 0 → exec .ret s =
      .next { s with ip := s.calls.entry (s.calls.depth - 1).toNat,
                     calls := { s.calls with depth := s.calls.depth - 1 } })

/-- R113 and R114: a `ret` after a `call`, wherever it stands and whatever ran between on the operand stack, memory and
loop registers, returns to the instruction after the call and leaves the caller's depth and entries. -/
def Obligations.RetAfterCallReturnsToTheCaller : Prop :=
  ∀ (addr : Word) (s t u : State), s.calls.depth.toNat < 1000 → exec (.call addr) s = .next t → u.calls = t.calls →
    ∃ w, exec .ret u = .next w ∧ w.ip = s.ip + 5 ∧ w.calls.depth = s.calls.depth ∧
      ∀ j, j < s.calls.depth.toNat → w.calls.entry j = s.calls.entry j

/-! ## Jumps (41_jumps.md) -/

/-- R120: `jmp` sets `ip` and nothing else, whatever the target. -/
def Obligations.JmpSetsIp : Prop :=
  ∀ addr : Word, encode (.jmp addr) = 0x05 :: leBytes addr ∧ ∀ s : State, exec (.jmp addr) s = .next { s with ip := addr }

/-- R121 and R122: `je` and `jn` compare the 4 raw bytes at top and second. -/
def Obligations.EqualityJumpsCompareRawBytes : Prop :=
  RawJumpRule .je 0x06 (fun t u => t = u) ∧ RawJumpRule .jn 0x07 (fun t u => t ≠ u)

/-- R123 to R126: `jl`, `jg` compare top against second as unsigned values, `jls`, `jgs` as signed ones. -/
def Obligations.OrderedJumpsCompareTopWithSecond : Prop :=
  WordJumpRule .jl 0x08 (fun t u => t.toNat < u.toNat) ∧ WordJumpRule .jg 0x09 (fun t u => t.toNat > u.toNat) ∧
  WordJumpRule .jls 0x0A (fun t u => t.toInt < u.toInt) ∧ WordJumpRule .jgs 0x0B (fun t u => t.toInt > u.toInt)

/-- R127: a taken jump out of memory completes, and the next step raises `InvalidAddress` with `fault_ip` equal to the
target. -/
def Obligations.JumpOutOfMemoryFaultsAtTheTarget : Prop :=
  ∀ (s : State) (addr : Word), s.status = .running → addr.toNat ≥ s.mem.cap →
    ∃ t, exec (.jmp addr) s = .next t ∧ t.status = .running ∧ t.ip = addr ∧
      step t = .next { t with status := .faulted, faultKind := .invalidAddress, faultIp := addr }

/-! ## Loop (42_loop.md) -/

/-- R130, R131, R132: `loop` enters a context or raises `NestedLoop`; `lcont` makes another pass while the counter is
above 1 and ends the context otherwise; `lbrk` ends it; both raise `NoActiveLoop` without one. -/
def Obligations.LoopInstructionsDriveTheContext : Prop :=
  (∀ count body stop : Word,
    encode (.loop count body stop) = 0x0C :: (leBytes count ++ leBytes body ++ leBytes stop) ∧
    ∀ s : State,
      (s.lp.active = true → exec (.loop count body stop) s = .next (s.takeFault .nestedLoop)) ∧
      (s.lp.active = false → exec (.loop count body stop) s =
        .next { s with ip := body, lp := { counter := count, bodyAddr := body, endAddr := stop, active := true } })) ∧
  encode .lcont = [0x0D] ∧ encode .lbrk = [0x0E] ∧
  ∀ s : State,
    (s.lp.active = false → exec .lcont s = .next (s.takeFault .noActiveLoop) ∧
      exec .lbrk s = .next (s.takeFault .noActiveLoop)) ∧
    (s.lp.active = true → s.lp.counter.toNat > 1 → exec .lcont s =
      .next { s with ip := s.lp.bodyAddr, lp := { s.lp with counter := s.lp.counter - 1 } }) ∧
    (s.lp.active = true → s.lp.counter.toNat ≤ 1 → exec .lcont s =
      .next { s with ip := s.lp.endAddr, lp := { s.lp with counter := 0, active := false } }) ∧
    (s.lp.active = true → exec .lbrk s =
      .next { s with ip := s.lp.endAddr, lp := { s.lp with active := false } })

/-- R131 and C4: in an active context with counter `n`, `n >= 1`, each of the first `n - 1` `lcont` goes back to the body
and the `n`-th leaves to the end, so the body runs `n` times. -/
def Obligations.LoopRunsItsBodyCountTimes : Prop :=
  ∀ (s : State) (n : Nat), s.lp.active = true → s.lp.counter.toNat = n + 1 →
    (∀ j, j < n → ∃ t, Lconts (j + 1) s t ∧ t.ip = s.lp.bodyAddr ∧ t.lp.active = true ∧
      t.lp.counter.toNat = n - j) ∧
    ∃ t, Lconts (n + 1) s t ∧ t.ip = s.lp.endAddr ∧ t.lp.active = false ∧ t.lp.counter = 0

/-! ## Stack shape and memory transfer (43_stack_memory.md) -/

/-- R140: `psh` pushes its immediate as a `Uint32`. -/
def Obligations.PshPushesAUint32 : Prop :=
  ∀ value : Word, encode (.psh value) = 0x0F :: leBytes value ∧
  ∀ (s : State) (vals : List Value), s.stk.Holds vals → PushOutcome (.psh value) 5 s vals (.u32, value)

/-- R141, R142, R143: `pop`, `pop2` and `popn` discard 1, 2 and `n` values, or raise `StackUnderflow` and discard none.
The bytes and tags of the region stay. -/
def Obligations.PopsDiscardValues : Prop :=
  encode .pop = [0x10] ∧ encode .pop2 = [0x11] ∧ (∀ n : Word, encode (.popn n) = 0x12 :: leBytes n) ∧
  ∀ (s : State) (vals : List Value), s.stk.Holds vals →
    (vals.length < 1 → exec .pop s = .next (s.takeFault .stackUnderflow)) ∧
    (1 ≤ vals.length → exec .pop s = .next { s with ip := s.ip + 1, stk := s.stk.cutTo (vals.drop 1) } ∧
      (s.stk.cutTo (vals.drop 1)).Holds (vals.drop 1)) ∧
    (vals.length < 2 → exec .pop2 s = .next (s.takeFault .stackUnderflow)) ∧
    (2 ≤ vals.length → exec .pop2 s = .next { s with ip := s.ip + 1, stk := s.stk.cutTo (vals.drop 2) } ∧
      (s.stk.cutTo (vals.drop 2)).Holds (vals.drop 2)) ∧
    ∀ n : Word,
      (vals.length < n.toNat → exec (.popn n) s = .next (s.takeFault .stackUnderflow)) ∧
      (n.toNat ≤ vals.length →
        exec (.popn n) s = .next { s with ip := s.ip + 5, stk := s.stk.cutTo (vals.drop n.toNat) } ∧
        (s.stk.cutTo (vals.drop n.toNat)).Holds (vals.drop n.toNat))

/-- R144: `pshfr` pushes the value at its address with the value's own type; a fault of the read comes before one of the
push. -/
def Obligations.PshfrPushesTheMemoryValue : Prop :=
  ∀ addr : Word, encode (.pshfr addr) = 0x13 :: leBytes addr ∧
  ∀ s : State,
    (∀ kind, tagRead s.mem addr.toNat .any = raise kind → exec (.pshfr addr) s = .next (s.takeFault kind)) ∧
    ∀ (vals : List Value) (v : Value), s.stk.Holds vals → tagRead s.mem addr.toNat .any = .ok v →
      PushOutcome (.pshfr addr) 5 s vals v

/-- R145 and R146: `poptr` pops the top value into memory and `movtr` copies it there, with its own type; an empty stack
raises `StackUnderflow`, a value that does not fit `InvalidAddress` with nothing popped. -/
def Obligations.PoptrAndMovtrStoreTheTopValue : Prop :=
  ∀ addr : Word, encode (.poptr addr) = 0x14 :: leBytes addr ∧ encode (.movtr addr) = 0x15 :: leBytes addr ∧
  ∀ s : State,
    (s.stk.count = 0 → exec (.poptr addr) s = .next (s.takeFault .stackUnderflow) ∧
      exec (.movtr addr) s = .next (s.takeFault .stackUnderflow)) ∧
    ∀ (v : Value) (below : List Value), s.stk.Holds (v :: below) →
      StoreOutcome (.poptr addr) 5 s (s.stk.cutTo below) addr v ∧ (s.stk.cutTo below).Holds below ∧
      StoreOutcome (.movtr addr) 5 s s.stk addr v

/-- R147: `stktr` stores the live stack value that starts at `src`; an address outside the live stack raises
`InvalidAddress`, and the read's own faults come next. -/
def Obligations.StktrStoresALiveStackValue : Prop :=
  ∀ src dst : Word, encode (.stktr src dst) = 0x16 :: (leBytes src ++ leBytes dst) ∧
  ∀ (s : State) (vals : List Value), s.stk.Holds vals →
    (src.toNat ≥ extent vals → exec (.stktr src dst) s = .next (s.takeFault .invalidAddress)) ∧
    (src.toNat < extent vals →
      (∀ kind, tagRead s.stk.mem src.toNat .any = raise kind → exec (.stktr src dst) s = .next (s.takeFault kind)) ∧
      ∀ v : Value, tagRead s.stk.mem src.toNat .any = .ok v → StoreOutcome (.stktr src dst) 9 s s.stk dst v) ∧
    ∀ (above below : List Value) (v : Value), vals = above ++ v :: below → src.toNat = extent below →
      StoreOutcome (.stktr src dst) 9 s s.stk dst v

/-- R148 and R149: `cpyr` stores the value at `src`, with its own type, at `dst`, and `setr` stores its immediate as a
`Uint32`; the faults of the read come before those of the write. -/
def Obligations.CpyrAndSetrStoreToMemory : Prop :=
  ∀ src dst value : Word, encode (.cpyr src dst) = 0x17 :: (leBytes src ++ leBytes dst) ∧
    encode (.setr dst value) = 0x18 :: (leBytes dst ++ leBytes value) ∧
  ∀ s : State,
    (∀ kind, tagRead s.mem src.toNat .any = raise kind → exec (.cpyr src dst) s = .next (s.takeFault kind)) ∧
    (∀ v : Value, tagRead s.mem src.toNat .any = .ok v → StoreOutcome (.cpyr src dst) 9 s s.stk dst v) ∧
    StoreOutcome (.setr dst value) 9 s s.stk dst (.u32, value)

/-- R150: `pshfrr` pushes the value that the pointer at its address points to; the pointer's faults come first, then the
value's, then the push's. -/
def Obligations.PshfrrPushesThroughAPointer : Prop :=
  ∀ addr : Word, encode (.pshfrr addr) = 0x19 :: leBytes addr ∧
  ∀ s : State,
    (∀ kind, tagRead s.mem addr.toNat .word = raise kind → exec (.pshfrr addr) s = .next (s.takeFault kind)) ∧
    ∀ p : Value, tagRead s.mem addr.toNat .word = .ok p →
      (∀ kind, tagRead s.mem p.2.toNat .any = raise kind → exec (.pshfrr addr) s = .next (s.takeFault kind)) ∧
      ∀ (vals : List Value) (v : Value), s.stk.Holds vals → tagRead s.mem p.2.toNat .any = .ok v →
        PushOutcome (.pshfrr addr) 5 s vals v

/-- R151: `pshfrs` replaces the address on top by the value two levels away; it never raises `StackOverflow`, and a fault
leaves the address in place. -/
def Obligations.PshfrsReplacesTheAddressOnTop : Prop :=
  encode .pshfrs = [0x1A] ∧
  ∀ s : State,
    (s.stk.count = 0 → exec .pshfrs s = .next (s.takeFault .stackUnderflow)) ∧
    ∀ (a : Value) (below : List Value), s.stk.Holds (a :: below) →
      (¬ isWord a.1 → exec .pshfrs s = .next (s.takeFault .typeMismatch)) ∧
      (isWord a.1 →
        (∀ kind, tagRead s.mem a.2.toNat .word = raise kind → exec .pshfrs s = .next (s.takeFault kind)) ∧
        ∀ p : Value, tagRead s.mem a.2.toNat .word = .ok p →
          (∀ kind, tagRead s.mem p.2.toNat .any = raise kind → exec .pshfrs s = .next (s.takeFault kind)) ∧
          ∀ v : Value, tagRead s.mem p.2.toNat .any = .ok v →
            exec .pshfrs s = .next { s with ip := s.ip + 1, stk := s.stk.putOn below v } ∧
            (s.stk.putOn below v).Holds (v :: below))

/-! ## Arithmetic and bitwise instructions (44 to 47) -/

/-- R161, R162, R163, R180, R181, R201, R221: the unary instructions replace the top value in place. -/
def Obligations.UnaryInstructionsReplaceTheTop : Prop :=
  UnaryRule .inc 0x1B (fun v => v + 1) .u32 ∧ UnaryRule .dec 0x1C (fun v => v - 1) .u32 ∧
  UnaryRule .incs 0x22 (fun v => v + 1) .i32 ∧ UnaryRule .decs 0x23 (fun v => v - 1) .i32 ∧
  UnaryRule .not 0x2A (fun v => ~~~v) .u32 ∧ UnaryRule .nots 0x32 (fun v => ~~~v) .i32

/-- R160, R164, R165, R166, R182, R183, R184: addition, subtraction and multiplication modulo `2^32`, tagged by the
family. -/
def Obligations.SumsDifferencesAndProductsWrap : Prop :=
  BinaryRule .add 0x1D (fun l r => l + r) .u32 false ∧ BinaryRule .sub 0x1E (fun l r => l - r) .u32 false ∧
  BinaryRule .mul 0x1F (fun l r => l * r) .u32 false ∧ BinaryRule .adds 0x24 (fun l r => l + r) .i32 false ∧
  BinaryRule .subs 0x25 (fun l r => l - r) .i32 false ∧ BinaryRule .muls 0x26 (fun l r => l * r) .i32 false

/-- R160, R167, R168: unsigned quotient and remainder, with `DivisionByZero` for a zero divisor and both operands left. -/
def Obligations.UnsignedDivisionInstructions : Prop :=
  BinaryRule .div 0x20 (fun l r => l / r) .u32 true ∧ BinaryRule .mod 0x21 (fun l r => l % r) .u32 true

/-- R160, R185, R186: signed quotient rounded toward zero and its remainder, `-2^31 / -1` wrapping, with
`DivisionByZero` for a zero divisor and both operands left. -/
def Obligations.SignedDivisionInstructions : Prop :=
  BinaryRule .divs 0x27 (fun l r => BitVec.ofInt 32 (l.toInt.tdiv r.toInt)) .i32 true ∧
  BinaryRule .mods 0x28 (fun l r => BitVec.ofInt 32 (l.toInt - r.toInt * l.toInt.tdiv r.toInt)) .i32 true

/-- R160, R200, R202, R203, R220, R222, R223: bitwise and, exclusive or and or, tagged by the family. -/
def Obligations.BitwiseInstructions : Prop :=
  BinaryRule .and 0x29 (fun l r => l &&& r) .u32 false ∧ BinaryRule .xor 0x2B (fun l r => l ^^^ r) .u32 false ∧
  BinaryRule .or 0x2C (fun l r => l ||| r) .u32 false ∧ BinaryRule .ands 0x31 (fun l r => l &&& r) .i32 false ∧
  BinaryRule .xors 0x33 (fun l r => l ^^^ r) .i32 false ∧ BinaryRule .ors 0x34 (fun l r => l ||| r) .i32 false

/-- R160, R204, R205, R224, R225: shifts by the unsigned count: 32 or more gives 0, or the sign fill for `rshfts`. -/
def Obligations.ShiftInstructions : Prop :=
  BinaryRule .lshft 0x2D (fun l r => l <<< r.toNat) .u32 false ∧
  BinaryRule .rshft 0x2E (fun l r => l >>> r.toNat) .u32 false ∧
  BinaryRule .lshfts 0x35 (fun l r => l <<< r.toNat) .i32 false ∧
  BinaryRule .rshfts 0x36 (fun l r => l.sshiftRight r.toNat) .i32 false

/-- R160, R206, R207, R226, R227: rotates by the count modulo 32. -/
def Obligations.RotateInstructions : Prop :=
  BinaryRule .lrot 0x2F (fun l r => l.rotateLeft (r.toNat % 32)) .u32 false ∧
  BinaryRule .rrot 0x30 (fun l r => l.rotateRight (r.toNat % 32)) .u32 false ∧
  BinaryRule .lrots 0x37 (fun l r => l.rotateLeft (r.toNat % 32)) .i32 false ∧
  BinaryRule .rrots 0x38 (fun l r => l.rotateRight (r.toNat % 32)) .i32 false

/-- R169: `l = r * q + m` and `0 <= m < r` for the quotient and remainder that `div` and `mod` compute. -/
def Obligations.UnsignedDivisionLaw : Prop :=
  ∀ l r : Word, r ≠ 0 →
    l.toNat = r.toNat * (divFn l r).toNat + (modFn l r).toNat ∧ (modFn l r).toNat < r.toNat

/-- R187 and R186: `l = r * q + m` in signed values for the quotient and remainder that `divs` and `mods` compute, with
`|m| < |r|` and `m` 0 or of the sign of `l`; at `l = -2^31, r = -1` the quotient is `-2^31`, the remainder 0, and the
identity holds modulo `2^32`, as it does for every operand. -/
def Obligations.SignedDivisionLaw : Prop :=
  ∀ l r : Word, r ≠ 0 →
    (¬ (l.toInt = -2147483648 ∧ r.toInt = -1) → l.toInt = r.toInt * (divsFn l r).toInt + (modsFn l r).toInt) ∧
    l = r * divsFn l r + modsFn l r ∧ (modsFn l r).toInt.natAbs < r.toInt.natAbs ∧
    ((modsFn l r).toInt = 0 ∨ (0 < (modsFn l r).toInt ∧ 0 < l.toInt) ∨ ((modsFn l r).toInt < 0 ∧ l.toInt < 0)) ∧
    (l.toInt = -2147483648 → r.toInt = -1 → (divsFn l r).toInt = -2147483648 ∧ modsFn l r = 0)

/-- R206 and R207: `rrot` by a count undoes `lrot` by it, a count counts modulo 32, and a count of 0 modulo 32 changes
nothing. -/
def Obligations.RotatesUndoEachOther : Prop :=
  ∀ l r : Word, rotateRightFn (rotateLeftFn l r) r = l ∧ rotateLeftFn (rotateRightFn l r) r = l ∧
    rotateLeftFn l (r + 32) = rotateLeftFn l r ∧ rotateRightFn l (r + 32) = rotateRightFn l r ∧
    (r.toNat % 32 = 0 → rotateLeftFn l r = l ∧ rotateRightFn l r = l)

/-! ## Inspection and debug (48_inspect_debug.md) -/

/-- R240: `nspctr` emits the raw value at a main-memory address as the type of its code. -/
def Obligations.NspctrEmitsTheMemoryValue : Prop :=
  ∀ code addr : Word, encode (.nspctr code addr) = 0x39 :: (leBytes code ++ leBytes addr) ∧
  ∀ s : State,
    (2 < code.toNat → exec (.nspctr code addr) s = .next (s.takeFault .typeMismatch)) ∧
    ∀ ty : ValTy, code.toNat = codeOf ty →
      (addr.toNat + ty.bytes > s.mem.cap → exec (.nspctr code addr) s = .next (s.takeFault .invalidAddress)) ∧
      (addr.toNat + ty.bytes ≤ s.mem.cap → exec (.nspctr code addr) s =
        .next { s with ip := s.ip + 9,
                       events := s.events ++ [.inspect .mem addr code (s.mem.valueAt addr.toNat ty.width)] })

/-- R241: `nspctst` emits the raw value `offset` bytes below the top value's first byte as the type of its code. -/
def Obligations.NspctstEmitsTheStackValue : Prop :=
  ∀ code offset : Word, encode (.nspctst code offset) = 0x3A :: (leBytes code ++ leBytes offset) ∧
  ∀ s : State,
    (2 < code.toNat → exec (.nspctst code offset) s = .next (s.takeFault .typeMismatch)) ∧
    ∀ ty : ValTy, code.toNat = codeOf ty →
      (s.stk.count = 0 → exec (.nspctst code offset) s = .next (s.takeFault .stackUnderflow)) ∧
      (s.stk.count ≠ 0 →
        (offset.toNat > s.stk.top.toNat → exec (.nspctst code offset) s = .next (s.takeFault .invalidAddress)) ∧
        (offset.toNat ≤ s.stk.top.toNat →
          (s.stk.top.toNat - offset.toNat + ty.bytes > s.stk.mem.cap →
            exec (.nspctst code offset) s = .next (s.takeFault .invalidAddress)) ∧
          (s.stk.top.toNat - offset.toNat + ty.bytes ≤ s.stk.mem.cap → exec (.nspctst code offset) s =
            .next { s with ip := s.ip + 9,
                           events := s.events ++ [.inspect .stack offset code
                             (s.stk.mem.valueAt (s.stk.top.toNat - offset.toNat) ty.width)] })))

/-! ## Frames: what an instruction leaves unchanged -/

/-- R36, R145 to R149: every byte and tag of main memory outside the bytes an instruction stores to reads as before, for
every instruction and every state. -/
def Obligations.MainMemoryFrame : Prop :=
  ∀ (i : Instr) (s t : State), exec i s = .next t → ∀ x, outside (mainStoreSpan i s) x →
    t.mem.byteAt x = s.mem.byteAt x ∧ t.mem.tagAt x = s.mem.tagAt x

/-- R36, R37, R72, R73, R140 to R144, R150, R151, R160, R161: every byte and tag of the operand-stack region outside
the bytes an instruction stores to reads as before, popped values included. -/
def Obligations.StackMemoryFrame : Prop :=
  ∀ (i : Instr) (s t : State), s.stk.Inv → exec i s = .next t → ∀ x, outside (stackStoreSpan i s) x →
    t.stk.mem.byteAt x = s.stk.mem.byteAt x ∧ t.stk.mem.tagAt x = s.stk.mem.tagAt x

/-- R22, R23, R29, R31, R325, R6: the loop registers change only by `loop`, `lcont` and `lbrk`; the call stack only by
`call` and `ret`; the event stream only grows, and only by `nspctr`, `nspctst`, `brkp` and `test_die`; the exit code only
by `die`; and the capacities never change. -/
def Obligations.RegisterFrame : Prop :=
  ∀ (i : Instr) (s t : State), exec i s = .next t →
    ((∀ c b e, i ≠ .loop c b e) → i ≠ .lcont → i ≠ .lbrk → t.lp = s.lp) ∧
    ((∀ a, i ≠ .call a) → i ≠ .ret → t.calls = s.calls) ∧
    ((∀ c a, i ≠ .nspctr c a) → (∀ c o, i ≠ .nspctst c o) → i ≠ .brkp → i ≠ .testDie → t.events = s.events) ∧
    s.events <+: t.events ∧ (i ≠ .die → t.exitCode = s.exitCode) ∧
    t.mem.cap = s.mem.cap ∧ t.stk.mem.cap = s.stk.mem.cap

/-- R13, R91 and R350: an instruction that completes leaves `ip` where `ipAfter` says: past its immediates if it falls
through, and for `die` (R110), `call` (R113), `ret` (R114), `jmp` and the conditional jumps (R120 to R126) and `loop`,
`lcont` and `lbrk` (R130 to R132) where their rules put it. A fault leaves it (R310). -/
def Obligations.IpFrame : Prop :=
  ∀ (i : Instr) (s t : State), exec i s = .next t →
    (∃ kind, kind ≠ .none ∧ t = s.takeFault kind ∧ t.ip = s.ip) ∨ t.ip ∈ ipAfter i s
end

