-- ==== Sys2Proof/Laws/State.lean ====
section
/-! SUPPORT. One lemma per field for each update of the state, so that no proof unfolds a record update. -/

namespace Sys2Proof.Machine

section
variable (s : State) (kind : FaultKind) (n : Nat) (w : Word) (e : Event)

@[simp] theorem State.takeFault_mem : (s.takeFault kind).mem = s.mem := rfl
@[simp] theorem State.takeFault_stk : (s.takeFault kind).stk = s.stk := rfl
@[simp] theorem State.takeFault_calls : (s.takeFault kind).calls = s.calls := rfl
@[simp] theorem State.takeFault_lp : (s.takeFault kind).lp = s.lp := rfl
@[simp] theorem State.takeFault_ip : (s.takeFault kind).ip = s.ip := rfl
@[simp] theorem State.takeFault_status : (s.takeFault kind).status = .faulted := rfl
@[simp] theorem State.takeFault_exitCode : (s.takeFault kind).exitCode = s.exitCode := rfl
@[simp] theorem State.takeFault_faultKind : (s.takeFault kind).faultKind = kind := rfl
@[simp] theorem State.takeFault_faultIp : (s.takeFault kind).faultIp = s.ip := rfl
@[simp] theorem State.takeFault_events : (s.takeFault kind).events = s.events := rfl

@[simp] theorem State.advance_mem : (s.advance n).mem = s.mem := rfl
@[simp] theorem State.advance_stk : (s.advance n).stk = s.stk := rfl
@[simp] theorem State.advance_calls : (s.advance n).calls = s.calls := rfl
@[simp] theorem State.advance_lp : (s.advance n).lp = s.lp := rfl
@[simp] theorem State.advance_ip : (s.advance n).ip = s.ip + BitVec.ofNat 32 n := rfl
@[simp] theorem State.advance_status : (s.advance n).status = s.status := rfl
@[simp] theorem State.advance_exitCode : (s.advance n).exitCode = s.exitCode := rfl
@[simp] theorem State.advance_faultKind : (s.advance n).faultKind = s.faultKind := rfl
@[simp] theorem State.advance_faultIp : (s.advance n).faultIp = s.faultIp := rfl
@[simp] theorem State.advance_events : (s.advance n).events = s.events := rfl

@[simp] theorem State.jump_mem : (s.jump w).mem = s.mem := rfl
@[simp] theorem State.jump_stk : (s.jump w).stk = s.stk := rfl
@[simp] theorem State.jump_calls : (s.jump w).calls = s.calls := rfl
@[simp] theorem State.jump_lp : (s.jump w).lp = s.lp := rfl
@[simp] theorem State.jump_ip : (s.jump w).ip = w := rfl
@[simp] theorem State.jump_status : (s.jump w).status = s.status := rfl
@[simp] theorem State.jump_exitCode : (s.jump w).exitCode = s.exitCode := rfl
@[simp] theorem State.jump_faultKind : (s.jump w).faultKind = s.faultKind := rfl
@[simp] theorem State.jump_faultIp : (s.jump w).faultIp = s.faultIp := rfl
@[simp] theorem State.jump_events : (s.jump w).events = s.events := rfl

@[simp] theorem State.emit_mem : (s.emit e).mem = s.mem := rfl
@[simp] theorem State.emit_stk : (s.emit e).stk = s.stk := rfl
@[simp] theorem State.emit_calls : (s.emit e).calls = s.calls := rfl
@[simp] theorem State.emit_lp : (s.emit e).lp = s.lp := rfl
@[simp] theorem State.emit_ip : (s.emit e).ip = s.ip := rfl
@[simp] theorem State.emit_status : (s.emit e).status = s.status := rfl
@[simp] theorem State.emit_exitCode : (s.emit e).exitCode = s.exitCode := rfl
@[simp] theorem State.emit_faultKind : (s.emit e).faultKind = s.faultKind := rfl
@[simp] theorem State.emit_faultIp : (s.emit e).faultIp = s.faultIp := rfl
@[simp] theorem State.emit_events : (s.emit e).events = s.events ++ [e] := rfl

@[simp] theorem State.jumpIf_true : s.jumpIf true w = s.jump w := rfl
@[simp] theorem State.jumpIf_false : s.jumpIf false w = s.advance 5 := rfl
end

section
variable (k : OperandStack) (below vals : List Value) (v : Value)

@[simp] theorem OperandStack.putOn_mem : (k.putOn below v).mem = k.mem.store (extent below) v.1 v.2 := rfl
@[simp] theorem OperandStack.putOn_top : (k.putOn below v).top = BitVec.ofNat 32 (extent below) := rfl
@[simp] theorem OperandStack.putOn_count : (k.putOn below v).count = BitVec.ofNat 32 (below.length + 1) := rfl
@[simp] theorem OperandStack.cutTo_mem : (k.cutTo vals).mem = k.mem := rfl
@[simp] theorem OperandStack.cutTo_top : (k.cutTo vals).top = topOf vals := rfl
@[simp] theorem OperandStack.cutTo_count : (k.cutTo vals).count = BitVec.ofNat 32 vals.length := rfl
@[simp] theorem OperandStack.cutTo_cutTo : (k.cutTo vals).cutTo below = k.cutTo below := rfl
@[simp] theorem OperandStack.cutTo_putOn : (k.cutTo vals).putOn below v = k.putOn below v := rfl
end

/-! ## The outcome of an instruction -/

section
variable (s t : State) (kind : FaultKind) (why : Fault)

@[simp] theorem State.perform_ok : s.perform (.ok t) = .next t := rfl
@[simp] theorem State.perform_raise : s.perform (raise kind) = .next (s.takeFault kind) := rfl
@[simp] theorem State.perform_stuck : s.perform (.error (.stuck why)) = .fault why := rfl
end

/-- What `perform` answers: the result's state, fault entry on the state before it, or the model's stop. -/
theorem State.perform_next {s t : State} {r : Res State} (h : s.perform r = .next t) :
    r = .ok t ∨ ∃ kind, r = raise kind ∧ t = s.takeFault kind := by
  rcases r with (kind | why) | u
  · exact .inr ⟨kind, rfl, by simpa [State.perform] using h.symm⟩
  · simp [State.perform] at h
  · exact .inl (by simpa [State.perform] using h)

/-! ## Sequencing -/

section
variable {α β : Type}

@[simp] theorem Res.bind_ok (a : α) (f : α → Res β) : (Except.ok a >>= f : Res β) = f a := rfl
@[simp] theorem Res.bind_raise (kind : FaultKind) (f : α → Res β) : ((raise kind : Res α) >>= f) = raise kind := rfl
@[simp] theorem Res.bind_error (e : Stop) (f : α → Res β) : ((Except.error e : Res α) >>= f) = Except.error e := rfl

/-- A sequence answers a value only through a value of its first part. -/
theorem Res.bind_eq_ok {x : Res α} {f : α → Res β} {b : β} : (x >>= f) = .ok b ↔ ∃ a, x = .ok a ∧ f a = .ok b := by
  cases x <;> simp

@[simp] theorem raise_ne_ok (kind : FaultKind) (a : α) : (raise kind : Res α) ≠ .ok a := by simp [raise]
@[simp] theorem ok_ne_raise (kind : FaultKind) (a : α) : (Except.ok a : Res α) ≠ raise kind := by simp [raise]
end

end Sys2Proof.Machine
end

