-- ==== Sys2Proof/Laws/Alu.lean ====
section
/-! SUPPORT. The functions of the arithmetic and bitwise instructions, computed on integers in the model (R9), as the
operations of `BitVec`. -/

namespace Sys2Proof.Machine

theorem s32_eq_toInt (v : Word) : s32 v = v.toInt := by
  simp only [s32, BitVec.toInt]
  split <;> split <;> omega

theorem u32_natCast (n : Nat) : u32 (n : Int) = BitVec.ofNat 32 n := by simp [u32]

theorem toInt_bounds (v : Word) : -2147483648 ≤ v.toInt ∧ v.toInt < 2147483648 := by
  rw [BitVec.toInt]
  have := v.isLt
  split <;> omega

/-- Narrowing keeps a number that fits (R9). -/
theorem toInt_u32 {x : Int} (h : -2147483648 ≤ x) (h' : x < 2147483648) : (u32 x).toInt = x := by
  rw [u32, BitVec.toInt_ofInt, Int.bmod_def]
  split <;> omega

/-! ## Sums, differences and products -/

section
variable (l r v : Word)

theorem incFn_eq : incFn v = v + 1 := by
  apply BitVec.eq_of_toNat_eq
  simp [incFn, u32]
  omega

theorem decFn_eq : decFn v = v - 1 := by
  apply BitVec.eq_of_toNat_eq
  simp [decFn, u32, BitVec.toNat_sub]
  omega

theorem addFn_eq : addFn l r = l + r := by
  apply BitVec.eq_of_toNat_eq
  simp [addFn, u32]
  omega

theorem subFn_eq : subFn l r = l - r := by
  apply BitVec.eq_of_toNat_eq
  simp [subFn, u32, BitVec.toNat_sub]
  omega

theorem mulFn_eq : mulFn l r = l * r := by
  apply BitVec.eq_of_toNat_eq
  rw [mulFn, ← Int.natCast_mul, u32_natCast]
  simp

theorem incsFn_eq : incsFn v = v + 1 := by
  rw [incsFn, s32_eq_toInt, u32]
  simp [BitVec.ofInt_add]

theorem decsFn_eq : decsFn v = v - 1 := by
  rw [decsFn, s32_eq_toInt, u32, Int.sub_eq_add_neg]
  simp [BitVec.ofInt_add, BitVec.sub_eq_add_neg]

theorem addsFn_eq : addsFn l r = l + r := by
  rw [addsFn, s32_eq_toInt, s32_eq_toInt, u32]
  simp [BitVec.ofInt_add]

theorem subsFn_eq : subsFn l r = l - r := by
  rw [subsFn, s32_eq_toInt, s32_eq_toInt, u32]
  simp [Int.sub_eq_add_neg, BitVec.ofInt_add, BitVec.ofInt_neg, BitVec.sub_eq_add_neg]

theorem mulsFn_eq : mulsFn l r = l * r := by
  rw [mulsFn, s32_eq_toInt, s32_eq_toInt, u32]
  simp [BitVec.ofInt_mul]

/-! ## Quotients and remainders -/

theorem divFn_eq : divFn l r = l / r := by
  apply BitVec.eq_of_toNat_eq
  rw [divFn, u32_natCast, BitVec.toNat_udiv, BitVec.toNat_ofNat]
  exact Nat.mod_eq_of_lt (lt_of_le_of_lt (Nat.div_le_self _ _) l.isLt)

theorem modFn_eq : modFn l r = l % r := by
  have h : (l.toNat : Int) - r.toNat * ((l.toNat / r.toNat : Nat) : Int) = ((l.toNat % r.toNat : Nat) : Int) := by
    have hdiv : ((r.toNat * (l.toNat / r.toNat) + l.toNat % r.toNat : Nat) : Int) = (l.toNat : Int) := by
      rw [Nat.div_add_mod]
    push_cast at hdiv ⊢
    omega
  apply BitVec.eq_of_toNat_eq
  rw [modFn, h, u32_natCast, BitVec.toNat_umod, BitVec.toNat_ofNat]
  exact Nat.mod_eq_of_lt (lt_of_le_of_lt (Nat.mod_le _ _) l.isLt)

theorem divsFn_eq : divsFn l r = BitVec.ofInt 32 (l.toInt.tdiv r.toInt) := by
  simp only [divsFn, s32_eq_toInt, u32]
  split
  · rename_i h
    rw [h.1, h.2]
    decide
  · rfl

theorem modsFn_eq : modsFn l r = BitVec.ofInt 32 (l.toInt - r.toInt * l.toInt.tdiv r.toInt) := by
  simp only [modsFn, s32_eq_toInt, u32]
  split
  · rename_i h
    rw [h.1, h.2]
    decide
  · rfl

/-! ## Shifts and rotates -/

theorem shiftLeftFn_eq : shiftLeftFn l r = l <<< r.toNat := by
  apply BitVec.eq_of_toNat_eq
  rw [shiftLeftFn]
  split
  · rename_i h
    rw [BitVec.shiftLeft_eq_zero h]
  · rw [u32_natCast, BitVec.toNat_shiftLeft, BitVec.toNat_ofNat, Nat.shiftLeft_eq]

theorem shiftRightFn_eq : shiftRightFn l r = l >>> r.toNat := by
  apply BitVec.eq_of_toNat_eq
  rw [shiftRightFn]
  split
  · rename_i h
    rw [BitVec.ushiftRight_eq_zero h]
  · rw [u32_natCast, BitVec.toNat_ushiftRight, BitVec.toNat_ofNat, Nat.shiftRight_eq_div_pow]
    exact Nat.mod_eq_of_lt (lt_of_le_of_lt (Nat.div_le_self _ _) l.isLt)

theorem shiftRightSignedFn_eq : shiftRightSignedFn l r = l.sshiftRight r.toNat := by
  rw [shiftRightSignedFn, s32_eq_toInt]
  split
  · rename_i h
    apply BitVec.eq_of_getLsbD_eq
    intro i hi
    have hneg : l.toInt < 0 ↔ l.msb = true := by
      rw [BitVec.msb_eq_toInt]
      simp
    rw [BitVec.getLsbD_sshiftRight]
    by_cases hmsb : l.msb = true
    · have hones : ∀ i, i < 32 → (0xFFFFFFFF#32).getLsbD i = true := by decide
      rw [if_pos (hneg.mpr hmsb)]
      simpa [show ¬ r.toNat + i < 32 by omega, hmsb, show ¬ 32 ≤ i by omega, hi] using hones i hi
    · rw [if_neg fun hc => hmsb (hneg.mp hc)]
      simp [show ¬ r.toNat + i < 32 by omega, hmsb]
  · rw [BitVec.sshiftRight, Int.shiftRight_eq_div_pow, u32, Int.fdiv_eq_ediv_of_nonneg _ (by positivity)]
    norm_cast

theorem rotateLeft_zero : l.rotateLeft 0 = l := by
  apply BitVec.eq_of_getLsbD_eq
  intro i hi
  rw [BitVec.getLsbD_rotateLeft]
  simp [hi]

theorem rotateRight_zero : l.rotateRight 0 = l := by
  apply BitVec.eq_of_getLsbD_eq
  intro i hi
  rw [BitVec.getLsbD_rotateRight]
  simp [hi]

theorem rotateLeftFn_eq : rotateLeftFn l r = l.rotateLeft (r.toNat % 32) := by
  rw [rotateLeftFn]
  split
  · rename_i h
    rw [h, rotateLeft_zero]
  · rw [rotatePair, BitVec.rotateLeft_def, Nat.mod_mod]
    congr 1
    · apply BitVec.eq_of_toNat_eq
      rw [u32_natCast, BitVec.toNat_shiftLeft, BitVec.toNat_ofNat, Nat.shiftLeft_eq]
    · apply BitVec.eq_of_toNat_eq
      rw [u32_natCast, BitVec.toNat_ushiftRight, BitVec.toNat_ofNat, Nat.shiftRight_eq_div_pow]
      exact Nat.mod_eq_of_lt (lt_of_le_of_lt (Nat.div_le_self _ _) l.isLt)

theorem rotateRightFn_eq : rotateRightFn l r = l.rotateRight (r.toNat % 32) := by
  rw [rotateRightFn]
  split
  · rename_i h
    rw [h, rotateRight_zero]
  · rw [BitVec.rotateRight_def, Nat.mod_mod]
    congr 1
    · apply BitVec.eq_of_toNat_eq
      rw [u32_natCast, BitVec.toNat_ushiftRight, BitVec.toNat_ofNat, Nat.shiftRight_eq_div_pow]
      exact Nat.mod_eq_of_lt (lt_of_le_of_lt (Nat.div_le_self _ _) l.isLt)
    · apply BitVec.eq_of_toNat_eq
      rw [u32_natCast, BitVec.toNat_shiftLeft, BitVec.toNat_ofNat, Nat.shiftLeft_eq]

end

end Sys2Proof.Machine
end

