-- ==== Sys2Proof/Laws/Sparse.lean ====
section
/-! SUPPORT. Laws of sparse cells: reading after a write, the canonical form, and equality of canonical lists. -/

namespace Sys2Proof.Machine.Sparse

variable {α : Type} {d : α}

theorem get_insert (a : Nat) (v : α) (cells : List (Nat × α)) (x : Nat) :
    get d (insert a v cells) x = if x = a then v else get d cells x := by
  induction cells with
  | nil => simp [insert, get]
  | cons cell rest ih =>
    obtain ⟨k, w⟩ := cell
    by_cases hlt : a < k
    · simp [insert, hlt, get]
    · by_cases heq : a = k
      · subst heq
        by_cases hx : x = a <;> simp [insert, get, hx]
      · by_cases hx : x = k
        · subst hx
          simp [insert, hlt, heq, get, Ne.symm heq]
        · simp [insert, hlt, heq, get, hx, ih]

theorem get_filter (a : Nat) (cells : List (Nat × α)) (x : Nat) :
    get d (cells.filter fun cell => cell.1 != a) x = if x = a then d else get d cells x := by
  induction cells with
  | nil => simp [get]
  | cons cell rest ih =>
    obtain ⟨k, w⟩ := cell
    by_cases hk : k = a
    · subst hk
      by_cases hx : x = k
      · simpa [hx] using ih
      · simpa [get, hx] using ih
    · by_cases hx : x = k
      · subst hx
        simp [hk, get]
      · simp [hk, get, hx, ih]

/-- Reading after a write: the written address holds the value, every other address what it held. -/
@[simp] theorem get_set [DecidableEq α] (a : Nat) (v : α) (cells : List (Nat × α)) (x : Nat) :
    get d (set d a v cells) x = if x = a then v else get d cells x := by
  by_cases hv : v = d
  · simp [set, hv, get_filter]
  · simp [set, hv, get_insert]

theorem mem_insert {a : Nat} {v : α} {cells : List (Nat × α)} {cell : Nat × α}
    (h : cell ∈ insert a v cells) : cell = (a, v) ∨ cell ∈ cells := by
  induction cells with
  | nil => simpa [insert] using h
  | cons head rest ih =>
    obtain ⟨k, w⟩ := head
    simp only [insert] at h
    split at h
    · simpa using h
    · split at h
      · rcases List.mem_cons.mp h with h | h
        · exact .inl h
        · exact .inr (List.mem_cons_of_mem _ h)
      · rcases List.mem_cons.mp h with h | h
        · exact .inr (by simp [h])
        · rcases ih h with h | h
          · exact .inl h
          · exact .inr (List.mem_cons_of_mem _ h)

theorem rising_insert (a : Nat) (v : α) (cells : List (Nat × α))
    (h : cells.Pairwise fun x y => x.1 < y.1) : (insert a v cells).Pairwise fun x y => x.1 < y.1 := by
  induction cells with
  | nil => simp [insert]
  | cons head rest ih =>
    obtain ⟨k, w⟩ := head
    obtain ⟨hhead, hrest⟩ := List.pairwise_cons.mp h
    simp only [insert]
    split
    · rename_i hlt
      refine List.pairwise_cons.mpr ⟨fun cell hcell => ?_, h⟩
      rcases List.mem_cons.mp hcell with rfl | hcell
      · exact hlt
      · exact lt_trans hlt (hhead cell hcell)
    · split
      · rename_i heq
        subst heq
        exact List.pairwise_cons.mpr ⟨hhead, hrest⟩
      · refine List.pairwise_cons.mpr ⟨fun cell hcell => ?_, ih hrest⟩
        rcases mem_insert hcell with rfl | hcell
        · show k < a
          omega
        · exact hhead cell hcell

/-- A write below the bound keeps the canonical form. -/
theorem canonical_set [DecidableEq α] {bound : Nat} {cells : List (Nat × α)} (h : canonical d bound cells) {a : Nat}
    (ha : a < bound) (v : α) : canonical d bound (set d a v cells) := by
  by_cases hv : v = d
  · rw [set, if_pos hv]
    exact ⟨h.1.filter _, fun cell hcell => h.2 cell (List.mem_filter.mp hcell).1⟩
  · rw [set, if_neg hv]
    refine ⟨rising_insert a v cells h.1, fun cell hcell => ?_⟩
    rcases mem_insert hcell with rfl | hcell
    · exact ⟨ha, hv⟩
    · exact h.2 cell hcell

theorem canonical_nil [DecidableEq α] (bound : Nat) : canonical d bound ([] : List (Nat × α)) := by
  simp [canonical]

theorem get_of_lt {cells : List (Nat × α)} {a : Nat} (h : ∀ cell ∈ cells, a < cell.1) : get d cells a = d := by
  induction cells with
  | nil => rfl
  | cons head rest ih =>
    have hk : a ≠ head.1 := Nat.ne_of_lt (h head (by simp))
    simp [get, hk, ih fun cell hcell => h cell (List.mem_cons_of_mem _ hcell)]

/-- Two canonical lists that read the same are the same list. -/
theorem canonical_ext [DecidableEq α] {bound bound' : Nat} {xs ys : List (Nat × α)} (hx : canonical d bound xs)
    (hy : canonical d bound' ys) (h : ∀ a, get d xs a = get d ys a) : xs = ys := by
  induction xs generalizing ys with
  | nil =>
    cases ys with
    | nil => rfl
    | cons y ys =>
      have := h y.1
      simp only [get, if_true] at this
      exact absurd this.symm (hy.2 y (by simp)).2
  | cons x xs ih =>
    have hxr := List.pairwise_cons.mp hx.1
    cases ys with
    | nil =>
      have := h x.1
      simp only [get, if_true] at this
      exact absurd this (hx.2 x (by simp)).2
    | cons y ys =>
      have hyr := List.pairwise_cons.mp hy.1
      have hkey : x.1 = y.1 := by
        rcases Nat.lt_trichotomy x.1 y.1 with hlt | heq | hlt
        · have := h x.1
          rw [get_of_lt (cells := y :: ys) (fun cell hcell => by
            rcases List.mem_cons.mp hcell with rfl | hcell
            · exact hlt
            · exact lt_trans hlt (hyr.1 cell hcell))] at this
          simp only [get, if_true] at this
          exact absurd this (hx.2 x (by simp)).2
        · exact heq
        · have := h y.1
          rw [get_of_lt (cells := x :: xs) (fun cell hcell => by
            rcases List.mem_cons.mp hcell with rfl | hcell
            · exact hlt
            · exact lt_trans hlt (hxr.1 cell hcell))] at this
          simp only [get, if_true] at this
          exact absurd this.symm (hy.2 y (by simp)).2
      have hval : x.2 = y.2 := by
        have := h x.1
        simpa [get, hkey] using this
      have hrest : xs = ys := by
        refine ih ⟨hxr.2, fun cell hcell => hx.2 cell (List.mem_cons_of_mem _ hcell)⟩
          ⟨hyr.2, fun cell hcell => hy.2 cell (List.mem_cons_of_mem _ hcell)⟩ fun a => ?_
        by_cases ha : a = x.1
        · rw [ha, get_of_lt (cells := xs) hxr.1, hkey, get_of_lt (cells := ys) hyr.1]
        · have := h a
          simpa [get, ha, hkey ▸ ha] using this
      rw [hrest, Prod.ext hkey hval]

end Sys2Proof.Machine.Sparse
end

