-- ==== Sys2Proof/Laws/Memory.lean ====
section
/-! SUPPORT. Laws of tagged regions: reading after a write, the frame of a typed write, the canonical form, and what a
region holds after a typed write. -/

namespace Sys2Proof

/-- The four bytes of a value, put together again, are the value (R52). -/
@[simp] theorem leWord_bytes (v : Word) :
    leWord (Word.byte v 0) (Word.byte v 1) (Word.byte v 2) (Word.byte v 3) = v := by
  apply BitVec.eq_of_getLsbD_eq
  intro i hi
  simp only [leWord, Word.byte, BitVec.getLsbD_append, BitVec.getLsbD_extractLsb']
  have : i < 8 ∨ 8 ≤ i ∧ i < 16 ∨ 16 ≤ i ∧ i < 24 ∨ 24 ≤ i := by omega
  rcases this with h | ⟨h, h'⟩ | ⟨h, h'⟩ | h
  · simp [h]
  · simp [show ¬ i < 8 by omega, show i - 8 < 8 by omega, show 8 + (i - 8) = i by omega]
  · simp [show ¬ i < 8 by omega, show ¬ i - 8 < 8 by omega, show i - 8 - 8 < 8 by omega,
      show 16 + (i - 8 - 8) = i by omega]
  · simp [show ¬ i < 8 by omega, show ¬ i - 8 < 8 by omega, show ¬ i - 8 - 8 < 8 by omega,
      show i - 8 - 8 - 8 < 8 by omega, show 24 + (i - 8 - 8 - 8) = i by omega]

/-- A 32-bit value as the number of its little-endian bytes (R52, R55). -/
theorem toNat_leWord (b0 b1 b2 b3 : Byte) :
    (leWord b0 b1 b2 b3).toNat = b0.toNat + 256 * (b1.toNat + 256 * (b2.toNat + 256 * b3.toNat)) := by
  rw [leWord, BitVec.toNat_append, BitVec.toNat_append, BitVec.toNat_append,
    ← Nat.shiftLeft_add_eq_or_of_lt b2.isLt, ← Nat.shiftLeft_add_eq_or_of_lt b1.isLt,
    ← Nat.shiftLeft_add_eq_or_of_lt b0.isLt]
  simp only [Nat.shiftLeft_eq]
  ring

/-- The byte of a byte widened with zero bits. -/
@[simp] theorem byte_zero_setWidth (b : Byte) : Word.byte (b.setWidth 32) 0 = b := by
  apply BitVec.eq_of_getLsbD_eq
  intro i hi
  simp [Word.byte, hi]
  omega

end Sys2Proof

namespace Sys2Proof.Machine

/-! ## Widths -/

@[simp] theorem Width.bytes_one : Width.one.bytes = 1 := rfl
@[simp] theorem Width.bytes_four : Width.four.bytes = 4 := rfl
@[simp] theorem ValTy.bytes_u32 : ValTy.u32.bytes = 4 := rfl
@[simp] theorem ValTy.bytes_i32 : ValTy.i32.bytes = 4 := rfl
@[simp] theorem ValTy.bytes_u8 : ValTy.u8.bytes = 1 := rfl
@[simp] theorem ValTy.width_u32 : ValTy.u32.width = .four := rfl
@[simp] theorem ValTy.width_i32 : ValTy.i32.width = .four := rfl
@[simp] theorem ValTy.width_u8 : ValTy.u8.width = .one := rfl
@[simp] theorem ValTy.width_bytes (ty : ValTy) : ty.width.bytes = ty.bytes := rfl

theorem ValTy.bytes_pos (ty : ValTy) : 0 < ty.bytes := by cases ty <;> decide
theorem ValTy.bytes_le (ty : ValTy) : ty.bytes ≤ 4 := by cases ty <;> decide
theorem ValTy.bytes_of_word {ty : ValTy} (h : isWord ty) : ty.bytes = 4 := by rcases h with rfl | rfl <;> rfl

@[simp] theorem Tag.starts_head (ty : ValTy) : ty.head.starts = some ty := by cases ty <;> rfl

theorem Tag.eq_head {t : Tag} {ty : ValTy} (h : t.starts = some ty) : t = ty.head := by
  cases t <;> simp_all [Tag.starts] <;> subst h <;> rfl

theorem Request.accepts_word {ty : ValTy} : Request.word.accepts ty = true ↔ isWord ty := by
  cases ty <;> simp [Request.accepts, isWord]

/-! ## Single bytes and tags -/

section
variable (m : Memory) (a : Nat) (b : Byte) (t : Tag) (x : Nat)

@[simp] theorem Memory.byteAt_setByte : (m.setByte a b).byteAt x = if x = a then b else m.byteAt x := by
  simp [Memory.setByte, Memory.byteAt]
@[simp] theorem Memory.tagAt_setTag : (m.setTag a t).tagAt x = if x = a then t else m.tagAt x := by
  simp [Memory.setTag, Memory.tagAt]
@[simp] theorem Memory.tagAt_setByte : (m.setByte a b).tagAt x = m.tagAt x := rfl
@[simp] theorem Memory.byteAt_setTag : (m.setTag a t).byteAt x = m.byteAt x := rfl
@[simp] theorem Memory.cap_setByte : (m.setByte a b).cap = m.cap := rfl
@[simp] theorem Memory.cap_setTag : (m.setTag a t).cap = m.cap := rfl

@[simp] theorem Memory.byteAt_blank (cap : Nat) : (Memory.blank cap).byteAt x = 0 := rfl
@[simp] theorem Memory.tagAt_blank (cap : Nat) : (Memory.blank cap).tagAt x = .untagged := rfl
end

/-! ## Typed writes -/

section
variable (m : Memory) (a : Nat) (ty : ValTy) (v : Word) (n : Width)

@[simp] theorem Memory.cap_setBytes : (m.setBytes a v n).cap = m.cap := by cases n <;> rfl
@[simp] theorem Memory.cap_setTags : (m.setTags a ty).cap = m.cap := by cases ty <;> rfl
@[simp] theorem Memory.cap_store : (m.store a ty v).cap = m.cap := by simp [Memory.store]
@[simp] theorem Memory.tagAt_setBytes (x : Nat) : (m.setBytes a v n).tagAt x = m.tagAt x := by cases n <;> rfl
@[simp] theorem Memory.byteAt_setTags (x : Nat) : (m.setTags a ty).byteAt x = m.byteAt x := by cases ty <;> rfl

theorem Memory.byteAt_setBytes_outside {x : Nat} (h : x < a ∨ a + n.bytes ≤ x) :
    (m.setBytes a v n).byteAt x = m.byteAt x := by
  cases n
  · simp only [Width.bytes_one] at h
    simp [Memory.setBytes, show x ≠ a by omega]
  · simp only [Width.bytes_four] at h
    simp [Memory.setBytes, show x ≠ a by omega, show x ≠ a + 1 by omega, show x ≠ a + 2 by omega,
      show x ≠ a + 3 by omega]

/-- A typed write leaves every byte outside its span. -/
theorem Memory.byteAt_store_outside {x : Nat} (h : x < a ∨ a + ty.bytes ≤ x) :
    (m.store a ty v).byteAt x = m.byteAt x := by
  rw [Memory.store, Memory.byteAt_setTags]
  exact Memory.byteAt_setBytes_outside m a v ty.width h

/-- A typed write leaves every tag outside its span. -/
theorem Memory.tagAt_store_outside {x : Nat} (h : x < a ∨ a + ty.bytes ≤ x) :
    (m.store a ty v).tagAt x = m.tagAt x := by
  cases ty <;> simp only [ValTy.bytes_u32, ValTy.bytes_i32, ValTy.bytes_u8] at h <;>
    simp [Memory.store, Memory.setTags, show x ≠ a by omega] <;>
    simp [show x ≠ a + 1 by omega, show x ≠ a + 2 by omega, show x ≠ a + 3 by omega]

theorem Memory.tagAt_store_head : (m.store a ty v).tagAt a = ty.head := by
  cases ty <;> simp [Memory.store, Memory.setTags]

theorem Memory.tagAt_store_tail {x : Nat} (h : a < x ∧ x < a + ty.bytes) : (m.store a ty v).tagAt x = ty.tail := by
  have hx : x = a + 1 ∨ x = a + 2 ∨ x = a + 3 := by have := ty.bytes_le; omega
  cases ty <;> simp only [ValTy.bytes_u32, ValTy.bytes_i32, ValTy.bytes_u8] at h <;>
    first
    | omega
    | (rcases hx with rfl | rfl | rfl <;> simp [Memory.store, Memory.setTags])

theorem Memory.tailsOk_store : (m.store a ty v).tailsOk a ty = true := by
  cases ty <;> simp [Memory.store, Memory.setTags, Memory.tailsOk]

theorem Memory.valueAt_store : (m.store a ty v).valueAt a ty.width =
    match ty with | .u32 => v | .i32 => v | .u8 => (Word.byte v 0).setWidth 32 := by
  cases ty <;> simp [Memory.store, Memory.setBytes, Memory.valueAt]

/-- The bytes a typed write stores: byte `k` of the value at `a + k`. -/
theorem Memory.byteAt_store_inside {k : Nat} (h : k < ty.bytes) : (m.store a ty v).byteAt (a + k) = Word.byte v k := by
  have hk : k = 0 ∨ k = 1 ∨ k = 2 ∨ k = 3 := by have := ty.bytes_le; omega
  cases ty <;> simp only [ValTy.bytes_u32, ValTy.bytes_i32, ValTy.bytes_u8] at h <;>
    rcases hk with rfl | rfl | rfl | rfl <;> first | omega | simp [Memory.store, Memory.setBytes]

end

/-! ## The canonical form -/

/-- The patterns a value of a type can have: 32 bits, or 8 bits widened with zero bits (R15). -/
abbrev Value.fits (v : Value) : Prop := v.1 = .u8 → v.2.toNat < 256

theorem Memory.wf_blank (cap : Nat) : (Memory.blank cap).wf := ⟨Sparse.canonical_nil _, Sparse.canonical_nil _⟩

theorem Memory.wf_setByte {m : Memory} (h : m.wf) {a : Nat} (ha : a < m.cap) (b : Byte) : (m.setByte a b).wf :=
  ⟨Sparse.canonical_set h.1 ha b, h.2⟩

theorem Memory.wf_setTag {m : Memory} (h : m.wf) {a : Nat} (ha : a < m.cap) (t : Tag) : (m.setTag a t).wf :=
  ⟨h.1, Sparse.canonical_set h.2 ha t⟩

theorem Memory.wf_setBytes {m : Memory} (h : m.wf) {a : Nat} {n : Width} (ha : a + n.bytes ≤ m.cap) (v : Word) :
    (m.setBytes a v n).wf := by
  cases n
  · simp only [Width.bytes_one] at ha
    exact Memory.wf_setByte h (by omega) _
  · simp only [Width.bytes_four] at ha
    exact Memory.wf_setByte (Memory.wf_setByte (Memory.wf_setByte (Memory.wf_setByte h (by omega) _)
      (by simp; omega) _) (by simp; omega) _) (by simp; omega) _

theorem Memory.wf_setTags {m : Memory} (h : m.wf) {a : Nat} {ty : ValTy} (ha : a + ty.bytes ≤ m.cap) :
    (m.setTags a ty).wf := by
  cases ty <;> simp only [ValTy.bytes_u32, ValTy.bytes_i32, ValTy.bytes_u8] at ha
  · exact Memory.wf_setTag (Memory.wf_setTag (Memory.wf_setTag (Memory.wf_setTag h (by omega) _)
      (by simp; omega) _) (by simp; omega) _) (by simp; omega) _
  · exact Memory.wf_setTag (Memory.wf_setTag (Memory.wf_setTag (Memory.wf_setTag h (by omega) _)
      (by simp; omega) _) (by simp; omega) _) (by simp; omega) _
  · exact Memory.wf_setTag h (by omega) _

/-- A typed write in bounds keeps the canonical form. -/
theorem Memory.wf_store {m : Memory} (h : m.wf) {a : Nat} {ty : ValTy} (ha : a + ty.bytes ≤ m.cap) (v : Word) :
    (m.store a ty v).wf :=
  Memory.wf_setTags (Memory.wf_setBytes h ha v) (by simpa using ha)

/-- Two regions in canonical form, of one capacity, that read the same are the same region. -/
theorem Memory.ext_of_wf {m m' : Memory} (h : m.wf) (h' : m'.wf) (hcap : m.cap = m'.cap)
    (hb : ∀ a, m.byteAt a = m'.byteAt a) (ht : ∀ a, m.tagAt a = m'.tagAt a) : m = m' := by
  cases m
  cases m'
  congr 1
  · exact Sparse.canonical_ext h.1 h'.1 hb
  · exact Sparse.canonical_ext h.2 h'.2 ht

/-! ## What a region holds -/

theorem Memory.holds_iff {m : Memory} {a : Nat} {v : Value} :
    m.holds a v = true ↔ m.tagAt a = v.1.head ∧ m.tailsOk a v.1 = true ∧ m.valueAt a v.1.width = v.2 := by
  simp [Memory.holds, and_assoc]

/-- A region that agrees on the bytes and tags of a value holds it too. -/
theorem Memory.holds_congr {m m' : Memory} {a : Nat} {v : Value}
    (h : ∀ x, a ≤ x → x < a + v.1.bytes → m'.byteAt x = m.byteAt x ∧ m'.tagAt x = m.tagAt x) :
    m'.holds a v = m.holds a v := by
  obtain ⟨ty, w⟩ := v
  cases ty <;> simp only [ValTy.bytes_u32, ValTy.bytes_i32, ValTy.bytes_u8] at h
  · simp [Memory.holds, Memory.tailsOk, Memory.valueAt, h a (by omega) (by omega), h (a + 1) (by omega) (by omega),
      h (a + 2) (by omega) (by omega), h (a + 3) (by omega) (by omega)]
  · simp [Memory.holds, Memory.tailsOk, Memory.valueAt, h a (by omega) (by omega), h (a + 1) (by omega) (by omega),
      h (a + 2) (by omega) (by omega), h (a + 3) (by omega) (by omega)]
  · simp [Memory.holds, Memory.tailsOk, Memory.valueAt, h a (by omega) (by omega)]

theorem Memory.holdsAll_congr {m m' : Memory} {vals : List Value}
    (h : ∀ x, x < extent vals → m'.byteAt x = m.byteAt x ∧ m'.tagAt x = m.tagAt x) :
    m'.holdsAll vals = m.holdsAll vals := by
  induction vals with
  | nil => rfl
  | cons v below ih =>
    rw [Memory.holdsAll, Memory.holdsAll, ih fun x hx => h x (by simp only [extent]; omega),
      Memory.holds_congr fun x _ hx => h x (by simpa [extent] using hx)]

/-- A typed write of a pattern that fits its type leaves the region holding the value. -/
theorem Memory.holds_store (m : Memory) (a : Nat) {v : Value} (h : v.fits) : (m.store a v.1 v.2).holds a v = true := by
  obtain ⟨ty, w⟩ := v
  refine Memory.holds_iff.mpr ⟨Memory.tagAt_store_head .., Memory.tailsOk_store .., ?_⟩
  rw [Memory.valueAt_store]
  cases ty with
  | u32 => rfl
  | i32 => rfl
  | u8 =>
    apply BitVec.eq_of_toNat_eq
    have := h rfl
    simp [Word.byte, BitVec.extractLsb'_toNat] at this ⊢
    omega

/-- A value read from a region has a pattern that fits its type. -/
theorem Memory.valueAt_fits (m : Memory) (a : Nat) (ty : ValTy) : Value.fits (ty, m.valueAt a ty.width) := by
  intro h
  subst h
  simp [Memory.valueAt]
  have := (m.byteAt a).isLt
  omega

end Sys2Proof.Machine
end

