-- ==== Sys2Proof/Laws/Decode.lean ====
section
/-! SUPPORT. Laws of the encoding: reading one immediate back, and the bytes a step fetches. -/

namespace Sys2Proof

/-- The bytes of an immediate read back as the immediate (R92). -/
@[simp] theorem takeImmediate_leBytes (v : Word) (rest : List Byte) :
    takeImmediate (leBytes v ++ rest) = some (v, rest) := by
  simp [leBytes, takeImmediate]

/-- Four bytes that read as an immediate are its bytes (R92). -/
theorem leBytes_leWord (b0 b1 b2 b3 : Byte) : leBytes (leWord b0 b1 b2 b3) = [b0, b1, b2, b3] := by
  have key : ∀ k, k < 4 → Word.byte (leWord b0 b1 b2 b3) k = [b0, b1, b2, b3].getD k 0 := by
    intro k hk
    apply BitVec.eq_of_getLsbD_eq
    intro i hi
    simp only [Word.byte, leWord, BitVec.getLsbD_extractLsb', BitVec.getLsbD_append, hi, decide_true, Bool.true_and]
    have : k = 0 ∨ k = 1 ∨ k = 2 ∨ k = 3 := by omega
    rcases this with rfl | rfl | rfl | rfl
    · simp [hi]
    · simp [show ¬ 8 + i < 8 by omega, hi]
    · simp [show ¬ 16 + i < 8 by omega, show ¬ 16 + i - 8 < 8 by omega, show 16 + i - 8 - 8 = i by omega, hi]
    · simp [show ¬ 24 + i < 8 by omega, show ¬ 24 + i - 8 < 8 by omega, show ¬ 24 + i - 8 - 8 < 8 by omega,
        show 24 + i - 8 - 8 - 8 = i by omega]
  simp [leBytes, key]

/-- What `takeImmediate` takes is the immediate's bytes, and it leaves the rest. -/
theorem takeImmediate_eq_some {bs : List Byte} {v : Word} {rest : List Byte}
    (h : takeImmediate bs = some (v, rest)) : bs = leBytes v ++ rest := by
  match bs, h with
  | b0 :: b1 :: b2 :: b3 :: tail, h =>
    simp only [takeImmediate, Option.some.injEq, Prod.mk.injEq] at h
    obtain ⟨rfl, rfl⟩ := h
    simp [leBytes_leWord]

/-- An opcode byte has a row exactly when it is below `0x3C` (R95, R96). -/
theorem lookupOpcode_isSome (b : Byte) : (lookupOpcode b).isSome = decide (b.toNat < 0x3C) := by
  revert b
  decide

/-- The row a byte finds is that byte's (R95). -/
theorem lookupOpcode_byte {b : Byte} {row : OpcodeRow} (h : lookupOpcode b = some row) : row.byte = b := by
  simpa using List.find?_some h

theorem lookupOpcode_mem {b : Byte} {row : OpcodeRow} (h : lookupOpcode b = some row) : row ∈ opcodeMap :=
  List.mem_of_find?_eq_some h

/-- Fewer than four bytes hold no immediate. -/
theorem takeImmediate_short {bs : List Byte} (h : bs.length < 4) : takeImmediate bs = none := by
  match bs, h with
  | [], _ => rfl
  | [_], _ => rfl
  | [_, _], _ => rfl
  | [_, _, _], _ => rfl

/-- Four bytes hold an immediate, and the rest is left. -/
theorem length_takeImmediate {bs rest : List Byte} {v : Word} (h : takeImmediate bs = some (v, rest)) :
    bs.length = rest.length + 4 := by
  rw [takeImmediate_eq_some h]
  simp [leBytes]

/-- The longest format has 13 bytes (R91). -/
theorem Format.length_le (f : Format) : f.length ≤ maxLength := by cases f <;> decide

/-- Bytes that end before the format does build no instruction (R94). -/
theorem OpcodeShape.build_short {sh : OpcodeShape} {bs : List Byte} (h : bs.length + 1 < sh.format.length) :
    sh.build bs = none := by
  cases sh <;> simp [OpcodeShape.format, Format.length] at h
  · simp only [OpcodeShape.build, takeImmediate_short (bs := bs) (by omega)]
  · simp only [OpcodeShape.build]
    split
    · rfl
    · rename_i ha
      have := length_takeImmediate ha
      rw [takeImmediate_short (by omega)]
  · simp only [OpcodeShape.build]
    split
    · rfl
    · rename_i ha
      have := length_takeImmediate ha
      split
      · rfl
      · rename_i hb
        have := length_takeImmediate hb
        rw [takeImmediate_short (by omega)]

/-- Every instruction an opcode builds is encoded as that opcode byte followed by its immediates (R91, R92). -/
def OpcodeShape.EncodesAs (op : Byte) : OpcodeShape → Prop
  | .f0 i => encode i = [op]
  | .f1 mk => ∀ a, encode (mk a) = op :: leBytes a
  | .f2 mk => ∀ a b, encode (mk a b) = op :: (leBytes a ++ leBytes b)
  | .f3 mk => ∀ a b c, encode (mk a b c) = op :: (leBytes a ++ (leBytes b ++ leBytes c))

/-- The encoder and `OPCODE_MAP` agree on every row (R95). -/
theorem opcodeMap_encodesAs : ∀ row ∈ opcodeMap, row.shape.EncodesAs row.byte := by
  simp only [opcodeMap, List.cons_append, List.nil_append, List.forall_mem_cons, List.not_mem_nil, false_imp_iff,
    implies_true, and_true]
  refine ⟨?_, ?_, ?_, ?_, ?_, ?_, ?_, ?_, ?_, ?_, ?_, ?_, ?_, ?_, ?_, ?_, ?_, ?_, ?_, ?_, ?_, ?_, ?_, ?_, ?_, ?_, ?_,
    ?_, ?_, ?_, ?_, ?_, ?_, ?_, ?_, ?_, ?_, ?_, ?_, ?_, ?_, ?_, ?_, ?_, ?_, ?_, ?_, ?_, ?_, ?_, ?_, ?_, ?_, ?_, ?_, ?_,
    ?_, ?_, ?_, ?_⟩ <;> simp only [OpcodeShape.EncodesAs] <;> intros <;> rfl

/-- What an opcode builds from the bytes after it, with the bytes left over. -/
theorem OpcodeShape.build_eq_some {sh : OpcodeShape} {op : Byte} {bs rest : List Byte} {i : Instr}
    (henc : sh.EncodesAs op) (h : sh.build bs = some (i, rest)) : op :: bs = encode i ++ rest := by
  cases sh with
  | f0 j =>
    simp only [OpcodeShape.build, Option.some.injEq, Prod.mk.injEq] at h
    obtain ⟨rfl, rfl⟩ := h
    rw [show encode j = [op] from henc, List.singleton_append]
  | f1 mk =>
    simp only [OpcodeShape.build] at h
    split at h
    · simp at h
    rename_i a r ha
    simp only [Option.some.injEq, Prod.mk.injEq] at h
    obtain ⟨rfl, rfl⟩ := h
    rw [henc a, takeImmediate_eq_some ha, List.cons_append]
  | f2 mk =>
    simp only [OpcodeShape.build] at h
    split at h
    · simp at h
    rename_i a r ha
    split at h
    · simp at h
    rename_i b r' hb
    simp only [Option.some.injEq, Prod.mk.injEq] at h
    obtain ⟨rfl, rfl⟩ := h
    rw [henc a b, takeImmediate_eq_some ha, takeImmediate_eq_some hb]
    simp
  | f3 mk =>
    simp only [OpcodeShape.build] at h
    split at h
    · simp at h
    rename_i a r ha
    split at h
    · simp at h
    rename_i b r' hb
    split at h
    · simp at h
    rename_i c r'' hc
    simp only [Option.some.injEq, Prod.mk.injEq] at h
    obtain ⟨rfl, rfl⟩ := h
    rw [henc a b c, takeImmediate_eq_some ha, takeImmediate_eq_some hb, takeImmediate_eq_some hc]
    simp

end Sys2Proof

namespace Sys2Proof.Machine

/-- How many bytes a step fetches (R94). -/
@[simp] theorem length_fetchBytes (s : State) :
    (fetchBytes s).length = min maxLength (s.mem.cap - s.ip.toNat) := by simp [fetchBytes]

/-- The bytes a step fetches are those of main memory from `ip` on (R94). -/
theorem getElem?_fetchBytes (s : State) {k : Nat} (h : k < min maxLength (s.mem.cap - s.ip.toNat)) :
    (fetchBytes s)[k]? = some (s.mem.byteAt (s.ip.toNat + k)) := by
  simp [fetchBytes, h]

end Sys2Proof.Machine
end

