-- ==== Sys2Proof/Laws/Ops.lean ====
section
/-! SUPPORT. What each shared operation can do, on any state: where it answers a value, all that it did; and which faults
it can raise. -/

namespace Sys2Proof.Machine

/-! ## Where an operation answers a value -/

section
variable {m m' : Memory} {k k' : OperandStack} {a : Nat} {n : Width} {req : Request} {ty : ValTy} {v : Value} {w : Word}

theorem rawRead_ok (h : rawRead m a n = .ok w) : a + n.bytes ≤ m.cap ∧ w = m.valueAt a n := by
  rw [rawRead] at h
  split at h
  · simp at h
  · exact ⟨by omega, (Except.ok.inj h).symm⟩

theorem rawWrite_ok (h : rawWrite m a n w = .ok m') : a + n.bytes ≤ m.cap ∧ m' = m.setBytes a w n := by
  rw [rawWrite] at h
  split at h
  · simp at h
  · exact ⟨by omega, (Except.ok.inj h).symm⟩

theorem tagWrite_ok (h : tagWrite m a ty w = .ok m') : a + ty.bytes ≤ m.cap ∧ m' = m.store a ty w := by
  rw [tagWrite] at h
  split at h
  · simp at h
  · exact ⟨by omega, (Except.ok.inj h).symm⟩

theorem push_ok (h : push k ty w = .ok k') : ∃ a, stkNext k = .ok a ∧ a + ty.bytes ≤ k.mem.cap ∧
    k' = { mem := k.mem.store a ty w, top := BitVec.ofNat 32 a, count := k.count + 1 } := by
  obtain ⟨a, ha, h⟩ := Res.bind_eq_ok.mp h
  split at h
  · simp at h
  · obtain ⟨m, hm, h⟩ := Res.bind_eq_ok.mp h
    obtain ⟨hle, rfl⟩ := tagWrite_ok hm
    exact ⟨a, ha, hle, (Except.ok.inj h).symm⟩

/-- `Pop` moves the cursor and leaves the region (R73). -/
theorem pop_ok (h : pop k = .ok (v, k')) : k.count ≠ 0 ∧ tagRead k.mem k.top.toNat .any = .ok v ∧ k'.mem = k.mem ∧
    k'.count = k.count - 1 ∧
    (k.count = 1 ∧ k'.top = Config.emptyTop ∨
      k.count ≠ 1 ∧ ∃ a, stkPrev k k.top.toNat = .ok a ∧ k'.top = BitVec.ofNat 32 a) := by
  rw [pop] at h
  split at h
  · simp at h
  rename_i hc
  obtain ⟨u, hu, h⟩ := Res.bind_eq_ok.mp h
  split at h
  · rename_i h1
    obtain ⟨rfl, rfl⟩ := Prod.mk.inj (Except.ok.inj h)
    exact ⟨hc, hu, rfl, rfl, .inl ⟨h1, rfl⟩⟩
  · rename_i h1
    obtain ⟨a, ha, h⟩ := Res.bind_eq_ok.mp h
    obtain ⟨rfl, rfl⟩ := Prod.mk.inj (Except.ok.inj h)
    exact ⟨hc, hu, rfl, rfl, .inr ⟨h1, a, ha, rfl⟩⟩

theorem popTimes_mem {n : Nat} (h : popTimes n k = .ok k') : k'.mem = k.mem := by
  induction n generalizing k with
  | zero => rw [← Except.ok.inj h]
  | succ n ih =>
    obtain ⟨r, hr, h⟩ := Res.bind_eq_ok.mp h
    rw [ih h, (pop_ok hr).2.2.1]

/-- `Remove` leaves the region (R76). -/
theorem remove_ok {n : Nat} (h : remove k n = .ok k') : n ≤ k.count.toNat ∧ k'.mem = k.mem := by
  rw [remove] at h
  split at h
  · simp at h
  · exact ⟨by omega, popTimes_mem h⟩

theorem peekTop_ok (h : peekTop k req = .ok v) : 0 < k.count.toNat ∧ tagRead k.mem k.top.toNat req = .ok v := by
  rw [peekTop] at h
  split at h
  · simp at h
  · exact ⟨by omega, h⟩

/-- `UnOp` stores its result over the top value (R161). -/
theorem unOp_ok {f : Word → Word} (h : unOp f ty k = .ok k') : ∃ v : Value, peekTop k .word = .ok v ∧
    k.top.toNat + ty.bytes ≤ k.mem.cap ∧ k' = { k with mem := k.mem.store k.top.toNat ty (f v.2) } := by
  obtain ⟨w, hw, h⟩ := Res.bind_eq_ok.mp h
  obtain ⟨v, hv, hw⟩ := Res.bind_eq_ok.mp hw
  obtain ⟨m, hm, h⟩ := Res.bind_eq_ok.mp h
  obtain ⟨hle, rfl⟩ := tagWrite_ok hm
  rw [← Except.ok.inj hw] at h
  exact ⟨v, hv, hle, (Except.ok.inj h).symm⟩

/-- A completed call leaves a depth other than 1000 one higher, with the return address at the old depth (R113). -/
theorem callPush_ok {c c' : CallStack} (h : callPush c w = .ok c') : c.depth.toNat ≠ Config.recurMax ∧
    c' = { entries := Sparse.set 0#32 c.depth.toNat w c.entries, depth := c.depth + 1 } := by
  rw [callPush] at h
  split at h
  · simp [raise] at h
  · exact ⟨‹_›, (Except.ok.inj h).symm⟩

/-- A completed return answers the entry under the depth and leaves the entries as they were (R114). -/
theorem callPop_ok {c c' : CallStack} (h : callPop c = .ok (w, c')) : c.depth ≠ 0 ∧
    w = c.entry (c.depth - 1).toNat ∧ c' = { c with depth := c.depth - 1 } := by
  rw [callPop] at h
  split at h
  · simp [raise] at h
  · obtain ⟨rfl, rfl⟩ := Prod.mk.inj (Except.ok.inj h)
    exact ⟨‹_›, rfl, rfl⟩

end

/-! ## Which faults an operation can raise -/

/-- The operation raises no fault of kind `None`: every fault it raises is one of R300's kinds 1 to 10. -/
def Res.Raises {α : Type} (x : Res α) : Prop := x ≠ raise .none

section
variable {α β : Type}

@[simp] theorem Res.raises_ok (a : α) : Res.Raises (.ok a) := by simp [Res.Raises, raise]

theorem Res.raises_raise {kind : FaultKind} (h : kind ≠ .none) : Res.Raises (raise kind : Res α) := by
  simpa [Res.Raises, raise] using h

theorem Res.Raises.bind {x : Res α} {f : α → Res β} (hx : x.Raises) (hf : ∀ a, (f a).Raises) : (x >>= f).Raises := by
  rcases x with (kind | why) | a
  · simpa [Res.Raises, raise] using hx
  · simp [Res.Raises, raise]
  · exact hf a

end

section
variable (m : Memory) (k : OperandStack) (c : CallStack) (a : Nat) (n : Width) (req : Request) (ty : ValTy) (w : Word)

theorem rawRead_raises : (rawRead m a n).Raises := by
  unfold rawRead
  split
  · exact Res.raises_raise (by decide)
  · exact Res.raises_ok _

theorem tagRead_raises : (tagRead m a req).Raises := by
  unfold tagRead
  repeat' split
  all_goals first | exact Res.raises_ok _ | exact Res.raises_raise (by decide)

theorem tagWrite_raises : (tagWrite m a ty w).Raises := by
  unfold tagWrite
  split
  · exact Res.raises_raise (by decide)
  · exact Res.raises_ok _

theorem stkNext_raises : (stkNext k).Raises := by
  unfold stkNext
  repeat' split
  all_goals simp [Res.Raises, raise]

theorem stkPrev_raises : (stkPrev k a).Raises := by
  unfold stkPrev
  repeat' split
  all_goals simp [Res.Raises, raise]

theorem push_raises : (push k ty w).Raises := by
  refine (stkNext_raises k).bind fun a => ?_
  split
  · exact Res.raises_raise (by decide)
  · exact (tagWrite_raises _ _ _ _).bind fun _ => Res.raises_ok _

theorem pop_raises : (pop k).Raises := by
  unfold pop
  split
  · exact Res.raises_raise (by decide)
  · refine (tagRead_raises _ _ _).bind fun _ => ?_
    split
    · exact Res.raises_ok _
    · exact (stkPrev_raises _ _).bind fun _ => Res.raises_ok _

theorem popTimes_raises (j : Nat) : (popTimes j k).Raises := by
  induction j generalizing k with
  | zero => exact Res.raises_ok _
  | succ j ih => exact (pop_raises k).bind fun r => ih r.2

theorem remove_raises (j : Nat) : (remove k j).Raises := by
  unfold remove
  split
  · exact Res.raises_raise (by decide)
  · exact popTimes_raises _ _

theorem peekTop_raises : (peekTop k req).Raises := by
  unfold peekTop
  split
  · exact Res.raises_raise (by decide)
  · exact tagRead_raises _ _ _

theorem peekSecond_raises : (peekSecond k req).Raises := by
  unfold peekSecond
  split
  · exact Res.raises_raise (by decide)
  · exact (stkPrev_raises _ _).bind fun _ => tagRead_raises _ _ _

theorem topWord_raises : (topWord k).Raises := (peekTop_raises _ _).bind fun _ => Res.raises_ok _

theorem topTwoWords_raises : (topTwoWords k).Raises := by
  unfold topTwoWords
  split
  · exact Res.raises_raise (by decide)
  · exact (peekTop_raises _ _).bind fun _ => (peekSecond_raises _ _).bind fun _ => Res.raises_ok _

theorem topTwoRaw_raises : (topTwoRaw k).Raises := by
  unfold topTwoRaw
  split
  · exact Res.raises_raise (by decide)
  · exact (stkPrev_raises _ _).bind fun _ => (rawRead_raises _ _ _).bind fun _ => (rawRead_raises _ _ _).bind fun _ =>
      Res.raises_ok _

theorem memValue_raises : (memValue m w).Raises := tagRead_raises _ _ _

theorem memPointer_raises : (memPointer m w).Raises := (tagRead_raises _ _ _).bind fun _ => Res.raises_ok _

theorem stackValue_raises : (stackValue k w).Raises := by
  refine (stkNext_raises k).bind fun _ => ?_
  split
  · exact Res.raises_raise (by decide)
  · exact tagRead_raises _ _ _

theorem typeOfCode_raises : (typeOfCode w).Raises := by
  unfold typeOfCode
  repeat' split
  all_goals first | exact Res.raises_ok _ | exact Res.raises_raise (by decide)

theorem inspectedAddr_raises : (inspectedAddr k w).Raises := by
  unfold inspectedAddr
  repeat' split
  all_goals first | exact Res.raises_ok _ | exact Res.raises_raise (by decide)

theorem binOp_raises (f : Word → Word → Word) (z : Bool) : (binOp f ty z k).Raises := by
  refine (topTwoWords_raises k).bind fun rl => ?_
  split
  · exact Res.raises_raise (by decide)
  · exact (pop_raises _).bind fun _ => (pop_raises _).bind fun _ => push_raises _ _ _

theorem unOp_raises (f : Word → Word) : (unOp f ty k).Raises :=
  (topWord_raises k).bind fun _ => (tagWrite_raises _ _ _ _).bind fun _ => Res.raises_ok _

theorem callPush_raises : (callPush c w).Raises := by
  unfold callPush
  split
  · exact Res.raises_raise (by decide)
  · exact Res.raises_ok _

theorem callPop_raises : (callPop c).Raises := by
  unfold callPop
  split
  · exact Res.raises_raise (by decide)
  · exact Res.raises_ok _

end

/-! ## What an operation ensures -/

/-- The operation raises no `None`, and every value it answers meets `P`. -/
def Res.Ensures {α : Type} (P : α → Prop) (x : Res α) : Prop := x.Raises ∧ ∀ a, x = .ok a → P a

section
variable {α β : Type} {P : β → Prop}

theorem Res.ensures_ok {b : β} (h : P b) : Res.Ensures P (.ok b) :=
  ⟨Res.raises_ok b, fun _ ha => Except.ok.inj ha ▸ h⟩

theorem Res.ensures_raise {kind : FaultKind} (h : kind ≠ .none) : Res.Ensures P (raise kind) :=
  ⟨Res.raises_raise h, fun _ ha => absurd ha (raise_ne_ok _ _)⟩

theorem Res.Raises.bind_ensures {x : Res α} {f : α → Res β} (hx : x.Raises)
    (hf : ∀ a, x = .ok a → (f a).Ensures P) : (x >>= f).Ensures P := by
  rcases x with (kind | why) | a
  · exact ⟨by simpa [Res.Raises, raise] using hx, fun a ha => by simp at ha⟩
  · exact ⟨by simp [Res.Raises, raise], fun a ha => by simp at ha⟩
  · exact hf a rfl

end

/-- What `perform` answers for an operation that ensures `P`: a state that meets `P`, or fault entry with a kind of
R300. -/
theorem State.perform_cases {P : State → Prop} {s t : State} {r : Res State} (hr : r.Ensures P)
    (h : s.perform r = .next t) : P t ∨ ∃ kind, kind ≠ .none ∧ t = s.takeFault kind := by
  rcases State.perform_next h with h | ⟨kind, rfl, rfl⟩
  · exact .inl (hr.2 t h)
  · exact .inr ⟨kind, fun hk => hr.1 (by rw [hk]), rfl⟩

end Sys2Proof.Machine
end

