-- ==== Sys2Proof/Laws/PerInstr.lean ====
section
/-! SUPPORT. Statements made per instruction. -/

/-- The instruction has a row in `OPCODE_MAP`, at its place in the catalogue; its byte finds that row and no earlier
one; and the row's format is the instruction's (R91, R95). -/
def Sys2Proof.Laws.RowMatches.Statement (i : Sys2Proof.Instr) : Prop :=
  ∃ row, Sys2Proof.opcodeMap[i.catalogueIndex]? = some row ∧ row.byte = i.opcode ∧
    Sys2Proof.lookupOpcode i.opcode = some row ∧ row.shape.format = i.format

namespace Sys2Proof.Laws

theorem RowMatches.die : RowMatches.Statement .die := ⟨_, rfl, rfl, rfl, rfl⟩
theorem RowMatches.nop : RowMatches.Statement .nop := ⟨_, rfl, rfl, rfl, rfl⟩
theorem RowMatches.testDie : RowMatches.Statement .testDie := ⟨_, rfl, rfl, rfl, rfl⟩
theorem RowMatches.call (addr : Word) : RowMatches.Statement (.call addr) := ⟨_, rfl, rfl, rfl, rfl⟩
theorem RowMatches.ret : RowMatches.Statement .ret := ⟨_, rfl, rfl, rfl, rfl⟩
theorem RowMatches.jmp (addr : Word) : RowMatches.Statement (.jmp addr) := ⟨_, rfl, rfl, rfl, rfl⟩
theorem RowMatches.je (addr : Word) : RowMatches.Statement (.je addr) := ⟨_, rfl, rfl, rfl, rfl⟩
theorem RowMatches.jn (addr : Word) : RowMatches.Statement (.jn addr) := ⟨_, rfl, rfl, rfl, rfl⟩
theorem RowMatches.jl (addr : Word) : RowMatches.Statement (.jl addr) := ⟨_, rfl, rfl, rfl, rfl⟩
theorem RowMatches.jg (addr : Word) : RowMatches.Statement (.jg addr) := ⟨_, rfl, rfl, rfl, rfl⟩
theorem RowMatches.jls (addr : Word) : RowMatches.Statement (.jls addr) := ⟨_, rfl, rfl, rfl, rfl⟩
theorem RowMatches.jgs (addr : Word) : RowMatches.Statement (.jgs addr) := ⟨_, rfl, rfl, rfl, rfl⟩
theorem RowMatches.loop (count bodyAddr endAddr : Word) : RowMatches.Statement (.loop count bodyAddr endAddr) := ⟨_, rfl, rfl, rfl, rfl⟩
theorem RowMatches.lcont : RowMatches.Statement .lcont := ⟨_, rfl, rfl, rfl, rfl⟩
theorem RowMatches.lbrk : RowMatches.Statement .lbrk := ⟨_, rfl, rfl, rfl, rfl⟩
theorem RowMatches.psh (value : Word) : RowMatches.Statement (.psh value) := ⟨_, rfl, rfl, rfl, rfl⟩
theorem RowMatches.pop : RowMatches.Statement .pop := ⟨_, rfl, rfl, rfl, rfl⟩
theorem RowMatches.pop2 : RowMatches.Statement .pop2 := ⟨_, rfl, rfl, rfl, rfl⟩
theorem RowMatches.popn (n : Word) : RowMatches.Statement (.popn n) := ⟨_, rfl, rfl, rfl, rfl⟩
theorem RowMatches.pshfr (addr : Word) : RowMatches.Statement (.pshfr addr) := ⟨_, rfl, rfl, rfl, rfl⟩
theorem RowMatches.poptr (addr : Word) : RowMatches.Statement (.poptr addr) := ⟨_, rfl, rfl, rfl, rfl⟩
theorem RowMatches.movtr (addr : Word) : RowMatches.Statement (.movtr addr) := ⟨_, rfl, rfl, rfl, rfl⟩
theorem RowMatches.stktr (src dst : Word) : RowMatches.Statement (.stktr src dst) := ⟨_, rfl, rfl, rfl, rfl⟩
theorem RowMatches.cpyr (src dst : Word) : RowMatches.Statement (.cpyr src dst) := ⟨_, rfl, rfl, rfl, rfl⟩
theorem RowMatches.setr (dst value : Word) : RowMatches.Statement (.setr dst value) := ⟨_, rfl, rfl, rfl, rfl⟩
theorem RowMatches.pshfrr (addr : Word) : RowMatches.Statement (.pshfrr addr) := ⟨_, rfl, rfl, rfl, rfl⟩
theorem RowMatches.pshfrs : RowMatches.Statement .pshfrs := ⟨_, rfl, rfl, rfl, rfl⟩
theorem RowMatches.inc : RowMatches.Statement .inc := ⟨_, rfl, rfl, rfl, rfl⟩
theorem RowMatches.dec : RowMatches.Statement .dec := ⟨_, rfl, rfl, rfl, rfl⟩
theorem RowMatches.add : RowMatches.Statement .add := ⟨_, rfl, rfl, rfl, rfl⟩
theorem RowMatches.sub : RowMatches.Statement .sub := ⟨_, rfl, rfl, rfl, rfl⟩
theorem RowMatches.mul : RowMatches.Statement .mul := ⟨_, rfl, rfl, rfl, rfl⟩
theorem RowMatches.div : RowMatches.Statement .div := ⟨_, rfl, rfl, rfl, rfl⟩
theorem RowMatches.mod : RowMatches.Statement .mod := ⟨_, rfl, rfl, rfl, rfl⟩
theorem RowMatches.incs : RowMatches.Statement .incs := ⟨_, rfl, rfl, rfl, rfl⟩
theorem RowMatches.decs : RowMatches.Statement .decs := ⟨_, rfl, rfl, rfl, rfl⟩
theorem RowMatches.adds : RowMatches.Statement .adds := ⟨_, rfl, rfl, rfl, rfl⟩
theorem RowMatches.subs : RowMatches.Statement .subs := ⟨_, rfl, rfl, rfl, rfl⟩
theorem RowMatches.muls : RowMatches.Statement .muls := ⟨_, rfl, rfl, rfl, rfl⟩
theorem RowMatches.divs : RowMatches.Statement .divs := ⟨_, rfl, rfl, rfl, rfl⟩
theorem RowMatches.mods : RowMatches.Statement .mods := ⟨_, rfl, rfl, rfl, rfl⟩
theorem RowMatches.and : RowMatches.Statement .and := ⟨_, rfl, rfl, rfl, rfl⟩
theorem RowMatches.not : RowMatches.Statement .not := ⟨_, rfl, rfl, rfl, rfl⟩
theorem RowMatches.xor : RowMatches.Statement .xor := ⟨_, rfl, rfl, rfl, rfl⟩
theorem RowMatches.or : RowMatches.Statement .or := ⟨_, rfl, rfl, rfl, rfl⟩
theorem RowMatches.lshft : RowMatches.Statement .lshft := ⟨_, rfl, rfl, rfl, rfl⟩
theorem RowMatches.rshft : RowMatches.Statement .rshft := ⟨_, rfl, rfl, rfl, rfl⟩
theorem RowMatches.lrot : RowMatches.Statement .lrot := ⟨_, rfl, rfl, rfl, rfl⟩
theorem RowMatches.rrot : RowMatches.Statement .rrot := ⟨_, rfl, rfl, rfl, rfl⟩
theorem RowMatches.ands : RowMatches.Statement .ands := ⟨_, rfl, rfl, rfl, rfl⟩
theorem RowMatches.nots : RowMatches.Statement .nots := ⟨_, rfl, rfl, rfl, rfl⟩
theorem RowMatches.xors : RowMatches.Statement .xors := ⟨_, rfl, rfl, rfl, rfl⟩
theorem RowMatches.ors : RowMatches.Statement .ors := ⟨_, rfl, rfl, rfl, rfl⟩
theorem RowMatches.lshfts : RowMatches.Statement .lshfts := ⟨_, rfl, rfl, rfl, rfl⟩
theorem RowMatches.rshfts : RowMatches.Statement .rshfts := ⟨_, rfl, rfl, rfl, rfl⟩
theorem RowMatches.lrots : RowMatches.Statement .lrots := ⟨_, rfl, rfl, rfl, rfl⟩
theorem RowMatches.rrots : RowMatches.Statement .rrots := ⟨_, rfl, rfl, rfl, rfl⟩
theorem RowMatches.nspctr (typeCode addr : Word) : RowMatches.Statement (.nspctr typeCode addr) := ⟨_, rfl, rfl, rfl, rfl⟩
theorem RowMatches.nspctst (typeCode offset : Word) : RowMatches.Statement (.nspctst typeCode offset) := ⟨_, rfl, rfl, rfl, rfl⟩
theorem RowMatches.brkp : RowMatches.Statement .brkp := ⟨_, rfl, rfl, rfl, rfl⟩

end Sys2Proof.Laws
end

