-- ==== Sys2Proof/Laws/Stack.lean ====
section
/-! SUPPORT. What the region and stack primitives answer on a stack that holds a list of values (R77): one lemma for each
primitive. -/

namespace Sys2Proof.Machine

/-- The capacities of R6 in numbers. -/
theorem capOk_bounds {cap : Nat} (h : Config.capOk cap) : 4 ≤ cap ∧ cap < 2147483648 :=
  ⟨h.1, Nat.lt_succ_of_le h.2⟩

/-! ## Reading a held value -/

/-- A typed read of a held value that the request accepts answers it (R57). -/
theorem tagRead_of_holds {m : Memory} {a : Nat} {v : Value} {req : Request} (h : m.holds a v = true)
    (hcap : a + v.1.bytes ≤ m.cap) (hreq : req.accepts v.1 = true) : tagRead m a req = .ok v := by
  obtain ⟨htag, htails, hval⟩ := Memory.holds_iff.mp h
  have := v.1.bytes_pos
  rw [tagRead, if_neg (by omega), htag, Tag.starts_head]
  simp [show ¬ a + v.1.bytes > m.cap by omega, htails, hreq, hval]

/-- A typed read of a held value that the request does not accept raises `TypeMismatch` (R57). -/
theorem tagRead_of_not_accepted {m : Memory} {a : Nat} {v : Value} {req : Request} (h : m.holds a v = true)
    (hcap : a + v.1.bytes ≤ m.cap) (hreq : req.accepts v.1 = false) : tagRead m a req = raise .typeMismatch := by
  obtain ⟨htag, htails, -⟩ := Memory.holds_iff.mp h
  have := v.1.bytes_pos
  rw [tagRead, if_neg (by omega), htag, Tag.starts_head]
  simp [show ¬ a + v.1.bytes > m.cap by omega, htails, hreq]

/-- What a typed read answers is held where it was read, in bounds, and accepted (R57). -/
theorem tagRead_ok {m : Memory} {a : Nat} {req : Request} {v : Value} (h : tagRead m a req = .ok v) :
    m.holds a v = true ∧ a + v.1.bytes ≤ m.cap ∧ req.accepts v.1 = true := by
  rw [tagRead] at h
  split at h
  · simp at h
  split at h
  · simp at h
  rename_i ty hty
  split at h
  · simp at h
  split at h
  · simp at h
  split at h
  · simp at h
  obtain rfl : (ty, m.valueAt a ty.width) = v := by simpa using h
  refine ⟨Memory.holds_iff.mpr ⟨Tag.eq_head hty, by simp_all, rfl⟩, by simp_all, by simp_all⟩

/-- A typed read never stops the model. -/
theorem tagRead_not_stuck (m : Memory) (a : Nat) (req : Request) (why : Fault) :
    tagRead m a req ≠ .error (.stuck why) := by
  unfold tagRead raise
  repeat' split
  all_goals simp

/-- A held value's pattern fits its type. -/
theorem Memory.fits_of_holds {m : Memory} {a : Nat} {v : Value} (h : m.holds a v = true) : v.fits := by
  obtain ⟨-, -, hval⟩ := Memory.holds_iff.mp h
  have := m.valueAt_fits a v.1
  rwa [hval] at this

/-! ## The shape of a stack that holds values -/

theorem length_le_extent (vals : List Value) : vals.length ≤ extent vals := by
  induction vals with
  | nil => simp [extent]
  | cons v below ih =>
    have := v.1.bytes_pos
    simp only [List.length_cons, extent]
    omega

section
variable {k : OperandStack} {vals below : List Value} {v w : Value}

theorem OperandStack.Holds.length_lt (h : k.Holds vals) : vals.length < 2147483648 := by
  have := length_le_extent vals
  have := capOk_bounds h.1
  have := h.2.1
  omega

theorem OperandStack.Holds.count_eq (h : k.Holds vals) : k.count = BitVec.ofNat 32 vals.length := by
  apply BitVec.eq_of_toNat_eq
  have := h.length_lt
  rw [h.2.2.1, BitVec.toNat_ofNat]
  omega

theorem OperandStack.Holds.top_toNat (h : k.Holds (v :: below)) : k.top.toNat = extent below := by
  have hcap := capOk_bounds h.1
  have hroom : extent below + v.1.bytes ≤ k.mem.cap := h.2.1
  rw [h.2.2.2.1, topOf, BitVec.toNat_ofNat]
  omega

theorem OperandStack.Holds.holdsTop (h : k.Holds (v :: below)) : k.mem.holds (extent below) v = true := by
  have := h.2.2.2.2
  simp_all [Memory.holdsAll]

theorem OperandStack.Holds.holdsBelow (h : k.Holds (v :: below)) : k.mem.holdsAll below = true := by
  have := h.2.2.2.2
  simp_all [Memory.holdsAll]

theorem OperandStack.Holds.in_cap (h : k.Holds (v :: below)) : extent below + v.1.bytes ≤ k.mem.cap := by
  simpa [extent] using h.2.1

/-- The stack that keeps all its values is the stack itself. -/
theorem OperandStack.Holds.cutTo_self (h : k.Holds vals) : k.cutTo vals = k := by
  rw [OperandStack.cutTo, ← h.count_eq, ← h.2.2.2.1]

/-- With the values on top of `below` gone, the stack holds `below`. -/
theorem OperandStack.Holds.cutTo (h : k.Holds (v :: below)) : (k.cutTo below).Holds below := by
  have hle := h.in_cap
  have hlen := h.length_lt
  refine ⟨h.1, ?_, ?_, rfl, h.holdsBelow⟩
  · simp only [OperandStack.cutTo_mem]
    omega
  · simp only [OperandStack.cutTo_count, BitVec.toNat_ofNat]
    simp only [List.length_cons] at hlen
    omega

/-- A value put on `below` is held above them (R72). -/
theorem OperandStack.holds_putOn (hcap : Config.capOk k.mem.cap) (hbelow : k.mem.holdsAll below = true)
    (hfit : v.fits) (hroom : extent below + v.1.bytes ≤ k.mem.cap) : (k.putOn below v).Holds (v :: below) := by
  have hlen := length_le_extent below
  have := capOk_bounds hcap
  have := v.1.bytes_pos
  refine ⟨?_, ?_, ?_, rfl, ?_⟩
  · simpa using hcap
  · simpa [extent] using hroom
  · simp only [OperandStack.putOn_count, BitVec.toNat_ofNat, List.length_cons]
    omega
  · rw [Memory.holdsAll, OperandStack.putOn_mem, Memory.holds_store _ _ hfit, Bool.true_and,
      Memory.holdsAll_congr fun x hx => ⟨Memory.byteAt_store_outside _ _ _ _ (.inl hx),
        Memory.tagAt_store_outside _ _ _ _ (.inl hx)⟩]
    exact hbelow

/-! ## The stack primitives on a stack that holds values -/

/-- `StkNext()` is the end of the live values (R70, R77). -/
theorem stkNext_of_holds (h : k.Holds vals) : stkNext k = .ok (extent vals) := by
  cases vals with
  | nil =>
    have : k.count = 0 := by simpa using h.count_eq
    simp [stkNext, this, extent]
  | cons v below =>
    have hcount : k.count ≠ 0 := fun hc => by
      have := h.2.2.1
      simp [hc] at this
    obtain ⟨htag, -, -⟩ := Memory.holds_iff.mp h.holdsTop
    rw [stkNext, if_neg hcount, h.top_toNat, htag, Tag.starts_head, extent]

/-- `StkPrev` of the end of a value is its start (R71, R77). -/
theorem stkPrev_of_holds (hw : k.mem.holds (extent below) w = true) :
    stkPrev k (extent (w :: below)) = .ok (extent below) := by
  obtain ⟨ty, p⟩ := w
  obtain ⟨htag, htails, -⟩ := Memory.holds_iff.mp hw
  have hpos : extent below + ty.bytes ≠ 0 := by have := ty.bytes_pos; omega
  cases ty <;> simp_all [stkPrev, extent, ValTy.head, Memory.tailsOk, ValTy.tail]

/-- `Push` onto a stack with room (R72): the value on top of the old values. -/
theorem push_of_holds (h : k.Holds vals) (hfit : v.fits) (hroom : extent vals + v.1.bytes ≤ k.mem.cap) :
    push k v.1 v.2 = .ok (k.putOn vals v) ∧ (k.putOn vals v).Holds (v :: vals) := by
  have hn : ¬ extent vals + v.1.bytes > k.mem.cap := by omega
  refine ⟨?_, OperandStack.holds_putOn h.1 h.2.2.2.2 hfit hroom⟩
  have hcount : k.count + 1 = BitVec.ofNat 32 (vals.length + 1) := by
    rw [h.count_eq]
    apply BitVec.eq_of_toNat_eq
    simp
  rw [push, stkNext_of_holds h, Res.bind_ok, if_neg hn, tagWrite, if_neg hn, Res.bind_ok, hcount]
  rfl

/-- `Push` onto a stack without room raises `StackOverflow` (R72). -/
theorem push_overflow (h : k.Holds vals) (hroom : extent vals + v.1.bytes > k.mem.cap) :
    push k v.1 v.2 = raise .stackOverflow := by
  rw [push, stkNext_of_holds h]
  simp [hroom]

/-- `Pop()` answers the top value and leaves the values below (R73). -/
theorem pop_of_holds (h : k.Holds (v :: below)) : pop k = .ok (v, k.cutTo below) := by
  have hcount : k.count ≠ 0 := fun hc => by
    have := h.2.2.1
    simp [hc] at this
  have hread : tagRead k.mem (extent below) .any = .ok v := tagRead_of_holds h.holdsTop h.in_cap rfl
  have hless : k.count - 1 = BitVec.ofNat 32 below.length := by
    rw [h.count_eq]
    apply BitVec.eq_of_toNat_eq
    have := h.length_lt
    simp only [List.length_cons, BitVec.toNat_sub, BitVec.toNat_ofNat] at *
    simp
    omega
  rw [pop, if_neg hcount, h.top_toNat, hread, Res.bind_ok]
  cases below with
  | nil =>
    have hone : k.count = 1 := by simpa using h.count_eq
    rw [if_pos hone, hless]
    rfl
  | cons w rest =>
    have hone : k.count ≠ 1 := fun hc => by
      have := h.2.2.1
      simp [hc] at this
    have hw : k.mem.holds (extent rest) w = true := h.cutTo.holdsTop
    rw [if_neg hone, stkPrev_of_holds hw, Res.bind_ok, hless]
    rfl

/-- `Pop()` of an empty stack raises `StackUnderflow` (R73). -/
theorem pop_underflow (h : k.Holds []) : pop k = raise .stackUnderflow := by
  have : k.count = 0 := by simpa using h.count_eq
  simp [pop, this]

/-- `PeekTop` reads the top value (R74). -/
theorem peekTop_of_holds (h : k.Holds (v :: below)) {req : Request} (hreq : req.accepts v.1 = true) :
    peekTop k req = .ok v := by
  have : ¬ k.count.toNat < 1 := by rw [h.2.2.1]; simp
  rw [peekTop, if_neg this, h.top_toNat, tagRead_of_holds h.holdsTop h.in_cap hreq]

theorem peekTop_not_accepted (h : k.Holds (v :: below)) {req : Request} (hreq : req.accepts v.1 = false) :
    peekTop k req = raise .typeMismatch := by
  have : ¬ k.count.toNat < 1 := by rw [h.2.2.1]; simp
  rw [peekTop, if_neg this, h.top_toNat, tagRead_of_not_accepted h.holdsTop h.in_cap hreq]

/-- `PeekSecond` reads the second value (R75). -/
theorem peekSecond_of_holds (h : k.Holds (v :: w :: below)) {req : Request} (hreq : req.accepts w.1 = true) :
    peekSecond k req = .ok w := by
  have : ¬ k.count.toNat < 2 := by rw [h.2.2.1]; simp
  have hw := h.cutTo
  have hprev : stkPrev k (extent (w :: below)) = .ok (extent below) := stkPrev_of_holds (k := k) hw.holdsTop
  rw [peekSecond, if_neg this, h.top_toNat, hprev, Res.bind_ok]
  exact tagRead_of_holds hw.holdsTop hw.in_cap hreq

theorem peekSecond_not_accepted (h : k.Holds (v :: w :: below)) {req : Request} (hreq : req.accepts w.1 = false) :
    peekSecond k req = raise .typeMismatch := by
  have : ¬ k.count.toNat < 2 := by rw [h.2.2.1]; simp
  have hw := h.cutTo
  have hprev : stkPrev k (extent (w :: below)) = .ok (extent below) := stkPrev_of_holds (k := k) hw.holdsTop
  rw [peekSecond, if_neg this, h.top_toNat, hprev, Res.bind_ok]
  exact tagRead_of_not_accepted hw.holdsTop hw.in_cap hreq

/-- Several `Pop()`s leave the values below the ones popped (R76). -/
theorem popTimes_of_holds (h : k.Holds vals) {n : Nat} (hn : n ≤ vals.length) :
    popTimes n k = .ok (k.cutTo (vals.drop n)) ∧ (k.cutTo (vals.drop n)).Holds (vals.drop n) := by
  induction n generalizing k vals with
  | zero => simpa [popTimes, h.cutTo_self] using h
  | succ n ih =>
    cases vals with
    | nil => simp at hn
    | cons v below =>
      have := ih h.cutTo (by simpa using hn)
      rw [popTimes, pop_of_holds h, Res.bind_ok]
      simpa using this

/-- `Remove(n)` discards `n` values (R76). -/
theorem remove_of_holds (h : k.Holds vals) {n : Nat} (hn : n ≤ vals.length) :
    remove k n = .ok (k.cutTo (vals.drop n)) ∧ (k.cutTo (vals.drop n)).Holds (vals.drop n) := by
  have := popTimes_of_holds h hn
  rw [remove, if_neg (by rw [h.2.2.1]; omega)]
  exact this

/-! ## Operand forms on a stack that holds values -/

/-- Top and second as 32-bit values, top first (R160). -/
theorem topTwoWords_of_holds (h : k.Holds (v :: w :: below)) (hv : isWord v.1) (hw : isWord w.1) :
    topTwoWords k = .ok (v.2, w.2) := by
  have : ¬ k.count.toNat < 2 := by rw [h.2.2.1]; simp
  rw [topTwoWords, if_neg this, peekTop_of_holds h (Request.accepts_word.mpr hv), Res.bind_ok,
    peekSecond_of_holds h (Request.accepts_word.mpr hw), Res.bind_ok]

theorem topTwoWords_mismatch (h : k.Holds (v :: w :: below)) (hvw : ¬ isWord v.1 ∨ ¬ isWord w.1) :
    topTwoWords k = raise .typeMismatch := by
  have : ¬ k.count.toNat < 2 := by rw [h.2.2.1]; simp
  rw [topTwoWords, if_neg this]
  by_cases hv : isWord v.1
  · have hw : Request.word.accepts w.1 = false :=
      Bool.eq_false_iff.mpr fun hc => (hvw.resolve_left (not_not.mpr hv)) (Request.accepts_word.mp hc)
    rw [peekTop_of_holds h (Request.accepts_word.mpr hv), Res.bind_ok, peekSecond_not_accepted h hw]
    rfl
  · rw [peekTop_not_accepted h (Bool.eq_false_iff.mpr fun hc => hv (Request.accepts_word.mp hc))]
    rfl

theorem topTwoWords_underflow (h : k.count.toNat < 2) : topTwoWords k = raise .stackUnderflow := by
  simp [topTwoWords, h]

/-- `BinOp` on two words (R160): the result in the place of the left operand. -/
theorem binOp_of_holds (h : k.Holds (v :: w :: below)) (hv : isWord v.1) (hw : isWord w.1)
    (f : Word → Word → Word) {rty : ValTy} (hr : isWord rty) {zcheck : Bool} (hz : zcheck = false ∨ v.2 ≠ 0) :
    binOp f rty zcheck k = .ok (k.putOn below (rty, f w.2 v.2)) ∧
      (k.putOn below (rty, f w.2 v.2)).Holds ((rty, f w.2 v.2) :: below) := by
  have hfit : Value.fits (rty, f w.2 v.2) := fun hc => by rcases hr with h' | h' <;> simp_all
  have hroom : extent below + rty.bytes ≤ k.mem.cap := by
    have := h.cutTo.in_cap
    rw [ValTy.bytes_of_word hw] at this
    rw [ValTy.bytes_of_word hr]
    exact this
  have hzc : (zcheck && v.2 == 0) = false := by rcases hz with hz | hz <;> simp_all
  have hpush := push_of_holds h.cutTo.cutTo (v := (rty, f w.2 v.2)) hfit hroom
  refine ⟨?_, hpush.2⟩
  rw [binOp, topTwoWords_of_holds h hv hw, Res.bind_ok]
  simp only [hzc]
  rw [if_neg (by simp), pop_of_holds h, Res.bind_ok, pop_of_holds h.cutTo, Res.bind_ok]
  exact hpush.1

/-- `UnOp` on a word (R161): the result in its place. -/
theorem unOp_of_holds (h : k.Holds (v :: below)) (hv : isWord v.1) (f : Word → Word) {rty : ValTy} (hr : isWord rty) :
    unOp f rty k = .ok (k.putOn below (rty, f v.2)) ∧ (k.putOn below (rty, f v.2)).Holds ((rty, f v.2) :: below) := by
  have hfit : Value.fits (rty, f v.2) := fun hc => by rcases hr with h' | h' <;> simp_all
  have hroom : extent below + rty.bytes ≤ k.mem.cap := by
    have := h.in_cap
    rw [ValTy.bytes_of_word hv] at this
    rw [ValTy.bytes_of_word hr]
    exact this
  refine ⟨?_, OperandStack.holds_putOn h.1 h.holdsBelow hfit hroom⟩
  have htop := h.top_toNat
  have hk : k.top = BitVec.ofNat 32 (extent below) := by simpa [topOf] using h.2.2.2.1
  have hc := h.count_eq
  simp only [List.length_cons] at hc
  rw [unOp, topWord, peekTop_of_holds h (Request.accepts_word.mpr hv)]
  simp only [Res.bind_ok, htop, tagWrite]
  rw [if_neg (by omega), Res.bind_ok, OperandStack.putOn, ← hk, ← hc]

end

end Sys2Proof.Machine
end

