-- ==== Sys2Proof/Machine/Assemble.lean ====
section
/-! DEFINITION. The spec's assembler (R99, R100): from the text of a program to its image. It is a tool of the spec, not a
part of the core: no step reads it. What R99 leaves open is fixed in log 7. -/

namespace Sys2Proof.Asm

open Sys2Proof.Machine

/-! ## Words of a line -/

/-- A word of a line: characters without spaces. -/
abbrev Token := List Char

/-- The pieces between the separators `c`. -/
def splitOn (c : Char) : List Char → List Token
  | [] => [[]]
  | x :: rest =>
    if x = c then [] :: splitOn c rest
    else
      match splitOn c rest with
      | [] => [[x]]
      | piece :: pieces => (x :: piece) :: pieces

/-- The words of a line, without its comment (R99). -/
def tokens (line : List Char) : List Token :=
  (splitOn ' ' ((line.takeWhile fun c => c != ';').map fun c => if c = '\t' ∨ c = '\r' then ' ' else c)).filter
    fun t => t != []

/-! ## Operands -/

/-- The value of a digit, in decimal or hexadecimal. -/
def digitValue (c : Char) : Option Nat :=
  if '0' ≤ c ∧ c ≤ '9' then some (c.toNat - '0'.toNat)
  else if 'a' ≤ c ∧ c ≤ 'f' then some (c.toNat - 'a'.toNat + 10)
  else if 'A' ≤ c ∧ c ≤ 'F' then some (c.toNat - 'A'.toNat + 10)
  else none

/-- A number from its digits, the most significant first. No digits are no number. -/
def number (base : Nat) (digits : Token) : Option Nat :=
  if digits = [] then none
  else
    digits.foldl (fun acc c =>
      match acc, digitValue c with
      | some n, some d => if d < base then some (n * base + d) else none
      | _, _ => none) (some 0)

/-- An operand as written: a number of R99, or a label. -/
inductive Operand where
  | num (n : Int)
  | label (name : Token)
  deriving DecidableEq, Repr

/-- A number of R99 in its three spellings. -/
def readNumber : Token → Option Int
  | '0' :: 'x' :: digits => (number 16 digits).map Int.ofNat
  | '-' :: digits => (number 10 digits).bind fun n => if n = 0 then none else some (-(n : Int))
  | digits => (number 10 digits).map Int.ofNat

/-- A word that starts like a number is one; any other word is a label. -/
def readOperand (t : Token) : Option Operand :=
  match t with
  | [] => none
  | c :: _ => if c = '-' ∨ ('0' ≤ c ∧ c ≤ '9') then (readNumber t).map .num else some (.label t)

/-! ## Lines -/

/-- What a line emits or sets (R99). -/
inductive Item where
  | instr (row : OpcodeRow) (ops : List Operand)
  | org (a : Nat)
  | u32 (v : Operand)
  | u8 (v : Operand)

/-- A line: the label it defines, and its item. -/
structure Line where
  label : Option Token
  item : Option Item

/-- Why a text does not assemble. -/
inductive Reason where
  /-- The words are no line of R99. -/
  | badLine
  /-- A label that no line defines. -/
  | unknownLabel
  /-- A label that two lines define. -/
  | labelTwice
  /-- Too few or too many operands, or one out of range. -/
  | badOperands
  deriving DecidableEq, Repr

/-- The row of a mnemonic (R95, R99). -/
def lookupMnemonic (t : Token) : Option OpcodeRow := opcodeMap.find? fun row => row.mnemonic == String.ofList t

/-- All operands of a line, left to right. -/
def readOperands : List Token → Option (List Operand)
  | [] => some []
  | t :: rest => (readOperand t).bind fun o => (readOperands rest).map fun os => o :: os

/-- The item of the words after a label. -/
def readItem : List Token → Option (Option Item)
  | [] => some none
  | head :: rest =>
    (readOperands rest).bind fun ops =>
      if head = ".org".toList then
        match ops with
        | [.num (.ofNat a)] => some (some (.org a))
        | _ => none
      else if head = ".u32".toList then
        match ops with
        | [v] => some (some (.u32 v))
        | _ => none
      else if head = ".u8".toList then
        match ops with
        | [v] => some (some (.u8 v))
        | _ => none
      else (lookupMnemonic head).map fun row => some (.instr row ops)

/-- A line from its words: a word that ends in a colon at the start of the line defines a label. -/
def readLine (ts : List Token) : Option Line :=
  match ts with
  | [] => some { label := none, item := none }
  | head :: rest =>
    match head.reverse with
    | ':' :: name => if name = [] then none else (readItem rest).map fun i => { label := some name.reverse, item := i }
    | _ => (readItem ts).map fun i => { label := none, item := i }

/-! ## The two passes -/

/-- The address after an item at `a` (R99). -/
def Item.next (a : Nat) : Item → Nat
  | .instr row _ => a + row.shape.format.length
  | .org b => b
  | .u32 _ => a + 4
  | .u8 _ => a + 1

/-- Whether an item emits a byte (R99). -/
def Item.emits : Item → Bool
  | .instr _ _ => true
  | .org _ => false
  | .u32 _ => true
  | .u8 _ => true

/-- The address after a line at `a`. -/
def Line.next (a : Nat) (line : Line) : Nat :=
  match line.item with
  | none => a
  | some i => i.next a

/-- From line `n` on, at `a`: the address of the next byte emitted, and the labels with their addresses; or the line that
defines a label a second time (R99). A label is the address of the next byte emitted, as R99 says, so one that a `.org`
follows before any byte is the `.org`'s address (DEDUCED, log 7). One after which no byte is emitted is the address
after the last line, a point R99 leaves open (DESIGN CHOICE, log 7). -/
def labels : Nat → Nat → List Line → Except (Nat × Reason) (Nat × List (Token × Nat))
  | _, a, [] => .ok (a, [])
  | n, a, line :: rest => do
    let later ← labels (n + 1) (line.next a) rest
    let here := if line.item.any Item.emits then a else later.1
    match line.label with
    | none => .ok (here, later.2)
    | some name =>
      if (later.2.lookup name).isSome then .error (n, .labelTwice) else .ok (here, (name, here) :: later.2)

/-- The number an operand stands for. -/
def Operand.value (table : List (Token × Nat)) : Operand → Except Reason Int
  | .num n => .ok n
  | .label name =>
    match table.lookup name with
    | none => .error .unknownLabel
    | some a => .ok a

/-- The numbers the operands stand for. -/
def values (table : List (Token × Nat)) : List Operand → Except Reason (List Int)
  | [] => .ok []
  | o :: rest => do
    let n ← o.value table
    let ns ← values table rest
    .ok (n :: ns)

/-- The bytes of an item (R92, R99): an instruction's opcode and immediates, or the raw bytes of a value. -/
def Item.bytes (table : List (Token × Nat)) : Item → Except Reason (List Byte)
  | .instr row ops => do
    let ns ← values table ops
    if operandsOk row.shape.format ns then .ok (row.byte :: ns.flatMap fun n => leBytes (BitVec.ofInt 32 n))
    else .error .badOperands
  | .org _ => .ok []
  | .u32 v => do
    let n ← v.value table
    if immediateOk n then .ok (leBytes (BitVec.ofInt 32 n)) else .error .badOperands
  | .u8 v => do
    let n ← v.value table
    if 0 ≤ n ∧ n < 256 then .ok [BitVec.ofInt 8 n] else .error .badOperands

/-- The emitted bytes with their addresses, a later line over an earlier one, and the end of the image. -/
def emit (table : List (Token × Nat)) :
    Nat → Nat → List Line → List Host.Cell × Nat → Except (Nat × Reason) (List Host.Cell × Nat)
  | _, _, [], image => .ok image
  | n, a, line :: rest, image =>
    match line.item with
    | none => emit table (n + 1) a rest image
    | some i =>
      match i.bytes table with
      | .error why => .error (n, why)
      | .ok bs =>
        emit table (n + 1) (i.next a) rest
          ((List.range bs.length).foldl (fun cells k => Sparse.set 0#8 (a + k) (bs.getD k 0) cells) image.1,
            if bs = [] then image.2 else max image.2 (a + bs.length))

/-- The lines of a text, or the first that is none. -/
def readLines : Nat → List (List Char) → Except (Nat × Reason) (List Line)
  | _, [] => .ok []
  | n, l :: rest =>
    match readLine (tokens l) with
    | none => .error (n, .badLine)
    | some line => do
      let lines ← readLines (n + 1) rest
      .ok (line :: lines)

/-- The image of a program (R99): the bytes at `0 .. last`, bytes not emitted being 0; or the line, counted from 1, that
does not assemble, and why. -/
def assemble (text : String) : Except (Nat × Reason) (List Byte) := do
  let lines ← readLines 1 (splitOn '\n' text.toList)
  let found ← labels 1 0 lines
  let image ← emit found.2 1 0 lines ([], 0)
  .ok ((List.range image.2).map fun a => Sparse.get 0#8 image.1 a)

end Sys2Proof.Asm
end

