-- ==== Sys2Proof/Tests/Slice0.lean ====
section
/-! SUPPORT. The model's own tests: ill-formed operands the well-formedness check refuses, the decoding of words written
out from R93 and R95, one step of every instruction with the result spec/95_test_vectors.md gives, and, for the
hypotheses of each statement, states and operands that meet them. -/

open Sys2Proof Sys2Proof.Machine Sys2Proof.Spec

namespace Sys2Proof.Tests

/-! ## Small states -/

/-- A region of a capacity with the values on it, listed from the top down. -/
def stackOf (cap : Nat) : List Value → OperandStack
  | [] => { mem := Memory.blank cap, top := Config.emptyTop, count := 0 }
  | v :: below => (stackOf cap below).putOn below v

/-- The state the vectors of spec/95_test_vectors.md start in: `MEM_CAP = 256` and the instruction at 20. -/
def start (k : OperandStack) : State := { State.reset with mem := Memory.blank 256, stk := k, ip := 20 }

/-- The state with a typed value in main memory. -/
def put (s : State) (a : Nat) (ty : ValTy) (w : Word) : State := { s with mem := s.mem.store a ty w }

/-- An empty operand stack. -/
def noStack : OperandStack := stackOf 64 []

/-- The values of a stack, from the top down, as `n` pops answer them. -/
def live : Nat → OperandStack → List Value
  | 0, _ => []
  | n + 1, k =>
    match pop k with
    | .ok r => r.1 :: live n r.2
    | .error _ => []

/-- The next state of an outcome. -/
def nextOf : Host.Outcome State Fault Refusal → Option State
  | .next t => some t
  | .fault _ => none
  | .refused _ => none

/-- The fault kind, `ip` and operand stack after an instruction. -/
def seen (o : Host.Outcome State Fault Refusal) : Option (FaultKind × Word × List Value) :=
  (nextOf o).map fun t => (t.faultKind, t.ip, live t.stk.count.toNat t.stk)

/-- The fault kind, `ip` and a typed view of main memory at `a` after an instruction. -/
def stored (a code : Word) (o : Host.Outcome State Fault Refusal) : Option (FaultKind × Word × Option (Word × Tag)) :=
  (nextOf o).map fun t => (t.faultKind, t.ip, readMemory t a code)

/-- The fault kind, `ip` and events after an instruction. -/
def emitted (o : Host.Outcome State Fault Refusal) : Option (FaultKind × Word × List Event) :=
  (nextOf o).map fun t => (t.faultKind, t.ip, t.events)

/-! ## Well-formed operands (R91, R99) -/

theorem test_operands_too_few : operandsOk .f2 [1] = false := by decide
theorem test_operands_too_many : operandsOk .f0 [1] = false := by decide
theorem test_operand_too_large : operandsOk .f1 [4294967296] = false := by decide
theorem test_operand_too_small : operandsOk .f1 [-2147483649] = false := by decide
theorem test_operands_at_the_bounds :
    operandsOk .f3 [-2147483648, 0, 4294967295] = true ∧ (Instr.setr 0xFFFFFFFF 7).wellFormed = true := by decide

/-! ## Decoding (R93, R95): words written out from the opcode map and the field layout -/

theorem test_decode_control :
    decodeTableWord 8 0x00 = some .die
      ∧ decodeTableWord 8 0x01 = some .nop
      ∧ decodeTableWord 8 0x02 = some .testDie
      ∧ decodeTableWord 40 0x0102030403 = some (.call 0x01020304)
      ∧ decodeTableWord 8 0x04 = some .ret := by decide

theorem test_decode_jumps :
    decodeTableWord 40 0x0102030405 = some (.jmp 0x01020304)
      ∧ decodeTableWord 40 0x0102030406 = some (.je 0x01020304)
      ∧ decodeTableWord 40 0x0102030407 = some (.jn 0x01020304)
      ∧ decodeTableWord 40 0x0102030408 = some (.jl 0x01020304)
      ∧ decodeTableWord 40 0x0102030409 = some (.jg 0x01020304)
      ∧ decodeTableWord 40 0x010203040A = some (.jls 0x01020304)
      ∧ decodeTableWord 40 0x010203040B = some (.jgs 0x01020304) := by decide

theorem test_decode_loop :
    decodeTableWord 104 0x80000001A0B0C0D0010203040C = some (.loop 0x01020304 0xA0B0C0D0 0x80000001)
      ∧ decodeTableWord 8 0x0D = some .lcont
      ∧ decodeTableWord 8 0x0E = some .lbrk := by decide

theorem test_decode_stack_and_memory :
    decodeTableWord 40 0x010203040F = some (.psh 0x01020304)
      ∧ decodeTableWord 8 0x10 = some .pop
      ∧ decodeTableWord 8 0x11 = some .pop2
      ∧ decodeTableWord 40 0x0102030412 = some (.popn 0x01020304)
      ∧ decodeTableWord 40 0x0102030413 = some (.pshfr 0x01020304)
      ∧ decodeTableWord 40 0x0102030414 = some (.poptr 0x01020304)
      ∧ decodeTableWord 40 0x0102030415 = some (.movtr 0x01020304)
      ∧ decodeTableWord 72 0xA0B0C0D00102030416 = some (.stktr 0x01020304 0xA0B0C0D0)
      ∧ decodeTableWord 72 0xA0B0C0D00102030417 = some (.cpyr 0x01020304 0xA0B0C0D0)
      ∧ decodeTableWord 72 0xA0B0C0D00102030418 = some (.setr 0x01020304 0xA0B0C0D0)
      ∧ decodeTableWord 40 0x0102030419 = some (.pshfrr 0x01020304)
      ∧ decodeTableWord 8 0x1A = some .pshfrs := by decide

theorem test_decode_unsigned_arithmetic :
    decodeTableWord 8 0x1B = some .inc
      ∧ decodeTableWord 8 0x1C = some .dec
      ∧ decodeTableWord 8 0x1D = some .add
      ∧ decodeTableWord 8 0x1E = some .sub
      ∧ decodeTableWord 8 0x1F = some .mul
      ∧ decodeTableWord 8 0x20 = some .div
      ∧ decodeTableWord 8 0x21 = some .mod := by decide

theorem test_decode_signed_arithmetic :
    decodeTableWord 8 0x22 = some .incs
      ∧ decodeTableWord 8 0x23 = some .decs
      ∧ decodeTableWord 8 0x24 = some .adds
      ∧ decodeTableWord 8 0x25 = some .subs
      ∧ decodeTableWord 8 0x26 = some .muls
      ∧ decodeTableWord 8 0x27 = some .divs
      ∧ decodeTableWord 8 0x28 = some .mods := by decide

theorem test_decode_unsigned_bitwise :
    decodeTableWord 8 0x29 = some .and
      ∧ decodeTableWord 8 0x2A = some .not
      ∧ decodeTableWord 8 0x2B = some .xor
      ∧ decodeTableWord 8 0x2C = some .or
      ∧ decodeTableWord 8 0x2D = some .lshft
      ∧ decodeTableWord 8 0x2E = some .rshft
      ∧ decodeTableWord 8 0x2F = some .lrot
      ∧ decodeTableWord 8 0x30 = some .rrot := by decide

theorem test_decode_signed_bitwise :
    decodeTableWord 8 0x31 = some .ands
      ∧ decodeTableWord 8 0x32 = some .nots
      ∧ decodeTableWord 8 0x33 = some .xors
      ∧ decodeTableWord 8 0x34 = some .ors
      ∧ decodeTableWord 8 0x35 = some .lshfts
      ∧ decodeTableWord 8 0x36 = some .rshfts
      ∧ decodeTableWord 8 0x37 = some .lrots
      ∧ decodeTableWord 8 0x38 = some .rrots := by decide

theorem test_decode_inspection :
    decodeTableWord 72 0xA0B0C0D00102030439 = some (.nspctr 0x01020304 0xA0B0C0D0)
      ∧ decodeTableWord 72 0xA0B0C0D0010203043A = some (.nspctst 0x01020304 0xA0B0C0D0)
      ∧ decodeTableWord 8 0x3B = some .brkp := by decide

/-- R94, R96, 95_test_vectors.md 2.1: what does not decode, and why. -/
theorem test_decode_refuses :
    decodeTableWord 8 0x3C = none ∧ decodeTableWord 8 0xFF = none
      ∧ decode [] = .error .truncated ∧ decode [0x3C] = .error .unknownOpcode
      ∧ decode [0x0F, 0x01, 0x00] = .error .truncated ∧ decode [0x18, 0, 0, 0, 0, 1, 2, 3] = .error .truncated :=
  ⟨by decide, by decide, rfl, rfl, rfl, rfl⟩

/-- R99, 95_test_vectors.md 1.4: the bytes of a program with a label. -/
theorem test_assemble : Asm.assemble ".u32 4\n call sub ; to 10\n die\nsub: psh 1\n ret"
    = .ok [4, 0, 0, 0, 0x03, 10, 0, 0, 0, 0x00, 0x0F, 1, 0, 0, 0, 0x04] := rfl

/-- R99: `.org`, `.u8`, a negative and a hexadecimal number. -/
theorem test_assemble_numbers :
    (Asm.assemble ".org 2\n.u8 0xFF\npsh -2").toOption = some [0, 0, 0xFF, 0x0F, 0xFE, 0xFF, 0xFF, 0xFF] := by decide

/-- R99: a label is the address of the next byte emitted, past a `.org`. -/
theorem test_assemble_label_before_org : (Asm.assemble "a:\n.org 2\n.u8 a\nb:").toOption = some [0, 0, 2] := by decide

/-- R99: an operand too few, and a label no line defines. -/
theorem test_assemble_refuses_operands : Asm.assemble "nop\nsetr 1" = .error (2, .badOperands) := rfl
theorem test_assemble_refuses_labels : Asm.assemble "jmp there" = .error (1, .unknownLabel) := rfl

/-! ## One step of each instruction (95_test_vectors.md part 2) -/

/-- R110. -/
theorem test_die :
    ((nextOf (exec .die (start noStack))).map fun t => (t.status, t.exitCode, t.ip)) = some (.halted, 0, 20) := by decide

/-- R111. -/
theorem test_nop :
    seen (exec .nop (start noStack)) = some (.none, 21, []) := by decide

/-- R112. -/
theorem test_test_die :
    emitted (exec .testDie (start noStack)) = some (.none, 21, [.checkpoint 20]) := by decide

/-- R113. -/
theorem test_call :
    ((nextOf (exec (.call 10) (start noStack))).map fun t => (t.ip, t.calls.depth, t.calls.entry 0)) =
        some (10, 1, 25) := by decide

/-- R113, at depth 1000. -/
theorem test_call_overflow :
    seen (exec (.call 10) { start noStack with calls := { entries := [], depth := 1000 } }) =
        some (.callStackOverflow, 20, []) := by decide

/-- R114. -/
theorem test_ret :
    ((nextOf (exec .ret { start noStack with calls := { entries := [(0, 9)], depth := 1 } })).map fun t => (t.ip, t.calls.depth)) =
        some (9, 0) := by decide

/-- R114. -/
theorem test_ret_underflow :
    seen (exec .ret (start noStack)) = some (.callStackUnderflow, 20, []) := by decide

/-- R120. -/
theorem test_jmp :
    seen (exec (.jmp 300) (start noStack)) = some (.none, 300, []) := by decide

/-- R121, tags ignored. -/
theorem test_je :
    seen (exec (.je 50) (start (stackOf 64 [(.u32, 7), (.u32, 7)]))) =
        some (.none, 50, [(.u32, 7), (.u32, 7)])
      ∧ seen (exec (.je 50) (start (stackOf 64 [(.u32, 8), (.u32, 7)]))) =
        some (.none, 25, [(.u32, 8), (.u32, 7)])
      ∧ seen (exec (.je 50) (start (stackOf 64 [(.i32, 5), (.u32, 5)]))) =
        some (.none, 50, [(.i32, 5), (.u32, 5)]) := by
  refine ⟨?_, ?_, ?_⟩ <;> decide

/-- R121: the 4-byte read passes `STACK_CAP`. -/
theorem test_je_past_the_region :
    seen (exec (.je 50) (start (stackOf 6 [(.u8, 1), (.u32, 1)]))) =
        some (.invalidAddress, 20, [(.u8, 1), (.u32, 1)])
      ∧ seen (exec (.je 50) (start (stackOf 64 [(.u32, 7)]))) = some (.stackUnderflow, 20, [(.u32, 7)]) := by
  refine ⟨?_, ?_⟩ <;> decide

/-- R122. -/
theorem test_jn :
    seen (exec (.jn 50) (start (stackOf 64 [(.u32, 7), (.u32, 7)]))) =
        some (.none, 25, [(.u32, 7), (.u32, 7)])
      ∧ seen (exec (.jn 50) (start (stackOf 64 [(.u32, 8), (.u32, 7)]))) =
        some (.none, 50, [(.u32, 8), (.u32, 7)]) := by
  refine ⟨?_, ?_⟩ <;> decide

/-- R123: top less than second, unsigned. -/
theorem test_jl :
    seen (exec (.jl 50) (start (stackOf 64 [(.u32, 3), (.u32, 9)]))) =
        some (.none, 50, [(.u32, 3), (.u32, 9)])
      ∧ seen (exec (.jl 50) (start (stackOf 64 [(.u32, 9), (.u32, 3)]))) =
        some (.none, 25, [(.u32, 9), (.u32, 3)])
      ∧ seen (exec (.jl 50) (start (stackOf 64 [(.u32, 3), (.u32, 3)]))) =
        some (.none, 25, [(.u32, 3), (.u32, 3)])
      ∧ seen (exec (.jl 50) (start (stackOf 64 [(.u32, 0xffffffff), (.u32, 0)]))) =
        some (.none, 25, [(.u32, 0xffffffff), (.u32, 0)]) := by
  refine ⟨?_, ?_, ?_, ?_⟩ <;> decide

/-- R123. -/
theorem test_jl_types :
    seen (exec (.jl 50) (start (stackOf 64 [(.u8, 0), (.u32, 1)]))) =
        some (.typeMismatch, 20, [(.u8, 0), (.u32, 1)])
      ∧ seen (exec (.jl 50) (start (stackOf 64 [(.u32, 1), (.u8, 0)]))) =
        some (.typeMismatch, 20, [(.u32, 1), (.u8, 0)]) := by
  refine ⟨?_, ?_⟩ <;> decide

/-- R124: top greater than second, unsigned. -/
theorem test_jg :
    seen (exec (.jg 50) (start (stackOf 64 [(.u32, 9), (.u32, 3)]))) =
        some (.none, 50, [(.u32, 9), (.u32, 3)])
      ∧ seen (exec (.jg 50) (start (stackOf 64 [(.u32, 3), (.u32, 9)]))) =
        some (.none, 25, [(.u32, 3), (.u32, 9)])
      ∧ seen (exec (.jg 50) (start (stackOf 64 [(.u32, 3), (.u32, 3)]))) =
        some (.none, 25, [(.u32, 3), (.u32, 3)]) := by
  refine ⟨?_, ?_, ?_⟩ <;> decide

/-- R125: top less than second, signed. -/
theorem test_jls :
    seen (exec (.jls 50) (start (stackOf 64 [(.u32, 0xffffffff), (.u32, 0)]))) =
        some (.none, 50, [(.u32, 0xffffffff), (.u32, 0)])
      ∧ seen (exec (.jls 50) (start (stackOf 64 [(.u32, 0), (.u32, 0xffffffff)]))) =
        some (.none, 25, [(.u32, 0), (.u32, 0xffffffff)])
      ∧ seen (exec (.jls 50) (start (stackOf 64 [(.u32, 0x80000000), (.u32, 0x7fffffff)]))) =
        some (.none, 50, [(.u32, 0x80000000), (.u32, 0x7fffffff)]) := by
  refine ⟨?_, ?_, ?_⟩ <;> decide

/-- R126: top greater than second, signed. -/
theorem test_jgs :
    seen (exec (.jgs 50) (start (stackOf 64 [(.u32, 0), (.u32, 0xfffffffd)]))) =
        some (.none, 50, [(.u32, 0), (.u32, 0xfffffffd)])
      ∧ seen (exec (.jgs 50) (start (stackOf 64 [(.u32, 0xfffffffd), (.u32, 0)]))) =
        some (.none, 25, [(.u32, 0xfffffffd), (.u32, 0)])
      ∧ seen (exec (.jgs 50) (start (stackOf 64 [(.i32, 0xffffffff), (.i32, 0xffffffff)]))) =
        some (.none, 25, [(.i32, 0xffffffff), (.i32, 0xffffffff)]) := by
  refine ⟨?_, ?_, ?_⟩ <;> decide

/-- R130. -/
theorem test_loop :
    ((nextOf (exec (.loop 3 22 24) { start noStack with lp := { counter := 0, bodyAddr := 0, endAddr := 0, active := false } })).map fun t => (t.faultKind, t.ip, t.lp)) =
        some (.none, 22, { counter := 3, bodyAddr := 22, endAddr := 24, active := true })
      ∧ ((nextOf (exec (.loop 3 22 24) { start noStack with lp := { counter := 1, bodyAddr := 22, endAddr := 24, active := true } })).map fun t => (t.faultKind, t.ip, t.lp)) =
        some (.nestedLoop, 20, { counter := 1, bodyAddr := 22, endAddr := 24, active := true }) := by
  refine ⟨?_, ?_⟩ <;> decide

/-- R131, counters 3 and 1. -/
theorem test_lcont :
    ((nextOf (exec .lcont { start noStack with lp := { counter := 3, bodyAddr := 22, endAddr := 24, active := true } })).map fun t => (t.faultKind, t.ip, t.lp)) =
        some (.none, 22, { counter := 2, bodyAddr := 22, endAddr := 24, active := true })
      ∧ ((nextOf (exec .lcont { start noStack with lp := { counter := 1, bodyAddr := 22, endAddr := 24, active := true } })).map fun t => (t.faultKind, t.ip, t.lp)) =
        some (.none, 24, { counter := 0, bodyAddr := 22, endAddr := 24, active := false }) := by
  refine ⟨?_, ?_⟩ <;> decide

/-- R131, counter 0 and no context. -/
theorem test_lcont_corners :
    ((nextOf (exec .lcont { start noStack with lp := { counter := 0, bodyAddr := 22, endAddr := 24, active := true } })).map fun t => (t.faultKind, t.ip, t.lp)) =
        some (.none, 24, { counter := 0, bodyAddr := 22, endAddr := 24, active := false })
      ∧ ((nextOf (exec .lcont { start noStack with lp := { counter := 3, bodyAddr := 22, endAddr := 24, active := false } })).map fun t => (t.faultKind, t.ip, t.lp)) =
        some (.noActiveLoop, 20, { counter := 3, bodyAddr := 22, endAddr := 24, active := false }) := by
  refine ⟨?_, ?_⟩ <;> decide

/-- R132. -/
theorem test_lbrk :
    ((nextOf (exec .lbrk { start noStack with lp := { counter := 2, bodyAddr := 22, endAddr := 24, active := true } })).map fun t => (t.faultKind, t.ip, t.lp)) =
        some (.none, 24, { counter := 2, bodyAddr := 22, endAddr := 24, active := false })
      ∧ ((nextOf (exec .lbrk { start noStack with lp := { counter := 2, bodyAddr := 22, endAddr := 24, active := false } })).map fun t => (t.faultKind, t.ip, t.lp)) =
        some (.noActiveLoop, 20, { counter := 2, bodyAddr := 22, endAddr := 24, active := false }) := by
  refine ⟨?_, ?_⟩ <;> decide

/-- R140, over a `Uint8`. -/
theorem test_psh :
    seen (exec (.psh 9) (start (stackOf 64 [(.u8, 7), (.u32, 1)]))) =
        some (.none, 25, [(.u32, 9), (.u8, 7), (.u32, 1)]) := by decide

/-- R140, R72. -/
theorem test_psh_overflow :
    seen (exec (.psh 5) (start (stackOf 4 [(.u32, 1)]))) = some (.stackOverflow, 20, [(.u32, 1)])
      ∧ seen (exec (.psh 5) (start (stackOf 8 [(.u32, 1)]))) = some (.none, 25, [(.u32, 5), (.u32, 1)]) := by
  refine ⟨?_, ?_⟩ <;> decide

/-- R141. -/
theorem test_pop :
    seen (exec .pop (start (stackOf 64 [(.u32, 2), (.u32, 1)]))) = some (.none, 21, [(.u32, 1)])
      ∧ seen (exec .pop (start (stackOf 64 []))) = some (.stackUnderflow, 20, []) := by
  refine ⟨?_, ?_⟩ <;> decide

/-- R142. -/
theorem test_pop2 :
    seen (exec .pop2 (start (stackOf 64 [(.u32, 3), (.u32, 2), (.u32, 1)]))) =
        some (.none, 21, [(.u32, 1)])
      ∧ seen (exec .pop2 (start (stackOf 64 [(.u32, 1)]))) = some (.stackUnderflow, 20, [(.u32, 1)]) := by
  refine ⟨?_, ?_⟩ <;> decide

/-- R143. -/
theorem test_popn :
    seen (exec (.popn 0) (start (stackOf 64 [(.u32, 1)]))) = some (.none, 25, [(.u32, 1)])
      ∧ seen (exec (.popn 3) (start (stackOf 64 [(.u32, 3), (.u32, 2), (.u32, 1)]))) = some (.none, 25, [])
      ∧ seen (exec (.popn 4) (start (stackOf 64 [(.u32, 3), (.u32, 2), (.u32, 1)]))) =
        some (.stackUnderflow, 20, [(.u32, 3), (.u32, 2), (.u32, 1)]) := by
  refine ⟨?_, ?_, ?_⟩ <;> decide

/-- R144: the value with its own type. -/
theorem test_pshfr :
    seen (exec (.pshfr 100) (put (start (stackOf 64 [])) 100 .i32 0xffffffff)) =
        some (.none, 25, [(.i32, 0xffffffff)]) := by decide

/-- R144, R57: a tail byte, and a broken tail. -/
theorem test_pshfr_types :
    seen (exec (.pshfr 101) (put (start (stackOf 64 [])) 100 .u32 7)) = some (.typeMismatch, 20, [])
      ∧ seen (exec (.pshfr 100) (put (put (start (stackOf 64 [])) 100 .u32 7) 102 .u8 1)) =
        some (.typeMismatch, 20, []) := by
  refine ⟨?_, ?_⟩ <;> decide

/-- R145. -/
theorem test_poptr :
    stored 104 1 (exec (.poptr 104) (start (stackOf 64 [(.i32, 0xfffffffe)]))) =
        some (.none, 25, some (0xFFFFFFFE, .int32Head))
      ∧ seen (exec (.poptr 104) (start (stackOf 64 [(.i32, 0xfffffffe)]))) = some (.none, 25, []) := by
  refine ⟨?_, ?_⟩ <;> decide

/-- R145: nothing is popped. -/
theorem test_poptr_out_of_memory :
    seen (exec (.poptr 253) (start (stackOf 64 [(.u32, 8)]))) = some (.invalidAddress, 20, [(.u32, 8)]) := by decide

/-- R146. -/
theorem test_movtr :
    stored 104 0 (exec (.movtr 104) (start (stackOf 64 [(.u32, 8)]))) =
        some (.none, 25, some (8, .uint32Head))
      ∧ seen (exec (.movtr 104) (start (stackOf 64 [(.u32, 8)]))) = some (.none, 25, [(.u32, 8)]) := by
  refine ⟨?_, ?_⟩ <;> decide

/-- R147. -/
theorem test_stktr :
    stored 200 0 (exec (.stktr 0 200) (start (stackOf 64 [(.u32, 2), (.u32, 1)]))) =
        some (.none, 29, some (1, .uint32Head))
      ∧ stored 200 0 (exec (.stktr 4 200) (start (stackOf 64 [(.u32, 2), (.u32, 1)]))) =
        some (.none, 29, some (2, .uint32Head)) := by
  refine ⟨?_, ?_⟩ <;> decide

/-- R147: inside a value, at the end of the live stack, and a destination out of memory. -/
theorem test_stktr_faults :
    seen (exec (.stktr 2 200) (start (stackOf 64 [(.u32, 2), (.u32, 1)]))) =
        some (.typeMismatch, 20, [(.u32, 2), (.u32, 1)])
      ∧ seen (exec (.stktr 8 200) (start (stackOf 64 [(.u32, 2), (.u32, 1)]))) =
        some (.invalidAddress, 20, [(.u32, 2), (.u32, 1)])
      ∧ seen (exec (.stktr 0 254) (start (stackOf 64 [(.u32, 1)]))) = some (.invalidAddress, 20, [(.u32, 1)]) := by
  refine ⟨?_, ?_, ?_⟩ <;> decide

/-- R148, R59: over its own source, whose head stays and whose tails break. -/
theorem test_cpyr :
    stored 106 0 (exec (.cpyr 104 106) (put (start (stackOf 64 [])) 104 .u32 0x11223344)) =
        some (.none, 29, some (0x11223344, .uint32Head))
      ∧ stored 104 0 (exec (.cpyr 104 106) (put (start (stackOf 64 [])) 104 .u32 0x11223344)) =
        some (.none, 29, some (0x33443344, .uint32Head)) := by
  refine ⟨?_, ?_⟩ <;> decide

/-- R148. -/
theorem test_cpyr_untagged :
    seen (exec (.cpyr 104 108) (start (stackOf 64 []))) = some (.typeMismatch, 20, []) := by decide

/-- R149, in the last 4 bytes. -/
theorem test_setr :
    stored 252 0 (exec (.setr 252 0xFFFFFFFF) (start (stackOf 64 []))) =
        some (.none, 29, some (0xFFFFFFFF, .uint32Head))
      ∧ seen (exec (.setr 253 7) (start (stackOf 64 []))) = some (.invalidAddress, 20, []) := by
  refine ⟨?_, ?_⟩ <;> decide

/-- R150. -/
theorem test_pshfrr :
    seen (exec (.pshfrr 112) (put (put (start (stackOf 64 [])) 112 .u32 0x68) 104 .u32 15)) =
        some (.none, 25, [(.u32, 15)]) := by decide

/-- R150: a `Uint8` pointer, and one out of memory. -/
theorem test_pshfrr_faults :
    seen (exec (.pshfrr 112) (put (start (stackOf 64 [])) 112 .u8 0)) = some (.typeMismatch, 20, [])
      ∧ seen (exec (.pshfrr 112) (put (start (stackOf 64 [])) 112 .u32 0x3e8)) =
        some (.invalidAddress, 20, []) := by
  refine ⟨?_, ?_⟩ <;> decide

/-- R151. -/
theorem test_pshfrs :
    seen (exec .pshfrs (put (put (start (stackOf 64 [(.u32, 0x70), (.u32, 5)])) 112 .u32 0x68) 104 .i32 0xfffffff0)) =
        some (.none, 21, [(.i32, 0xfffffff0), (.u32, 5)]) := by decide

/-- R151. -/
theorem test_pshfrs_untagged :
    seen (exec .pshfrs (start (stackOf 64 [(.u32, 0x70)]))) = some (.typeMismatch, 20, [(.u32, 0x70)]) := by decide

/-- R162. -/
theorem test_inc :
    seen (exec .inc (start (stackOf 64 [(.i32, 0xffffffff)]))) = some (.none, 21, [(.u32, 0)])
      ∧ seen (exec .inc (start (stackOf 64 [(.u32, 7)]))) = some (.none, 21, [(.u32, 8)])
      ∧ seen (exec .inc (start (stackOf 64 []))) = some (.stackUnderflow, 20, []) := by
  refine ⟨?_, ?_, ?_⟩ <;> decide

/-- R163. -/
theorem test_dec :
    seen (exec .dec (start (stackOf 64 [(.u32, 0)]))) = some (.none, 21, [(.u32, 0xffffffff)]) := by decide

/-- R164. -/
theorem test_add :
    seen (exec .add (start (stackOf 64 [(.u32, 3), (.u32, 5)]))) = some (.none, 21, [(.u32, 8)])
      ∧ seen (exec .add (start (stackOf 64 [(.u32, 1), (.u32, 0xffffffff)]))) = some (.none, 21, [(.u32, 0)])
      ∧ seen (exec .add (start (stackOf 64 [(.u32, 1)]))) = some (.stackUnderflow, 20, [(.u32, 1)])
      ∧ seen (exec .add (start (stackOf 64 [(.u8, 2), (.u32, 1)]))) =
        some (.typeMismatch, 20, [(.u8, 2), (.u32, 1)]) := by
  refine ⟨?_, ?_, ?_, ?_⟩ <;> decide

/-- R165. -/
theorem test_sub :
    seen (exec .sub (start (stackOf 64 [(.u32, 4), (.u32, 10)]))) = some (.none, 21, [(.u32, 6)])
      ∧ seen (exec .sub (start (stackOf 64 [(.u32, 5), (.u32, 3)]))) = some (.none, 21, [(.u32, 0xfffffffe)]) := by
  refine ⟨?_, ?_⟩ <;> decide

/-- R166. -/
theorem test_mul :
    seen (exec .mul (start (stackOf 64 [(.u32, 6), (.u32, 7)]))) = some (.none, 21, [(.u32, 42)])
      ∧ seen (exec .mul (start (stackOf 64 [(.u32, 0x10000), (.u32, 0x10000)]))) =
        some (.none, 21, [(.u32, 0)])
      ∧ seen (exec .mul (start (stackOf 64 [(.u32, 0xffffffff), (.u32, 0xffffffff)]))) =
        some (.none, 21, [(.u32, 1)]) := by
  refine ⟨?_, ?_, ?_⟩ <;> decide

/-- R167. -/
theorem test_div :
    seen (exec .div (start (stackOf 64 [(.u32, 2), (.u32, 7)]))) = some (.none, 21, [(.u32, 3)])
      ∧ seen (exec .div (start (stackOf 64 [(.u32, 7), (.u32, 3)]))) = some (.none, 21, [(.u32, 0)])
      ∧ seen (exec .div (start (stackOf 64 [(.u32, 1), (.u32, 0xffffffff)]))) =
        some (.none, 21, [(.u32, 0xffffffff)])
      ∧ seen (exec .div (start (stackOf 64 [(.u32, 0), (.u32, 10)]))) =
        some (.divisionByZero, 20, [(.u32, 0), (.u32, 10)]) := by
  refine ⟨?_, ?_, ?_, ?_⟩ <;> decide

/-- R168. -/
theorem test_mod :
    seen (exec .mod (start (stackOf 64 [(.u32, 2), (.u32, 7)]))) = some (.none, 21, [(.u32, 1)])
      ∧ seen (exec .mod (start (stackOf 64 [(.u32, 7), (.u32, 3)]))) = some (.none, 21, [(.u32, 3)])
      ∧ seen (exec .mod (start (stackOf 64 [(.u32, 0), (.u32, 7)]))) =
        some (.divisionByZero, 20, [(.u32, 0), (.u32, 7)]) := by
  refine ⟨?_, ?_, ?_⟩ <;> decide

/-- R180. -/
theorem test_incs :
    seen (exec .incs (start (stackOf 64 [(.i32, 0xffffffff)]))) = some (.none, 21, [(.i32, 0)])
      ∧ seen (exec .incs (start (stackOf 64 [(.u32, 0x7fffffff)]))) = some (.none, 21, [(.i32, 0x80000000)]) := by
  refine ⟨?_, ?_⟩ <;> decide

/-- R181. -/
theorem test_decs :
    seen (exec .decs (start (stackOf 64 [(.u32, 0)]))) = some (.none, 21, [(.i32, 0xffffffff)])
      ∧ seen (exec .decs (start (stackOf 64 [(.u32, 0x80000000)]))) = some (.none, 21, [(.i32, 0x7fffffff)]) := by
  refine ⟨?_, ?_⟩ <;> decide

/-- R182. -/
theorem test_adds :
    seen (exec .adds (start (stackOf 64 [(.u32, 3), (.u32, 0xfffffffb)]))) =
        some (.none, 21, [(.i32, 0xfffffffe)])
      ∧ seen (exec .adds (start (stackOf 64 [(.u32, 1), (.u32, 0x7fffffff)]))) =
        some (.none, 21, [(.i32, 0x80000000)]) := by
  refine ⟨?_, ?_⟩ <;> decide

/-- R183. -/
theorem test_subs :
    seen (exec .subs (start (stackOf 64 [(.u32, 5), (.u32, 3)]))) = some (.none, 21, [(.i32, 0xfffffffe)])
      ∧ seen (exec .subs (start (stackOf 64 [(.u32, 1), (.u32, 0x80000000)]))) =
        some (.none, 21, [(.i32, 0x7fffffff)]) := by
  refine ⟨?_, ?_⟩ <;> decide

/-- R184. -/
theorem test_muls :
    seen (exec .muls (start (stackOf 64 [(.u32, 4), (.u32, 0xfffffffd)]))) =
        some (.none, 21, [(.i32, 0xfffffff4)])
      ∧ seen (exec .muls (start (stackOf 64 [(.u32, 0xffffffff), (.u32, 0x80000000)]))) =
        some (.none, 21, [(.i32, 0x80000000)]) := by
  refine ⟨?_, ?_⟩ <;> decide

/-- R185. -/
theorem test_divs :
    seen (exec .divs (start (stackOf 64 [(.u32, 2), (.u32, 0xfffffff9)]))) =
        some (.none, 21, [(.i32, 0xfffffffd)])
      ∧ seen (exec .divs (start (stackOf 64 [(.u32, 0xfffffffe), (.u32, 7)]))) =
        some (.none, 21, [(.i32, 0xfffffffd)])
      ∧ seen (exec .divs (start (stackOf 64 [(.u32, 0xfffffffe), (.u32, 0xfffffff9)]))) =
        some (.none, 21, [(.i32, 3)])
      ∧ seen (exec .divs (start (stackOf 64 [(.u32, 0xffffffff), (.u32, 0x80000000)]))) =
        some (.none, 21, [(.i32, 0x80000000)])
      ∧ seen (exec .divs (start (stackOf 64 [(.u32, 0), (.u32, 5)]))) =
        some (.divisionByZero, 20, [(.u32, 0), (.u32, 5)]) := by
  refine ⟨?_, ?_, ?_, ?_, ?_⟩ <;> decide

/-- R186. -/
theorem test_mods :
    seen (exec .mods (start (stackOf 64 [(.u32, 2), (.u32, 0xfffffff9)]))) =
        some (.none, 21, [(.i32, 0xffffffff)])
      ∧ seen (exec .mods (start (stackOf 64 [(.u32, 0xfffffffe), (.u32, 7)]))) = some (.none, 21, [(.i32, 1)])
      ∧ seen (exec .mods (start (stackOf 64 [(.u32, 0xfffffffe), (.u32, 0xfffffff9)]))) =
        some (.none, 21, [(.i32, 0xffffffff)])
      ∧ seen (exec .mods (start (stackOf 64 [(.u32, 0xffffffff), (.u32, 0x80000000)]))) =
        some (.none, 21, [(.i32, 0)])
      ∧ seen (exec .mods (start (stackOf 64 [(.u32, 0), (.u32, 5)]))) =
        some (.divisionByZero, 20, [(.u32, 0), (.u32, 5)]) := by
  refine ⟨?_, ?_, ?_, ?_, ?_⟩ <;> decide

/-- R200. -/
theorem test_and :
    seen (exec .and (start (stackOf 64 [(.u32, 0xff00), (.u32, 0xf0f0)]))) =
        some (.none, 21, [(.u32, 0xf000)]) := by decide

/-- R201. -/
theorem test_not :
    seen (exec .not (start (stackOf 64 [(.u32, 0xffff)]))) = some (.none, 21, [(.u32, 0xffff0000)])
      ∧ seen (exec .not (start (stackOf 64 [(.u32, 0)]))) = some (.none, 21, [(.u32, 0xffffffff)]) := by
  refine ⟨?_, ?_⟩ <;> decide

/-- R202. -/
theorem test_xor :
    seen (exec .xor (start (stackOf 64 [(.u32, 0xff0), (.u32, 0xff00)]))) =
        some (.none, 21, [(.u32, 0xf0f0)]) := by decide

/-- R203. -/
theorem test_or :
    seen (exec .or (start (stackOf 64 [(.u32, 15), (.u32, 0xf000)]))) = some (.none, 21, [(.u32, 0xf00f)]) := by decide

/-- R204. -/
theorem test_lshft :
    seen (exec .lshft (start (stackOf 64 [(.u32, 4), (.u32, 1)]))) = some (.none, 21, [(.u32, 16)])
      ∧ seen (exec .lshft (start (stackOf 64 [(.u32, 31), (.u32, 3)]))) =
        some (.none, 21, [(.u32, 0x80000000)])
      ∧ seen (exec .lshft (start (stackOf 64 [(.u32, 32), (.u32, 1)]))) = some (.none, 21, [(.u32, 0)])
      ∧ seen (exec .lshft (start (stackOf 64 [(.u32, 0xffffffff), (.u32, 1)]))) =
        some (.none, 21, [(.u32, 0)])
      ∧ seen (exec .lshft (start (stackOf 64 [(.u32, 0), (.u32, 5)]))) = some (.none, 21, [(.u32, 5)]) := by
  refine ⟨?_, ?_, ?_, ?_, ?_⟩ <;> decide

/-- R205. -/
theorem test_rshft :
    seen (exec .rshft (start (stackOf 64 [(.u32, 4), (.u32, 0x100)]))) = some (.none, 21, [(.u32, 16)])
      ∧ seen (exec .rshft (start (stackOf 64 [(.u32, 31), (.u32, 0x80000000)]))) =
        some (.none, 21, [(.u32, 1)])
      ∧ seen (exec .rshft (start (stackOf 64 [(.u32, 32), (.u32, 0x80000000)]))) =
        some (.none, 21, [(.u32, 0)])
      ∧ seen (exec .rshft (start (stackOf 64 [(.u32, 2), (.i32, 0xfffffff0)]))) =
        some (.none, 21, [(.u32, 0x3ffffffc)]) := by
  refine ⟨?_, ?_, ?_, ?_⟩ <;> decide

/-- R206. -/
theorem test_lrot :
    seen (exec .lrot (start (stackOf 64 [(.u32, 1), (.u32, 0x80000001)]))) = some (.none, 21, [(.u32, 3)])
      ∧ seen (exec .lrot (start (stackOf 64 [(.u32, 8), (.u32, 0x12345678)]))) =
        some (.none, 21, [(.u32, 0x34567812)])
      ∧ seen (exec .lrot (start (stackOf 64 [(.u32, 32), (.u32, 0x12345678)]))) =
        some (.none, 21, [(.u32, 0x12345678)])
      ∧ seen (exec .lrot (start (stackOf 64 [(.u32, 36), (.u32, 0x12345678)]))) =
        some (.none, 21, [(.u32, 0x23456781)]) := by
  refine ⟨?_, ?_, ?_, ?_⟩ <;> decide

/-- R207. -/
theorem test_rrot :
    seen (exec .rrot (start (stackOf 64 [(.u32, 1), (.u32, 3)]))) = some (.none, 21, [(.u32, 0x80000001)])
      ∧ seen (exec .rrot (start (stackOf 64 [(.u32, 8), (.u32, 0x12345678)]))) =
        some (.none, 21, [(.u32, 0x78123456)])
      ∧ seen (exec .rrot (start (stackOf 64 [(.u32, 64), (.u32, 0x12345678)]))) =
        some (.none, 21, [(.u32, 0x12345678)]) := by
  refine ⟨?_, ?_, ?_⟩ <;> decide

/-- R220. -/
theorem test_ands :
    seen (exec .ands (start (stackOf 64 [(.u32, 15), (.u32, 0xfffffff0)]))) =
        some (.none, 21, [(.i32, 0)]) := by decide

/-- R221. -/
theorem test_nots :
    seen (exec .nots (start (stackOf 64 [(.u32, 5)]))) = some (.none, 21, [(.i32, 0xfffffffa)])
      ∧ seen (exec .nots (start (stackOf 64 [(.u32, 0)]))) = some (.none, 21, [(.i32, 0xffffffff)]) := by
  refine ⟨?_, ?_⟩ <;> decide

/-- R222. -/
theorem test_xors :
    seen (exec .xors (start (stackOf 64 [(.u32, 1), (.u32, 0xffffffff)]))) =
        some (.none, 21, [(.i32, 0xfffffffe)]) := by decide

/-- R223. -/
theorem test_ors :
    seen (exec .ors (start (stackOf 64 [(.u32, 1), (.u32, 0x80000000)]))) =
        some (.none, 21, [(.i32, 0x80000001)]) := by decide

/-- R224. -/
theorem test_lshfts :
    seen (exec .lshfts (start (stackOf 64 [(.u32, 4), (.u32, 0xffffffff)]))) =
        some (.none, 21, [(.i32, 0xfffffff0)])
      ∧ seen (exec .lshfts (start (stackOf 64 [(.u32, 31), (.u32, 1)]))) =
        some (.none, 21, [(.i32, 0x80000000)])
      ∧ seen (exec .lshfts (start (stackOf 64 [(.u32, 0xffffffff), (.u32, 1)]))) =
        some (.none, 21, [(.i32, 0)]) := by
  refine ⟨?_, ?_, ?_⟩ <;> decide

/-- R225. -/
theorem test_rshfts :
    seen (exec .rshfts (start (stackOf 64 [(.u32, 4), (.u32, 0xffffff00)]))) =
        some (.none, 21, [(.i32, 0xfffffff0)])
      ∧ seen (exec .rshfts (start (stackOf 64 [(.u32, 1), (.u32, 0xfffffff9)]))) =
        some (.none, 21, [(.i32, 0xfffffffc)])
      ∧ seen (exec .rshfts (start (stackOf 64 [(.u32, 40), (.u32, 0xffffffff)]))) =
        some (.none, 21, [(.i32, 0xffffffff)])
      ∧ seen (exec .rshfts (start (stackOf 64 [(.u32, 40), (.u32, 0x7fffffff)]))) =
        some (.none, 21, [(.i32, 0)])
      ∧ seen (exec .rshfts (start (stackOf 64 [(.u32, 0), (.u32, 0xfffffff8)]))) =
        some (.none, 21, [(.i32, 0xfffffff8)]) := by
  refine ⟨?_, ?_, ?_, ?_, ?_⟩ <;> decide

/-- R226. -/
theorem test_lrots :
    seen (exec .lrots (start (stackOf 64 [(.u32, 1), (.u32, 0x80000000)]))) =
        some (.none, 21, [(.i32, 1)]) := by decide

/-- R227. -/
theorem test_rrots :
    seen (exec .rrots (start (stackOf 64 [(.u32, 1), (.u32, 1)]))) =
        some (.none, 21, [(.i32, 0x80000000)]) := by decide

/-- R240: raw, whatever the tag. -/
theorem test_nspctr :
    emitted (exec (.nspctr 1 104) (put (start (stackOf 64 [])) 104 .i32 0xfffffff6)) =
        some (.none, 29, [.inspect .mem 104 1 0xFFFFFFF6])
      ∧ emitted (exec (.nspctr 2 105) (put (start (stackOf 64 [])) 104 .u32 15)) =
        some (.none, 29, [.inspect .mem 105 2 0])
      ∧ emitted (exec (.nspctr 2 255) (start (stackOf 64 []))) = some (.none, 29, [.inspect .mem 255 2 0]) := by
  refine ⟨?_, ?_, ?_⟩ <;> decide

/-- R240. -/
theorem test_nspctr_faults :
    emitted (exec (.nspctr 2 256) (start (stackOf 64 []))) = some (.invalidAddress, 20, [])
      ∧ emitted (exec (.nspctr 0 253) (start (stackOf 64 []))) = some (.invalidAddress, 20, [])
      ∧ emitted (exec (.nspctr 3 104) (start (stackOf 64 []))) = some (.typeMismatch, 20, []) := by
  refine ⟨?_, ?_, ?_⟩ <;> decide

/-- R241. -/
theorem test_nspctst :
    emitted (exec (.nspctst 0 4) (start (stackOf 64 [(.u32, 2), (.u32, 1)]))) =
        some (.none, 29, [.inspect .stack 4 0 1])
      ∧ emitted (exec (.nspctst 2 1) (start (stackOf 64 [(.u32, 2), (.u32, 1)]))) =
        some (.none, 29, [.inspect .stack 1 2 0]) := by
  refine ⟨?_, ?_⟩ <;> decide

/-- R241. -/
theorem test_nspctst_faults :
    emitted (exec (.nspctst 0 8) (start (stackOf 64 [(.u32, 2), (.u32, 1)]))) =
        some (.invalidAddress, 20, [])
      ∧ emitted (exec (.nspctst 7 0) (start (stackOf 64 [(.u32, 2), (.u32, 1)]))) =
        some (.typeMismatch, 20, [])
      ∧ emitted (exec (.nspctst 0 0) (start (stackOf 64 []))) = some (.stackUnderflow, 20, [])
      ∧ emitted (exec (.nspctst 0 0) (start (stackOf 1 [(.u8, 9)]))) = some (.invalidAddress, 20, []) := by
  refine ⟨?_, ?_, ?_, ?_⟩ <;> decide

/-- R242. -/
theorem test_brkp :
    emitted (exec .brkp (start (stackOf 64 []))) = some (.none, 21, [.brk 20]) := by decide

/-- R94, R322, 95_test_vectors.md 2.1: fetch and decode at the end of memory. -/
theorem test_step_fetch_faults :
    ((nextOf (step ((start noStack).withFetchWord 8 0x3C))).map fun t => (t.faultKind, t.faultIp)) =
        some (.unknownOpcode, 20)
      ∧ ((nextOf (step { start noStack with ip := 256 })).map fun t => (t.faultKind, t.faultIp)) =
        some (.invalidAddress, 256)
      ∧ ((nextOf (step ({ start noStack with ip := 253 }.withFetchWord 40 0x010F))).map fun t =>
        (t.faultKind, t.faultIp)) = some (.invalidAddress, 253) := by decide

/-- R322, 95_test_vectors.md 2.1: the first step right after reset runs the bytes at the bootstrap pointer's target 0. -/
theorem test_step_from_reset :
    (nextOf (step State.reset)).map (fun t => (t.status, t.ip)) = some (.halted, 0)
      ∧ seen (step (State.reset.withFetchWord 40 0x070F)) = some (.none, 5, [(.u32, 7)]) := by decide

/-- R323, 95_test_vectors.md 1.6: a run in debug mode returns after the `brkp`. -/
theorem test_run_stops_on_break :
    ∃ t, runToCompletion true 10 ((start noStack).withFetchWord 8 0x3B) = .returned t true ∧ t.ip = 21 := ⟨_, rfl, rfl⟩

/-! ## Witnesses: states and operands that meet the hypotheses of the statements -/

/-- Two words that fill a region of 8 bytes. -/
def twoWords : OperandStack := stackOf 8 [(.u32, 5), (.u32, 3)]

/-- A byte on a word, in a region of 6 bytes. -/
def byteOnWord : OperandStack := stackOf 6 [(.u8, 1), (.u32, 3)]

/-- A word on a byte. -/
def wordOnByte : OperandStack := stackOf 8 [(.u32, 5), (.u8, 255)]

/-- A state in the middle of a run: values of the three types on the stack and in memory, a call and a loop entered, an
event emitted, and `pop2` at `ip`. -/
def busy : State :=
  { put (put (start (stackOf 64 [(.u8, 7), (.i32, 0xFFFFFFFE), (.u32, 1)])) 100 .u32 104) 104 .i32 0xFFFFFFF0 with
      calls := { entries := [(0, 9)], depth := 1 }
      lp := { counter := 2, bodyAddr := 22, endAddr := 24, active := true }
      events := [.brk 4] }.withFetchWord 8 0x11

theorem witness_DecodedBytesAreTheEncoding :
    decode [0x0F, 0x04, 0x03, 0x02, 0x01, 0x3B] = .ok (.psh 0x01020304, [0x3B]) := rfl

/-- The two ends of the illegal range, in the last byte of memory. -/
theorem witness_IllegalOpcodeRaisesUnknownOpcode :
    (∃ s : State, s.status = .running ∧ s.ip.toNat < s.mem.cap ∧ (s.mem.byteAt s.ip.toNat).toNat = 0x3C) ∧
    (∃ s : State, s.status = .running ∧ s.ip.toNat + 1 = s.mem.cap ∧ (s.mem.byteAt s.ip.toNat).toNat = 0xFF) :=
  ⟨⟨(start noStack).withFetchWord 8 0x3C, by decide⟩, ⟨{ start noStack with ip := 255 }.withFetchWord 8 0xFF, by decide⟩⟩

theorem witness_StepRunsTheDecodedInstruction :
    (∃ s : State, s.status ≠ .running) ∧
    (∃ (s : State) (rest : List Byte), s.status = .running ∧ decode (fetchBytes s) = .ok (.nop, rest)) ∧
    (∃ s : State, s.status = .running ∧ decode (fetchBytes s) = .error .unknownOpcode) ∧
    (∃ s : State, s.status = .running ∧ decode (fetchBytes s) = .error .truncated) :=
  ⟨⟨{ start noStack with status := .halted }, by decide⟩, ⟨(start noStack).withFetchWord 8 0x01, _, rfl, rfl⟩,
    ⟨(start noStack).withFetchWord 8 0x3C, rfl, rfl⟩,
    ⟨{ start noStack with ip := 252 }.withFetchWord 40 0x0F, rfl, rfl⟩⟩

theorem witness_FetchDecodeFollowsTheRule :
    (∃ s : State, s.status = .running ∧ fetchDecodeRule s = .ok .nop) ∧
    (∃ s : State, s.status = .running ∧ fetchDecodeRule s = raise .unknownOpcode) ∧
    (∃ s : State, s.status = .running ∧ fetchDecodeRule s = raise .invalidAddress) :=
  ⟨⟨(start noStack).withFetchWord 8 0x01, rfl, rfl⟩, ⟨(start noStack).withFetchWord 8 0x3C, rfl, rfl⟩,
    ⟨{ start noStack with ip := 252 }.withFetchWord 40 0x0F, rfl, rfl⟩⟩

/-- An instruction of 5 bytes in the last 5 bytes of memory. -/
theorem witness_BytesAtIpRunTheInstruction :
    ∃ s : State, s.status = .running ∧ s.ip.toNat + (Instr.psh 1).length = s.mem.cap ∧
      ∀ k, k < (Instr.psh 1).length → (encode (Instr.psh 1))[k]? = some (s.mem.byteAt (s.ip.toNat + k)) :=
  ⟨{ start noStack with ip := 251 }.withFetchWord 40 0x010F, by decide, by decide, by decide⟩

theorem witness_FaultsArePrecise : ∃ s t : State, s.status = .running ∧ step s = .next t ∧ t.status = .faulted :=
  ⟨(start noStack).withFetchWord 8 0x10, _, rfl, rfl, rfl⟩

theorem witness_OnlyDieHalts : ∃ s t : State, s.status = .running ∧ step s = .next t ∧ t.status = .halted :=
  ⟨(start noStack).withFetchWord 8 0x00, _, rfl, rfl, rfl⟩

theorem witness_StatusWordLayout :
    (start noStack).StatusInv ∧ (start noStack).status ≠ .faulted ∧ ((start noStack).takeFault .nestedLoop).StatusInv := by
  decide

theorem witness_RunReturnsOnlyWhereTheRuleStops :
    (∃ s t : State, QuietSteps true 1 s t ∧ t.status ≠ .running ∧ runToCompletion true 1 s = .returned t false) ∧
    (∃ s t : State, s.status = .running ∧ step s = .next t ∧ (∃ a, Event.brk a ∈ newEvents s t) ∧
      runToCompletion true 1 s = .returned t true ∧ runToCompletion false 1 s = .stepsUsed t) ∧
    (∃ s t : State, QuietSteps false 1 s t ∧ t.status = .running ∧ runToCompletion false 1 s = .stepsUsed t) :=
  ⟨⟨(start noStack).withFetchWord 8 0x00, _, .more rfl rfl (by intro _ a h; cases h) (.none _), by decide, rfl⟩,
    ⟨(start noStack).withFetchWord 8 0x3B, _, rfl, rfl, ⟨20, .head _⟩, rfl, rfl⟩,
    ⟨(start noStack).withFetchWord 8 0x3B, _, .more rfl rfl (by intro h; cases h) (.none _), rfl, rfl⟩⟩

theorem witness_HostReadsAreRaw :
    (0#32).toNat = codeOf .u32 ∧ (1#32).toNat = codeOf .i32 ∧ (2#32).toNat = codeOf .u8 ∧ 2 < (3#32).toNat ∧
    (252#32).toNat + ValTy.u32.bytes = (start twoWords).mem.cap ∧
    (253#32).toNat + ValTy.u32.bytes > (start twoWords).mem.cap ∧
    twoWords.count ≠ 0 ∧ (4#32).toNat = twoWords.top.toNat ∧
    twoWords.top.toNat - (0#32).toNat + ValTy.u32.bytes = twoWords.mem.cap ∧
    noStack.count = 0 ∧ (5#32).toNat > twoWords.top.toNat ∧
    byteOnWord.top.toNat - (0#32).toNat + ValTy.u32.bytes > byteOnWord.mem.cap := by decide

/-- Launch parameters with a tag of their own. -/
def params : LaunchParams := { memCap := 5, stackCap := 4, initTags := [(4, .uint8)] }

theorem witness_LaunchLoadsTheImageAndResets : ∃ s, launch params [4, 0, 0, 0, 1] = .ok s := ⟨_, rfl⟩

theorem witness_LaunchStartsExactlyWhenTheImageFits :
    params.ok ∧ [4, 0, 0, 0, 1].length = params.memCap ∧ [4, 0, 0, 0, 1, 1].length > params.memCap := by decide

theorem witness_invariant : busy.Inv :=
  ⟨by decide, by decide, ⟨[(.u8, 7), (.i32, 0xFFFFFFFE), (.u32, 1)], by decide⟩, by decide, by decide, by decide⟩

theorem witness_LaunchEstablishesTheInvariant : ∃ s, launch params [] = .ok s := ⟨_, rfl⟩

theorem witness_InvariantStatesAlwaysStep : ∃ s : State, s.Inv ∧ s.status = .running := ⟨busy, witness_invariant, rfl⟩

theorem witness_StepKeepsTheInvariant : ∃ s t : State, s.Inv ∧ step s = .next t ∧ t.stk.count = 1 :=
  ⟨busy, _, witness_invariant, rfl, rfl⟩

theorem witness_LaunchedCoreNeverStopsTheModel : ∃ s : State, Reachable s ∧ s.ip = 5 :=
  ⟨_, .stepped (.launched (p := params) (image := [4, 0, 0, 0, 1]) rfl) rfl, rfl⟩

theorem witness_RawReadIsLittleEndian :
    253 + Width.four.bytes > (Memory.blank 256).cap ∧ 252 + Width.four.bytes ≤ (Memory.blank 256).cap ∧
    256 + Width.one.bytes > (Memory.blank 256).cap ∧ 255 + Width.one.bytes ≤ (Memory.blank 256).cap := by decide

/-- A region with a whole word at 0, a byte at 4, and a word at 8 whose last tail a byte broke. -/
def mixed : Memory := (((Memory.blank 14).store 0 .i32 7).store 4 .u8 9).store 8 .u32 1 |>.store 11 .u8 1

theorem witness_TypedReadChecksHeadAndTails :
    14 + 1 > mixed.cap ∧ (13 + 1 ≤ mixed.cap ∧ ∀ ty : ValTy, mixed.tagAt 13 ≠ ty.head) ∧
    (∃ m : Memory, 12 + 1 ≤ m.cap ∧ m.tagAt 12 = ValTy.u32.head ∧ 12 + ValTy.u32.bytes > m.cap) ∧
    (mixed.tagAt 8 = ValTy.u32.head ∧ 8 + ValTy.u32.bytes ≤ mixed.cap ∧
      ∃ k, 1 ≤ k ∧ k < ValTy.u32.bytes ∧ mixed.tagAt (8 + k) ≠ ValTy.u32.tail) ∧
    (mixed.tagAt 0 = ValTy.i32.head ∧ 0 + ValTy.i32.bytes ≤ mixed.cap ∧
      ∀ k, k < ValTy.i32.bytes → 1 ≤ k → mixed.tagAt (0 + k) = ValTy.i32.tail) ∧ isWord .i32 ∧ ¬ isWord .u8 ∧
    mixed.tagAt 4 = ValTy.u8.head := by
  refine ⟨by decide, ⟨by decide, fun ty => by cases ty <;> decide⟩,
    ⟨(Memory.blank 14).setTag 12 .uint32Head, by decide⟩, ⟨by decide, by decide, 3, by decide⟩,
    ⟨by decide, by decide, by decide⟩, by decide, by decide, by decide⟩

theorem witness_TypedWriteWritesExactlyItsSpan :
    (Memory.blank 256).wf ∧ 253 + ValTy.u32.bytes > (Memory.blank 256).cap ∧
    252 + ValTy.u32.bytes ≤ (Memory.blank 256).cap ∧ 256 + ValTy.u8.bytes > (Memory.blank 256).cap ∧
    255 + ValTy.u8.bytes ≤ (Memory.blank 256).cap := by decide

theorem witness_TypedWriteThenReadReturnsTheValue :
    (∃ m', tagWrite (Memory.blank 256) 252 .u32 0xDEADBEEF = .ok m') ∧
    ((255#32).toNat < 256 ∧ ∃ m', tagWrite (Memory.blank 256) 255 .u8 255 = .ok m') ∧ ValTy.i32 ≠ ValTy.u32 ∧
    252 < 255 ∧ 255 < 252 + ValTy.u32.bytes := ⟨⟨_, rfl⟩, ⟨by decide, _, rfl⟩, by decide, by decide, by decide⟩

theorem witness_OverlappingWriteBreaksTheOldValue :
    isWord .u32 ∧ (255#32).toNat < 256 ∧ ∃ m1 m2 m3, tagWrite (Memory.blank 256) 40 .u32 7 = .ok m1 ∧
      tagWrite m1 (40 + 1) .u8 255 = .ok m2 ∧ tagWrite m1 (40 + 3) .u8 255 = .ok m3 :=
  ⟨by decide, by decide, _, _, _, rfl, rfl, rfl⟩

/-- Room for exactly one value more, and none. -/
theorem witness_PushThenPopRestoresTheStack :
    (stackOf 8 [(.u32, 1)]).Holds [(.u32, 1)] ∧ extent [(.u32, 1)] + ValTy.u32.bytes = (stackOf 8 [(.u32, 1)]).mem.cap ∧
    (stackOf 7 [(.u32, 1)]).Holds [(.u32, 1)] ∧ extent [(.u32, 1)] + ValTy.u32.bytes > (stackOf 7 [(.u32, 1)]).mem.cap ∧
    (255#32).toNat < 256 := by decide

theorem witness_CallStoresTheReturnAddress :
    ∃ s t : State, s.calls.depth = 1000 ∧ t.calls.depth ≠ 1000 :=
  ⟨{ start noStack with calls := { entries := [], depth := 1000 } },
    { start noStack with calls := { entries := [], depth := 999 } }, rfl, by decide⟩

theorem witness_RetJumpsToTheStoredAddress : (start noStack).calls.depth = 0 ∧ busy.calls.depth ≠ 0 := by decide

theorem witness_RetAfterCallReturnsToTheCaller :
    ∃ s t u : State, s.calls.depth.toNat < 1000 ∧ exec (.call 100) s = .next t ∧ u.calls = t.calls ∧ u.stk ≠ t.stk :=
  ⟨start noStack, _, { start twoWords with calls := { entries := [(0, 25)], depth := 1 } }, by decide, rfl, rfl,
    by decide⟩

/-- Too few values; a 4-byte read that ends past the region, and one that ends at its end; equal and unequal bytes. -/
theorem witness_EqualityJumpsCompareRawBytes :
    (stackOf 8 [(.u32, 1)]).count.toNat < 2 ∧
    byteOnWord.Holds [(.u8, 1), (.u32, 3)] ∧ extent [(.u32, 3)] + 4 > byteOnWord.mem.cap ∧
    twoWords.Holds [(.u32, 5), (.u32, 3)] ∧ extent [(.u32, 3)] + 4 = twoWords.mem.cap ∧
    twoWords.mem.valueAt 4 .four ≠ twoWords.mem.valueAt 0 .four ∧
    (stackOf 8 [(.u32, 3), (.i32, 3)]).Holds [(.u32, 3), (.i32, 3)] ∧
    (stackOf 8 [(.u32, 3), (.i32, 3)]).mem.valueAt 4 .four = (stackOf 8 [(.u32, 3), (.i32, 3)]).mem.valueAt 0 .four := by
  refine ⟨?_, ?_, ?_, ?_, ?_, ?_, ?_, ?_⟩ <;> decide

theorem witness_OrderedJumpsCompareTopWithSecond :
    (stackOf 8 [(.u32, 1)]).count.toNat < 2 ∧
    (byteOnWord.Holds [(.u8, 1), (.u32, 3)] ∧ ¬ isWord .u8) ∧ wordOnByte.Holds [(.u32, 5), (.u8, 255)] ∧
    twoWords.Holds [(.u32, 5), (.u32, 3)] ∧ isWord .u32 ∧
    (¬ (5#32).toNat < (3#32).toNat ∧ (5#32).toNat > (3#32).toNat) ∧
    (0xFFFFFFFF#32).toInt < (0#32).toInt ∧ (0#32).toInt > (0xFFFFFFFD#32).toInt := by
  refine ⟨?_, ?_, ?_, ?_, ?_, ?_, ?_, ?_⟩ <;> decide

theorem witness_JumpOutOfMemoryFaultsAtTheTarget :
    (start noStack).status = .running ∧ (256#32).toNat = (start noStack).mem.cap := by decide

theorem witness_LoopInstructionsDriveTheContext :
    (start noStack).lp.active = false ∧ (busy.lp.active = true ∧ busy.lp.counter.toNat = 2) ∧
    ∃ s : State, s.lp.active = true ∧ s.lp.counter.toNat = 1 :=
  ⟨rfl, ⟨rfl, rfl⟩, { busy with lp := { busy.lp with counter := 1 } }, rfl, rfl⟩

theorem witness_LoopRunsItsBodyCountTimes : busy.lp.active = true ∧ busy.lp.counter.toNat = 1 + 1 ∧ 0 < 1 := by decide

theorem witness_PshPushesAUint32 :
    (stackOf 8 [(.u32, 1)]).Holds [(.u32, 1)] ∧ extent [(.u32, 1)] + 4 = (stackOf 8 [(.u32, 1)]).mem.cap ∧
    twoWords.Holds [(.u32, 5), (.u32, 3)] ∧ extent [(.u32, 5), (.u32, 3)] + 4 > twoWords.mem.cap := by decide

theorem witness_PopsDiscardValues :
    noStack.Holds [] ∧ (stackOf 8 [(.u32, 1)]).Holds [(.u32, 1)] ∧ twoWords.Holds [(.u32, 5), (.u32, 3)] ∧
    2 < (3#32).toNat ∧ (2#32).toNat = 2 := by
  refine ⟨?_, ?_, ?_, ?_, ?_⟩ <;> decide

/-- A faulting read; a read that answers with room for exactly its value; and one without room. -/
theorem witness_PshfrPushesTheMemoryValue :
    tagRead mixed (13#32).toNat .any = raise .typeMismatch ∧ tagRead mixed (0#32).toNat .any = .ok (.i32, 7) ∧
    tagRead mixed (4#32).toNat .any = .ok (.u8, 9) ∧
    (stackOf 8 [(.u32, 1)]).Holds [(.u32, 1)] ∧ extent [(.u32, 1)] + ValTy.i32.bytes = 8 ∧
    twoWords.Holds [(.u32, 5), (.u32, 3)] ∧ extent [(.u32, 5), (.u32, 3)] + ValTy.u8.bytes > 8 :=
  ⟨rfl, rfl, rfl, by decide, by decide, by decide, by decide⟩

theorem witness_PoptrAndMovtrStoreTheTopValue :
    noStack.count = 0 ∧ twoWords.Holds ((.u32, 5) :: [(.u32, 3)]) ∧
    (252#32).toNat + ValTy.u32.bytes = (start twoWords).mem.cap ∧
    (253#32).toNat + ValTy.u32.bytes > (start twoWords).mem.cap := by decide

theorem witness_StktrStoresALiveStackValue :
    twoWords.Holds [(.u32, 5), (.u32, 3)] ∧ (8#32).toNat = extent [(.u32, 5), (.u32, 3)] ∧
    tagRead twoWords.mem (7#32).toNat .any = raise .typeMismatch ∧
    tagRead twoWords.mem (4#32).toNat .any = .ok (.u32, 5) ∧
    [((.u32, 5) : Value), (.u32, 3)] = [(.u32, 5)] ++ (.u32, 3) :: [] ∧ (0#32).toNat = extent [] :=
  ⟨by decide, by decide, rfl, rfl, rfl, rfl⟩

theorem witness_CpyrAndSetrStoreToMemory :
    tagRead busy.mem (102#32).toNat .any = raise .typeMismatch ∧ tagRead busy.mem (104#32).toNat .any = .ok (.i32, 0xFFFFFFF0) ∧
    (252#32).toNat + ValTy.i32.bytes = busy.mem.cap ∧ (253#32).toNat + ValTy.i32.bytes > busy.mem.cap :=
  ⟨rfl, rfl, by decide, by decide⟩

theorem witness_PshfrrPushesThroughAPointer :
    tagRead busy.mem (200#32).toNat .word = raise .typeMismatch ∧ tagRead busy.mem (100#32).toNat .word = .ok (.u32, 104) ∧
    tagRead busy.mem (104#32).toNat .any = .ok (.i32, 0xFFFFFFF0) ∧
    tagRead busy.mem (104#32).toNat .word = .ok (.i32, 0xFFFFFFF0) ∧
    tagRead busy.mem (0xFFFFFFF0#32).toNat .any = raise .invalidAddress ∧
    (stackOf 4 []).Holds [] ∧ extent [] + ValTy.i32.bytes = (stackOf 4 []).mem.cap :=
  ⟨rfl, rfl, rfl, rfl, rfl, by decide, by decide⟩

theorem witness_PshfrsReplacesTheAddressOnTop :
    noStack.count = 0 ∧ (byteOnWord.Holds ((.u8, 1) :: [(.u32, 3)]) ∧ ¬ isWord .u8) ∧
    ((stackOf 4 [(.u32, 100)]).Holds [(.u32, 100)] ∧ isWord .u32) ∧
    tagRead busy.mem (100#32).toNat .word = .ok (.u32, 104) ∧
    tagRead busy.mem (104#32).toNat .any = .ok (.i32, 0xFFFFFFF0) ∧
    (stackOf 4 [(.u32, 200)]).Holds [(.u32, 200)] ∧ tagRead busy.mem (200#32).toNat .word = raise .typeMismatch ∧
    tagRead busy.mem (104#32).toNat .word = .ok (.i32, 0xFFFFFFF0) ∧
    tagRead busy.mem (0xFFFFFFF0#32).toNat .any = raise .invalidAddress :=
  ⟨by decide, ⟨by decide, by decide⟩, ⟨by decide, by decide⟩, rfl, rfl, by decide, rfl, rfl, rfl⟩

/-- For `UnaryRule`: an empty stack, a byte on top, a word on top. -/
theorem witness_UnaryInstructionsReplaceTheTop :
    noStack.count = 0 ∧ (byteOnWord.Holds ((.u8, 1) :: [(.u32, 3)]) ∧ ¬ isWord .u8) ∧
    (stackOf 4 [(.i32, 0xFFFFFFFF)]).Holds ((.i32, 0xFFFFFFFF) :: []) ∧ isWord .i32 := by decide

/-- For `BinaryRule`: one value only; a byte on top; a byte second; two words; a zero divisor. -/
theorem witness_BinaryRule :
    (stackOf 8 [(.u32, 1)]).count.toNat < 2 ∧ (byteOnWord.Holds ((.u8, 1) :: (.u32, 3) :: []) ∧ ¬ isWord .u8) ∧
    wordOnByte.Holds ((.u32, 5) :: (.u8, 255) :: []) ∧ (twoWords.Holds ((.u32, 5) :: (.u32, 3) :: []) ∧ isWord .u32) ∧
    (stackOf 8 [(.u32, 0), (.i32, 3)]).Holds ((.u32, 0) :: (.i32, 3) :: []) ∧ isWord .i32 ∧ (5#32 : Word) ≠ 0 := by
  refine ⟨?_, ?_, ?_, ?_, ?_, ?_, ?_⟩ <;> decide

theorem witness_SumsDifferencesAndProductsWrap : twoWords.Holds ((.u32, 5) :: (.u32, 3) :: []) ∧ isWord .u32 := by decide
theorem witness_UnsignedDivisionInstructions :
    twoWords.Holds ((.u32, 5) :: (.u32, 3) :: []) ∧ isWord .u32 ∧ (5#32 : Word) ≠ 0 := by decide
theorem witness_SignedDivisionInstructions :
    (stackOf 8 [(.u32, 0xFFFFFFFF), (.i32, 0x80000000)]).Holds ((.u32, 0xFFFFFFFF) :: (.i32, 0x80000000) :: []) ∧
    isWord .i32 ∧ (0xFFFFFFFF#32 : Word) ≠ 0 := by decide
theorem witness_BitwiseInstructions : twoWords.Holds ((.u32, 5) :: (.u32, 3) :: []) ∧ isWord .u32 := by decide
theorem witness_ShiftInstructions :
    (stackOf 8 [(.u32, 32), (.i32, 3)]).Holds ((.u32, 32) :: (.i32, 3) :: []) ∧ isWord .i32 := by decide
theorem witness_RotateInstructions :
    (stackOf 8 [(.u32, 32), (.i32, 3)]).Holds ((.u32, 32) :: (.i32, 3) :: []) ∧ isWord .i32 := by decide

theorem witness_UnsignedDivisionLaw : (1#32 : Word) ≠ 0 := by decide

theorem witness_SignedDivisionLaw :
    (0xFFFFFFFF#32 : Word) ≠ 0 ∧ ((0x80000000#32).toInt = -2147483648 ∧ (0xFFFFFFFF#32).toInt = -1) ∧
    ¬ ((0x80000000#32).toInt = -2147483648 ∧ (1#32).toInt = -1) := by decide

theorem witness_RotatesUndoEachOther : (32#32).toNat % 32 = 0 ∧ (0#32).toNat % 32 = 0 := by decide

theorem witness_NspctrEmitsTheMemoryValue :
    2 < (3#32).toNat ∧ (0#32).toNat = codeOf .u32 ∧ (2#32).toNat = codeOf .u8 ∧
    (253#32).toNat + ValTy.u32.bytes > busy.mem.cap ∧ (252#32).toNat + ValTy.u32.bytes = busy.mem.cap ∧
    (255#32).toNat + ValTy.u8.bytes = busy.mem.cap := by decide

theorem witness_NspctstEmitsTheStackValue :
    2 < (3#32).toNat ∧ (0#32).toNat = codeOf .u32 ∧ noStack.count = 0 ∧ twoWords.count ≠ 0 ∧
    (5#32).toNat > twoWords.top.toNat ∧ (4#32).toNat = twoWords.top.toNat ∧
    byteOnWord.top.toNat - (0#32).toNat + ValTy.u32.bytes > byteOnWord.mem.cap ∧
    twoWords.top.toNat - (0#32).toNat + ValTy.u32.bytes = twoWords.mem.cap := by decide

/-- A form that stores in the last 4 bytes of memory, with an address just below, and one that stores nothing. -/
theorem witness_MainMemoryFrame :
    (∃ t, exec (.poptr 252) (start twoWords) = .next t ∧ t.status = .running) ∧
    outside (mainStoreSpan (.poptr 252) (start twoWords)) 251 ∧
    (∃ t, exec .add (start twoWords) = .next t ∧ t.status = .running) ∧
    outside (mainStoreSpan .add (start twoWords)) 0 := ⟨⟨_, rfl, rfl⟩, .inl (by decide), ⟨_, rfl, rfl⟩, trivial⟩

/-- A binary instruction, which stores over its left operand, with the addresses on both sides of the store. -/
theorem witness_StackMemoryFrame :
    ∃ k : OperandStack, k.Inv ∧ (∃ t, exec .add (start k) = .next t ∧ t.status = .running) ∧
      outside (stackStoreSpan .add (start k)) 3 ∧ outside (stackStoreSpan .add (start k)) 8 :=
  ⟨stackOf 12 [(.u32, 5), (.u32, 3), (.u32, 1)], ⟨[(.u32, 5), (.u32, 3), (.u32, 1)], by decide⟩, ⟨_, rfl, rfl⟩, .inl (by decide), .inr (by decide)⟩

theorem witness_RegisterFrame :
    (∃ t, exec .lrot busy = .next t) ∧ (∃ t, exec .add (start twoWords) = .next t ∧ t.status = .running) :=
  ⟨⟨_, rfl⟩, _, rfl, rfl⟩

theorem witness_IpFrame :
    (∃ t, exec .ret busy = .next t ∧ t.ip = 9) ∧ (∃ t, exec .lcont busy = .next t ∧ t.ip = 22) ∧
    (∃ t, exec (.je 50) (start twoWords) = .next t ∧ t.ip = 25) ∧
    (∃ t, exec (.jn 50) (start twoWords) = .next t ∧ t.ip = 50) ∧
    (∃ t, exec .lcont (start noStack) = .next t ∧ t.status = .faulted) :=
  ⟨⟨_, rfl, rfl⟩, ⟨_, rfl, rfl⟩, ⟨_, rfl, rfl⟩, ⟨_, rfl, rfl⟩, ⟨_, rfl, rfl⟩⟩

end Sys2Proof.Tests
end

-- Proofs of the family 20_memory.md: the raw read (O21) and the typed read (O22).
section
/-! PROOFS. What the two reads of a region answer or raise (R55, R57), one lemma per way each ends. -/

namespace Sys2Proof.Machine

open Sys2Proof.Spec

section
variable {m : Memory} {a : Nat}

/-! ## The raw read (R55) -/

theorem rawRead_in_bounds {n : Width} (h : a + n.bytes ≤ m.cap) : rawRead m a n = .ok (m.valueAt a n) :=
  if_neg (by omega)

theorem rawRead_out_of_bounds {n : Width} (h : a + n.bytes > m.cap) : rawRead m a n = raise .invalidAddress :=
  if_pos h

/-- The value at an address is the little-endian number of its bytes (R52, R55). -/
theorem Memory.toNat_valueAt (m : Memory) (a : Nat) (n : Width) :
    (m.valueAt a n).toNat = numberOf ((List.range n.bytes).map fun k => m.byteAt (a + k)) := by
  cases n with
  | one =>
    have hlt : (m.byteAt a).toNat < 2 ^ 32 := lt_trans (m.byteAt a).isLt (by decide)
    simpa [Memory.valueAt, numberOf] using hlt
  | four => simp [Memory.valueAt, toNat_leWord, List.range_succ, numberOf]

/-! ## The checks of the typed read (R57) -/

/-- A tag that is no head tag starts no value. -/
theorem Tag.starts_eq_none {t : Tag} (h : ∀ ty : ValTy, t ≠ ty.head) : t.starts = none :=
  Option.eq_none_iff_forall_ne_some.mpr fun ty hty => h ty (Tag.eq_head hty)

theorem Memory.tailsOk_iff {ty : ValTy} :
    m.tailsOk a ty = true ↔ ∀ k, 1 ≤ k → k < ty.bytes → m.tagAt (a + k) = ty.tail := by
  have four : (m.tagAt (a + 1) = ty.tail ∧ m.tagAt (a + 2) = ty.tail) ∧ m.tagAt (a + 3) = ty.tail ↔
      ∀ k, 1 ≤ k → k < 4 → m.tagAt (a + k) = ty.tail := by
    refine ⟨fun ⟨⟨h1, h2⟩, h3⟩ k hk hk' => ?_, fun h => ⟨⟨h 1 ?_ ?_, h 2 ?_ ?_⟩, h 3 ?_ ?_⟩⟩
    · obtain rfl | rfl | rfl : k = 1 ∨ k = 2 ∨ k = 3 := by omega
      · exact h1
      · exact h2
      · exact h3
    all_goals decide
  cases ty with
  | u32 => simpa [Memory.tailsOk] using four
  | i32 => simpa [Memory.tailsOk] using four
  | u8 =>
    simp only [Memory.tailsOk, ValTy.width_u8, ValTy.bytes_u8, true_iff]
    omega

/-- `Accepts(req, ty)` as R57 writes it. -/
theorem Request.accepts_iff {req : Request} {ty : ValTy} :
    req.accepts ty = true ↔ req = .any ∨ req = .exactly ty ∨ (req = .word ∧ isWord ty) := by
  cases req with
  | exactly want => simp [Request.accepts]
  | word => simp [Request.accepts_word]
  | any => simp [Request.accepts]

/-! ## The typed read (R57) -/

variable {req : Request} {ty : ValTy}

theorem tagRead_outside (h : a + 1 > m.cap) : tagRead m a req = raise .invalidAddress := if_pos h

theorem tagRead_of_no_head (h : a + 1 ≤ m.cap) (hhead : ∀ ty : ValTy, m.tagAt a ≠ ty.head) :
    tagRead m a req = raise .typeMismatch := by
  rw [tagRead, if_neg (by omega), Tag.starts_eq_none hhead]

theorem tagRead_of_overrun (h : a + 1 ≤ m.cap) (hhead : m.tagAt a = ty.head) (hcap : a + ty.bytes > m.cap) :
    tagRead m a req = raise .invalidAddress := by
  rw [tagRead, if_neg (by omega), hhead, Tag.starts_head]
  exact if_pos hcap

theorem tagRead_of_wrong_tail (hhead : m.tagAt a = ty.head) (hcap : a + ty.bytes ≤ m.cap)
    (htails : m.tailsOk a ty = false) : tagRead m a req = raise .typeMismatch := by
  have := ty.bytes_pos
  rw [tagRead, if_neg (by omega), hhead, Tag.starts_head]
  exact (if_neg (by omega)).trans (if_pos htails)

/-- Behind its head tag, with every tail tag in place, a value is held as read. -/
theorem Memory.holds_valueAt (hhead : m.tagAt a = ty.head)
    (htails : ∀ k, 1 ≤ k → k < ty.bytes → m.tagAt (a + k) = ty.tail) :
    m.holds a (ty, m.valueAt a ty.width) = true :=
  Memory.holds_iff.mpr ⟨hhead, Memory.tailsOk_iff.mpr htails, rfl⟩

end

/-! ## The obligations -/

/-- Settles O21: the two ways of the bounds check, and the value as the number of its bytes. -/
theorem rawReadIsLittleEndian : Obligations.RawReadIsLittleEndian := by
  intro m a n
  exact ⟨rawRead_out_of_bounds, fun h => ⟨m.valueAt a n, rawRead_in_bounds h, m.toNat_valueAt a n⟩⟩

/-- Settles O22: one lemma per clause of R57, in the rule's order. -/
theorem typedReadChecksHeadAndTails : Obligations.TypedReadChecksHeadAndTails := by
  intro m a req
  refine ⟨tagRead_outside, tagRead_of_no_head, fun ty h hhead => ⟨tagRead_of_overrun h hhead, ?_, ?_⟩⟩
  · intro hcap ⟨k, hk, hk', hne⟩
    exact tagRead_of_wrong_tail hhead hcap (Bool.eq_false_iff.mpr fun hok => hne (Memory.tailsOk_iff.mp hok k hk hk'))
  · intro hcap htails
    have held := Memory.holds_valueAt hhead htails
    exact ⟨fun hreq => tagRead_of_holds held hcap (Request.accepts_iff.mpr hreq),
      fun hreq => tagRead_of_not_accepted held hcap (Bool.eq_false_iff.mpr (mt Request.accepts_iff.mp hreq))⟩

end Sys2Proof.Machine
end

-- Proofs of the family 30_encoding.md: an illegal opcode (O5), fetch and decode read by read (O6).
section
/-! PROOFS. What fetch and decode answers, one lemma per way it ends (R94, R96), on the model's side and the rule's. -/

namespace Sys2Proof

/-! ## Decoding (R94, R96) -/

section
variable (f : Word → Instr) (g : Word → Word → Instr) (h : Word → Word → Word → Instr)

@[simp] theorem OpcodeShape.immediates_f1 : (OpcodeShape.f1 f).format.immediates = 1 := rfl
@[simp] theorem OpcodeShape.immediates_f2 : (OpcodeShape.f2 g).format.immediates = 2 := rfl
@[simp] theorem OpcodeShape.immediates_f3 : (OpcodeShape.f3 h).format.immediates = 3 := rfl
end

/-- A format's bytes are the opcode and four for each immediate (R91, R92). -/
theorem Format.length_eq (f : Format) : f.length = 4 * f.immediates + 1 := by cases f <;> rfl

/-- An opcode byte from `0x3C` on has no row (R96). -/
theorem lookupOpcode_eq_none {op : Byte} (h : 0x3C ≤ op.toNat) : lookupOpcode op = none := by
  rw [← Option.isNone_iff_eq_none, ← Option.not_isSome, lookupOpcode_isSome]
  simpa using h

section
variable {op : Byte} {bs rest : List Byte} {row : OpcodeRow} {i : Instr}

theorem decode_no_row (h : lookupOpcode op = none) : decode (op :: bs) = .error .unknownOpcode := by
  simp only [decode, h]

theorem decode_truncated (h : lookupOpcode op = some row) (hb : row.shape.build bs = none) :
    decode (op :: bs) = .error .truncated := by
  simp only [decode, h, hb]

theorem decode_built (h : lookupOpcode op = some row) (hb : row.shape.build bs = some (i, rest)) :
    decode (op :: bs) = .ok (i, rest) := by
  simp only [decode, h, hb]

end

end Sys2Proof

namespace Sys2Proof.Machine

open Sys2Proof.Spec

/-! ## The bytes of a region from an address on -/

/-- The `n` bytes of a region from address `a` on. -/
def Memory.bytesFrom (m : Memory) (a n : Nat) : List Byte := (List.range n).map fun k => m.byteAt (a + k)

section
variable (m : Memory) (a n : Nat)

@[simp] theorem Memory.length_bytesFrom : (m.bytesFrom a n).length = n := by simp [Memory.bytesFrom]

theorem Memory.bytesFrom_succ : m.bytesFrom a (n + 1) = m.byteAt a :: m.bytesFrom (a + 1) n := by
  simp [Memory.bytesFrom, List.range_succ_eq_map, Nat.add_assoc, Nat.add_comm 1]

/-- Four bytes of a region hold the immediate that a raw read finds there (R55, R92). -/
theorem Memory.takeImmediate_bytesFrom :
    takeImmediate (m.bytesFrom a (n + 4)) = some (m.valueAt a .four, m.bytesFrom (a + 4) n) := by
  simp [Memory.bytesFrom_succ, takeImmediate, Memory.valueAt]

/-- The instruction of an opcode's shape whose immediates stand in a region from address `a` on, left to right (R92). -/
def Memory.instrAt : OpcodeShape → Instr
  | .f0 i => i
  | .f1 f => f (m.valueAt a .four)
  | .f2 f => f (m.valueAt a .four) (m.valueAt (a + 4) .four)
  | .f3 f => f (m.valueAt a .four) (m.valueAt (a + 4) .four) (m.valueAt (a + 8) .four)

/-- An opcode's shape builds the instruction whose immediates stand first, and leaves the bytes after them. -/
theorem Memory.build_bytesFrom (sh : OpcodeShape) :
    sh.build (m.bytesFrom a (n + 4 * sh.format.immediates)) =
      some (m.instrAt a sh, m.bytesFrom (a + 4 * sh.format.immediates) n) := by
  cases sh with
  | f0 i => rfl
  | f1 f => simp [OpcodeShape.build, Memory.takeImmediate_bytesFrom, Memory.instrAt]
  | f2 f => simp [OpcodeShape.build, Memory.takeImmediate_bytesFrom, Memory.instrAt]
  | f3 f => simp [OpcodeShape.build, Memory.takeImmediate_bytesFrom, Memory.instrAt]

end

/-! ## Fetch and decode, on the model's side and on the rule's -/

section
variable {s : State} {row : OpcodeRow} {i : Instr} {kind : FaultKind}

/-- Inside memory, a step fetches the opcode byte and then what follows it. -/
theorem fetchBytes_inside (h : s.ip.toNat < s.mem.cap) : fetchBytes s =
    s.mem.byteAt s.ip.toNat :: s.mem.bytesFrom (s.ip.toNat + 1) (min 12 (s.mem.cap - s.ip.toNat - 1)) := by
  have hlen : min maxLength (s.mem.cap - s.ip.toNat) = min 12 (s.mem.cap - s.ip.toNat - 1) + 1 := by
    rw [maxLength]; omega
  rw [← Memory.bytesFrom_succ, ← hlen]
  rfl

theorem fetchDecode_outside (h : s.mem.cap ≤ s.ip.toNat) : fetchDecode s = raise .invalidAddress := by
  have hnil : fetchBytes s = [] := by simp [← List.length_eq_zero_iff, h]
  simp only [fetchDecode, hnil, decode, decodeFault]

theorem fetchDecode_no_row (h : s.ip.toNat < s.mem.cap) (hrow : lookupOpcode (s.mem.byteAt s.ip.toNat) = none) :
    fetchDecode s = raise .unknownOpcode := by
  simp only [fetchDecode, fetchBytes_inside h, decode_no_row hrow, decodeFault]

theorem fetchDecode_overrun (h : s.ip.toNat < s.mem.cap) (hrow : lookupOpcode (s.mem.byteAt s.ip.toNat) = some row)
    (hlen : s.ip.toNat + row.shape.format.length > s.mem.cap) : fetchDecode s = raise .invalidAddress := by
  have hb := OpcodeShape.build_short (sh := row.shape)
    (bs := s.mem.bytesFrom (s.ip.toNat + 1) (min 12 (s.mem.cap - s.ip.toNat - 1)))
    (by rw [Memory.length_bytesFrom]; omega)
  simp only [fetchDecode, fetchBytes_inside h, decode_truncated hrow hb, decodeFault]

theorem fetchDecode_whole (h : s.ip.toNat < s.mem.cap) (hrow : lookupOpcode (s.mem.byteAt s.ip.toNat) = some row)
    (hlen : s.ip.toNat + row.shape.format.length ≤ s.mem.cap) :
    fetchDecode s = .ok (s.mem.instrAt (s.ip.toNat + 1) row.shape) := by
  have hmax : row.shape.format.length ≤ 13 := row.shape.format.length_le
  rw [Format.length_eq] at hlen hmax
  have himm : 4 * row.shape.format.immediates ≤ min 12 (s.mem.cap - s.ip.toNat - 1) := by omega
  obtain ⟨n, hn⟩ := Nat.exists_eq_add_of_le' himm
  have hb := s.mem.build_bytesFrom (s.ip.toNat + 1) n row.shape
  simp only [fetchDecode, fetchBytes_inside h, hn, decode_built hrow hb]

theorem fetchDecodeRule_outside (h : s.mem.cap ≤ s.ip.toNat) : fetchDecodeRule s = raise .invalidAddress := by
  rw [fetchDecodeRule, rawRead_out_of_bounds (Nat.lt_succ_of_le h), Res.bind_raise]

/-- Inside memory, the byte the rule reads first is the opcode byte. -/
theorem rawRead_opcode (h : s.ip.toNat < s.mem.cap) :
    rawRead s.mem s.ip.toNat .one = .ok ((s.mem.byteAt s.ip.toNat).setWidth 32) := rawRead_in_bounds h

theorem fetchDecodeRule_no_row (h : s.ip.toNat < s.mem.cap) (hrow : lookupOpcode (s.mem.byteAt s.ip.toNat) = none) :
    fetchDecodeRule s = raise .unknownOpcode := by
  simp [fetchDecodeRule, rawRead_opcode h, hrow]

theorem fetchDecodeRule_overrun (h : s.ip.toNat < s.mem.cap)
    (hrow : lookupOpcode (s.mem.byteAt s.ip.toNat) = some row)
    (hlen : s.ip.toNat + row.shape.format.length > s.mem.cap) : fetchDecodeRule s = raise .invalidAddress := by
  simp [fetchDecodeRule, rawRead_opcode h, hrow, hlen]

theorem fetchDecodeRule_whole (h : s.ip.toNat < s.mem.cap)
    (hrow : lookupOpcode (s.mem.byteAt s.ip.toNat) = some row)
    (hlen : s.ip.toNat + row.shape.format.length ≤ s.mem.cap) :
    fetchDecodeRule s = .ok (s.mem.instrAt (s.ip.toNat + 1) row.shape) := by
  have read : ∀ k, k + 3 ≤ 4 * row.shape.format.immediates →
      rawRead s.mem (s.ip.toNat + k) .four = .ok (s.mem.valueAt (s.ip.toNat + k) .four) :=
    fun k hk => rawRead_in_bounds (by rw [Format.length_eq] at hlen; rw [Width.bytes_four]; omega)
  rw [fetchDecodeRule, rawRead_opcode h, Res.bind_ok, BitVec.setWidth_setWidth_of_le _ (by decide), BitVec.setWidth_eq]
  simp only [hrow, if_neg (Nat.not_lt.mpr hlen)]
  generalize row.shape = sh at read
  cases sh with
  | f0 i => rfl
  | f1 f => simp [read 1 (by simp), Memory.instrAt]
  | f2 f => simp [read 1 (by simp), read 5 (by simp), Memory.instrAt]
  | f3 f => simp [read 1 (by simp), read 5 (by simp), read 9 (by simp), Memory.instrAt]

/-- The two sides of fetch and decode end the same way: outside memory, without a row, past `MEM_CAP`, or with the
instruction that stands there. -/
theorem fetchDecode_eq_rule (s : State) : fetchDecode s = fetchDecodeRule s := by
  by_cases h : s.ip.toNat < s.mem.cap
  · cases hrow : lookupOpcode (s.mem.byteAt s.ip.toNat) with
    | none => rw [fetchDecode_no_row h hrow, fetchDecodeRule_no_row h hrow]
    | some row =>
      by_cases hlen : s.ip.toNat + row.shape.format.length ≤ s.mem.cap
      · rw [fetchDecode_whole h hrow hlen, fetchDecodeRule_whole h hrow hlen]
      · rw [fetchDecode_overrun h hrow (by omega), fetchDecodeRule_overrun h hrow (by omega)]
  · rw [fetchDecode_outside (by omega), fetchDecodeRule_outside (by omega)]

/-! ## The step of a running core (R322) -/

theorem step_of_fetchDecode_ok (hrun : s.status = .running) (h : fetchDecode s = .ok i) : step s = exec i s := by
  simp only [step, hrun, if_true, h]

theorem step_of_fetchDecode_raise (hrun : s.status = .running) (h : fetchDecode s = raise kind) :
    step s = .next (s.takeFault kind) := by
  simp only [step, hrun, if_true, h, raise]

end

/-! ## The obligations -/

/-- Settles O5: an illegal opcode byte has no row, and that is checked before the bytes after it are. -/
theorem illegalOpcodeRaisesUnknownOpcode : Obligations.IllegalOpcodeRaisesUnknownOpcode := by
  intro s hrun hip hop
  exact step_of_fetchDecode_raise hrun (fetchDecode_no_row hip (lookupOpcode_eq_none hop))

/-- Settles O6: the two sides of fetch and decode agree, and a step starts with the model's side. -/
theorem fetchDecodeFollowsTheRule : Obligations.FetchDecodeFollowsTheRule := by
  intro s
  refine ⟨fetchDecode_eq_rule s, fun hrun i h => ?_, fun hrun kind h => ?_⟩
  · exact step_of_fetchDecode_ok hrun ((fetchDecode_eq_rule s).trans h)
  · exact step_of_fetchDecode_raise hrun ((fetchDecode_eq_rule s).trans h)

end Sys2Proof.Machine
end

-- Proofs of the family 40_control_call.md: the instructions that cannot fault (O27), call (O28), ret (O29).
section
/-! PROOFS. What the call-stack operations answer or raise (R113, R114), one lemma per way each ends, and what the
control instructions make of them. -/

namespace Sys2Proof.Machine

section
variable {c : CallStack}

/-! ## The call stack (R113, R114) -/

theorem callPush_full {ret : Word} (h : c.depth = 1000) : callPush c ret = raise .callStackOverflow :=
  if_pos (by rw [h]; rfl)

theorem callPush_room {ret : Word} (h : c.depth ≠ 1000) : callPush c ret =
    .ok { entries := Sparse.set 0#32 c.depth.toNat ret c.entries, depth := c.depth + 1 } :=
  if_neg fun hfull => h (BitVec.eq_of_toNat_eq hfull)

/-- Storing an address changes one entry of the call stack (R113). -/
@[simp] theorem CallStack.entry_set (a : Nat) (ret depth : Word) (j : Nat) :
    CallStack.entry { entries := Sparse.set 0#32 a ret c.entries, depth } j = if j = a then ret else c.entry j :=
  Sparse.get_set a ret c.entries j

theorem callPop_empty (h : c.depth = 0) : callPop c = raise .callStackUnderflow := if_pos h

theorem callPop_nonempty (h : c.depth ≠ 0) :
    callPop c = .ok (c.entry (c.depth - 1).toNat, { c with depth := c.depth - 1 }) := if_neg h

end

/-! ## The meaning of each control instruction (R110 to R114, R242) -/

section
variable (s : State) (addr : Word)

theorem exec_die : exec .die s = .next { s with status := .halted, exitCode := 0 } := rfl
theorem exec_nop : exec .nop s = .next (s.advance 1) := rfl
theorem exec_testDie : exec .testDie s = .next ((s.emit (.checkpoint s.ip)).advance 1) := rfl
theorem exec_brkp : exec .brkp s = .next ((s.emit (.brk s.ip)).advance 1) := rfl

theorem exec_call : exec (.call addr) s =
    s.perform (callPush s.calls (s.ip + 5) >>= fun c => .ok ({ s with calls := c }.jump addr)) := rfl

theorem exec_ret : exec .ret s = s.perform (callPop s.calls >>= fun r => .ok ({ s with calls := r.2 }.jump r.1)) := rfl

end

/-! ## The obligations -/

/-- Settles O27: none of the four can fault, and each writes only the fields its rule names. -/
theorem dieNopTestDieAndBrkp : Obligations.DieNopTestDieAndBrkp :=
  ⟨rfl, rfl, rfl, rfl, fun s => ⟨exec_die s, exec_nop s, exec_testDie s, exec_brkp s⟩⟩

/-- Settles O28: the two ways of the depth check, and the one entry a push stores. -/
theorem callStoresTheReturnAddress : Obligations.CallStoresTheReturnAddress := by
  intro addr
  refine ⟨rfl, fun s => ⟨fun hfull => ?_, fun hroom => ?_⟩⟩
  · rw [exec_call, callPush_full hfull, Res.bind_raise, State.perform_raise]
  · rw [exec_call, callPush_room hroom, Res.bind_ok, State.perform_ok]
    exact ⟨_, rfl, rfl, CallStack.entry_set _ _ _⟩

/-- Settles O29: the two ways of the depth check; a pop changes no entry. -/
theorem retJumpsToTheStoredAddress : Obligations.RetJumpsToTheStoredAddress := by
  refine ⟨rfl, fun s => ⟨fun hempty => ?_, fun hlive => ?_⟩⟩
  · rw [exec_ret, callPop_empty hempty, Res.bind_raise, State.perform_raise]
  · rw [exec_ret, callPop_nonempty hlive, Res.bind_ok, State.perform_ok]
    rfl

end Sys2Proof.Machine
end

-- Proofs of the family 41_jumps.md: jmp (O31), the raw-byte jumps (O32), the ordered jumps (O33).
section
/-! PROOFS. What the raw read of top and second answers or raises (R121), what a conditional jump makes of the two
operands it read, and the two rule shapes of the conditional jumps, one lemma for each shape. -/

namespace Sys2Proof.Machine

open Sys2Proof.Spec

/-! ## The raw bytes at top and second (R121) -/

section
variable {k : OperandStack} {t u : Value} {below : List Value}

theorem topTwoRaw_underflow (h : k.count.toNat < 2) : topTwoRaw k = raise .stackUnderflow := if_pos h

/-- On a stack that holds two values or more, the addresses read are the starts of top and second. -/
theorem topTwoRaw_eq (h : k.Holds (t :: u :: below)) : topTwoRaw k =
    (rawRead k.mem (extent (u :: below)) .four >>= fun x => rawRead k.mem (extent below) .four >>= fun y => .ok (x, y)) := by
  have ⟨_, _, hcount, _⟩ := h
  have hmany : ¬ k.count.toNat < 2 := by simp [hcount]
  have hsecond : k.mem.holds (extent below) u = true := h.cutTo.holdsTop
  rw [topTwoRaw, if_neg hmany, h.top_toNat, stkPrev_of_holds hsecond, Res.bind_ok]

/-- The read at the top comes first, so its end past the region decides. -/
theorem topTwoRaw_past_cap (h : k.Holds (t :: u :: below)) (hpast : extent (u :: below) + 4 > k.mem.cap) :
    topTwoRaw k = raise .invalidAddress := by
  rw [topTwoRaw_eq h, rawRead_out_of_bounds hpast, Res.bind_raise]

/-- The second value starts below the top one, so where the read at the top fits, both do. -/
theorem topTwoRaw_in_cap (h : k.Holds (t :: u :: below)) (hin : extent (u :: below) + 4 ≤ k.mem.cap) :
    topTwoRaw k = .ok (k.mem.valueAt (extent (u :: below)) .four, k.mem.valueAt (extent below) .four) := by
  have hsecond : extent below + 4 ≤ k.mem.cap := by rw [extent] at hin; omega
  rw [topTwoRaw_eq h, rawRead_in_bounds hin, Res.bind_ok, rawRead_in_bounds hsecond, Res.bind_ok]

end

/-! ## A conditional jump, by what its operands' read answers (R121 to R126) -/

section
variable {s : State} {addr t u : Word} {cond : Word → Word → Bool} {kind : FaultKind}

theorem State.jumpIf_of_taken (h : cond t u = true) : s.jumpIf (cond t u) addr = { s with ip := addr } := if_pos h

theorem State.jumpIf_of_not_taken (h : ¬ cond t u = true) : s.jumpIf (cond t u) addr = { s with ip := s.ip + 5 } :=
  if_neg h

theorem jumpOnRaw_raise (h : topTwoRaw s.stk = raise kind) : jumpOnRaw cond addr s = .next (s.takeFault kind) := by
  rw [jumpOnRaw, h, Res.bind_raise, State.perform_raise]

theorem jumpOnRaw_ok (h : topTwoRaw s.stk = .ok (t, u)) :
    jumpOnRaw cond addr s = .next (s.jumpIf (cond t u) addr) := by
  rw [jumpOnRaw, h, Res.bind_ok, State.perform_ok]

theorem jumpOnWords_raise (h : topTwoWords s.stk = raise kind) :
    jumpOnWords cond addr s = .next (s.takeFault kind) := by
  rw [jumpOnWords, h, Res.bind_raise, State.perform_raise]

theorem jumpOnWords_ok (h : topTwoWords s.stk = .ok (t, u)) :
    jumpOnWords cond addr s = .next (s.jumpIf (cond t u) addr) := by
  rw [jumpOnWords, h, Res.bind_ok, State.perform_ok]

end

/-! ## The rule shapes of the conditional jumps -/

section
variable {mk : Word → Instr} {op : Byte} {cond : Word → Word → Bool} {taken : Word → Word → Prop}

/-- R121 and R122 hold of an instruction that jumps on a condition on the raw bytes. -/
theorem rawJumpRule_of_jumpOnRaw (hcode : ∀ addr, encode (mk addr) = op :: leBytes addr)
    (hexec : ∀ addr s, exec (mk addr) s = jumpOnRaw cond addr s) (hcond : ∀ t u, cond t u = true ↔ taken t u) :
    RawJumpRule mk op taken := by
  refine fun addr => ⟨hcode addr, fun s => ⟨fun hfew => ?_, fun t u below h => ⟨fun hpast => ?_, fun hin => ?_⟩⟩⟩
  · rw [hexec, jumpOnRaw_raise (topTwoRaw_underflow hfew)]
  · rw [hexec, jumpOnRaw_raise (topTwoRaw_past_cap h hpast)]
  · rw [hexec, jumpOnRaw_ok (topTwoRaw_in_cap h hin), ← hcond]
    exact ⟨fun htaken => by rw [State.jumpIf_of_taken htaken], fun hnot => by rw [State.jumpIf_of_not_taken hnot]⟩

/-- R123 to R126 hold of an instruction that jumps on a condition on the two words. -/
theorem wordJumpRule_of_jumpOnWords (hcode : ∀ addr, encode (mk addr) = op :: leBytes addr)
    (hexec : ∀ addr s, exec (mk addr) s = jumpOnWords cond addr s) (hcond : ∀ t u, cond t u = true ↔ taken t u) :
    WordJumpRule mk op taken := by
  refine fun addr => ⟨hcode addr, fun s => ⟨fun hfew => ?_, fun t u below h => ⟨fun hbyte => ?_, fun ht hu => ?_⟩⟩⟩
  · rw [hexec, jumpOnWords_raise (topTwoWords_underflow hfew)]
  · rw [hexec, jumpOnWords_raise (topTwoWords_mismatch h hbyte)]
  · rw [hexec, jumpOnWords_ok (topTwoWords_of_holds h ht hu), ← hcond]
    exact ⟨fun htaken => by rw [State.jumpIf_of_taken htaken], fun hnot => by rw [State.jumpIf_of_not_taken hnot]⟩

end

/-! ## The meaning of each jump (R120 to R126) -/

section
variable (addr : Word) (s : State)

theorem exec_jmp : exec (.jmp addr) s = .next (s.jump addr) := rfl
theorem exec_je : exec (.je addr) s = jumpOnRaw (fun t u => t == u) addr s := rfl
theorem exec_jn : exec (.jn addr) s = jumpOnRaw (fun t u => t != u) addr s := rfl
theorem exec_jl : exec (.jl addr) s = jumpOnWords (fun t u => ltU t u) addr s := rfl
theorem exec_jg : exec (.jg addr) s = jumpOnWords (fun t u => ltU u t) addr s := rfl
theorem exec_jls : exec (.jls addr) s = jumpOnWords (fun t u => ltS t u) addr s := rfl
theorem exec_jgs : exec (.jgs addr) s = jumpOnWords (fun t u => ltS u t) addr s := rfl

end

theorem ltU_iff (t u : Word) : ltU t u = true ↔ t.toNat < u.toNat := decide_eq_true_iff

/-- The signed comparison of R9 is that of the two's-complement values. -/
theorem ltS_iff (t u : Word) : ltS t u = true ↔ t.toInt < u.toInt := by
  rw [ltS, s32_eq_toInt, s32_eq_toInt, decide_eq_true_iff]

/-! ## The obligations -/

/-- Settles O31: `jmp` reads no operand, so nothing can fault. -/
theorem jmpSetsIp : Obligations.JmpSetsIp := fun addr => ⟨rfl, exec_jmp addr⟩

/-- Settles O32: both jumps have the raw rule's shape, on equality and on inequality. -/
theorem equalityJumpsCompareRawBytes : Obligations.EqualityJumpsCompareRawBytes :=
  ⟨rawJumpRule_of_jumpOnRaw (fun _ => rfl) exec_je fun _ _ => beq_iff_eq,
    rawJumpRule_of_jumpOnRaw (fun _ => rfl) exec_jn fun _ _ => bne_iff_ne⟩

/-- Settles O33: the four jumps have the word rule's shape; a greater-than is the less-than of the operands exchanged. -/
theorem orderedJumpsCompareTopWithSecond : Obligations.OrderedJumpsCompareTopWithSecond :=
  ⟨wordJumpRule_of_jumpOnWords (fun _ => rfl) exec_jl ltU_iff,
    wordJumpRule_of_jumpOnWords (fun _ => rfl) exec_jg fun t u => ltU_iff u t,
    wordJumpRule_of_jumpOnWords (fun _ => rfl) exec_jls ltS_iff,
    wordJumpRule_of_jumpOnWords (fun _ => rfl) exec_jgs fun t u => ltS_iff u t⟩

end Sys2Proof.Machine
end

-- Proofs of the family 42_loop.md: loop, lcont and lbrk on the loop context (O35).
section
/-! PROOFS. What each loop instruction does to the loop context, one lemma per way it ends (R130 to R132). -/

namespace Sys2Proof.Machine

section
variable {s : State} (count body stop : Word)

/-! ## The meaning of each loop instruction (R130 to R132) -/

theorem exec_loop (s : State) : exec (.loop count body stop) s = execLoop count body stop s := rfl
theorem exec_lcont (s : State) : exec .lcont s = execLcont s := rfl
theorem exec_lbrk (s : State) : exec .lbrk s = execLbrk s := rfl

/-! ## Entering a context (R130) -/

theorem exec_loop_nested (h : s.lp.active = true) :
    exec (.loop count body stop) s = .next (s.takeFault .nestedLoop) := by
  rw [exec_loop, execLoop, if_pos h, State.perform_raise]

theorem exec_loop_enter (h : s.lp.active = false) : exec (.loop count body stop) s =
    .next { s with ip := body, lp := { counter := count, bodyAddr := body, endAddr := stop, active := true } } := by
  rw [exec_loop, execLoop, if_neg (ne_true_of_eq_false h), State.perform_ok, State.jump]

/-! ## Another pass, or the end of the context (R131) -/

theorem exec_lcont_inactive (h : s.lp.active = false) : exec .lcont s = .next (s.takeFault .noActiveLoop) := by
  rw [exec_lcont, execLcont, if_pos h, State.perform_raise]

theorem exec_lcont_again (h : s.lp.active = true) (hmore : s.lp.counter.toNat > 1) : exec .lcont s =
    .next { s with ip := s.lp.bodyAddr, lp := { s.lp with counter := s.lp.counter - 1 } } := by
  rw [exec_lcont, execLcont, if_neg (ne_false_of_eq_true h), if_pos hmore, State.perform_ok, State.jump]

theorem exec_lcont_last (h : s.lp.active = true) (hlast : s.lp.counter.toNat ≤ 1) : exec .lcont s =
    .next { s with ip := s.lp.endAddr, lp := { s.lp with counter := 0, active := false } } := by
  rw [exec_lcont, execLcont, if_neg (ne_false_of_eq_true h), if_neg (Nat.not_lt.mpr hlast), State.perform_ok,
    State.jump]

/-! ## Leaving a context (R132) -/

theorem exec_lbrk_inactive (h : s.lp.active = false) : exec .lbrk s = .next (s.takeFault .noActiveLoop) := by
  rw [exec_lbrk, execLbrk, if_pos h, State.perform_raise]

theorem exec_lbrk_active (h : s.lp.active = true) : exec .lbrk s =
    .next { s with ip := s.lp.endAddr, lp := { s.lp with active := false } } := by
  rw [exec_lbrk, execLbrk, if_neg (ne_false_of_eq_true h), State.perform_ok, State.jump]

end

/-! ## The obligation -/

/-- Settles O35: one lemma per way each of the three instructions ends. -/
theorem loopInstructionsDriveTheContext : Obligations.LoopInstructionsDriveTheContext :=
  ⟨fun count body stop => ⟨rfl, fun _ => ⟨exec_loop_nested count body stop, exec_loop_enter count body stop⟩⟩,
    rfl, rfl, fun _ => ⟨fun h => ⟨exec_lcont_inactive h, exec_lbrk_inactive h⟩,
      exec_lcont_again, exec_lcont_last, exec_lbrk_active⟩⟩

end Sys2Proof.Machine
end

-- Proofs of the family 43_stack_memory.md: psh (O37), the pops (O38), pshfr (O39), poptr and movtr (O40), stktr (O41),
-- cpyr and setr (O42), pshfrr (O43), pshfrs (O44).
section
/-! PROOFS. The three last parts these instructions share (discard values, push one, store one), with what each leads
to; and what the reads before them answer or raise (R140 to R151). -/

namespace Sys2Proof.Machine

open Sys2Proof.Spec

/-! ## Performing a sequence -/

section
variable {α : Type} {s : State} {x : Res α} {f : α → Res State}

theorem State.perform_bind_raise {kind : FaultKind} (h : x = raise kind) :
    s.perform (x >>= f) = .next (s.takeFault kind) := by
  rw [h, Res.bind_raise, State.perform_raise]

theorem State.perform_bind_ok {a : α} (h : x = .ok a) : s.perform (x >>= f) = s.perform (f a) := by
  rw [h, Res.bind_ok]

end

/-! ## The last part of an instruction: discard, push or store, then `ip <- ip + len` -/

/-- Discard `n` values, then go on (R141 to R143). -/
def State.discarding (s : State) (n len : Nat) : Res State :=
  remove s.stk n >>= fun k => .ok ({ s with stk := k }.advance len)

/-- Push `v`, then go on (R140, R144, R150). -/
def State.pushing (s : State) (v : Value) (len : Nat) : Res State :=
  push s.stk v.1 v.2 >>= fun k => .ok ({ s with stk := k }.advance len)

/-- Store `v` in main memory at `dst`, the operand stack being left as `k`, then go on (R145 to R149). -/
def State.storing (s : State) (k : OperandStack) (dst : Word) (v : Value) (len : Nat) : Res State :=
  tagWrite s.mem dst.toNat v.1 v.2 >>= fun m => .ok ({ s with stk := k, mem := m }.advance len)

section
variable {i : Instr} {s : State} {k : OperandStack} {vals : List Value} {v : Value} {dst : Word} {n len : Nat}

theorem exec_discarding_few (hexec : exec i s = s.perform (s.discarding n len)) (h : s.stk.Holds vals)
    (hfew : vals.length < n) : exec i s = .next (s.takeFault .stackUnderflow) := by
  obtain ⟨-, -, hcount, -⟩ := h
  rw [hexec]
  exact State.perform_bind_raise (if_pos (by rwa [hcount]))

theorem exec_discarding_enough (hexec : exec i s = s.perform (s.discarding n len)) (h : s.stk.Holds vals)
    (hn : n ≤ vals.length) :
    exec i s = .next { s with ip := s.ip + BitVec.ofNat 32 len, stk := s.stk.cutTo (vals.drop n) } ∧
      (s.stk.cutTo (vals.drop n)).Holds (vals.drop n) := by
  obtain ⟨hremove, hholds⟩ := remove_of_holds h hn
  rw [hexec]
  exact ⟨State.perform_bind_ok hremove, hholds⟩

theorem pushOutcome_of_pushing (hexec : exec i s = s.perform (s.pushing v len)) (h : s.stk.Holds vals)
    (hfit : v.fits) : PushOutcome i (BitVec.ofNat 32 len) s vals v := by
  rw [PushOutcome, hexec]
  refine ⟨fun hfull => State.perform_bind_raise (push_overflow h hfull), fun hroom => ?_⟩
  obtain ⟨hpush, hholds⟩ := push_of_holds h hfit hroom
  exact ⟨State.perform_bind_ok hpush, hholds⟩

theorem storeOutcome_of_storing (hexec : exec i s = s.perform (s.storing k dst v len)) :
    StoreOutcome i (BitVec.ofNat 32 len) s k dst v := by
  rw [StoreOutcome, hexec]
  exact ⟨fun hout => State.perform_bind_raise (if_pos hout),
    fun hin => State.perform_bind_ok (if_neg (Nat.not_lt.mpr hin))⟩

end

/-! ## The reads before it -/

section
variable {m : Memory} {k : OperandStack} {v : Value} {above below vals : List Value} {a : Nat} {req : Request}
  {kind : FaultKind} {w : Word}

/-- What a typed read answers can be pushed: its pattern fits its type. -/
theorem tagRead_fits (h : tagRead m a req = .ok v) : v.fits :=
  have ⟨held, _⟩ := tagRead_ok h
  Memory.fits_of_holds held

theorem memPointer_raise (h : tagRead m w.toNat .word = raise kind) : memPointer m w = raise kind := by
  rw [memPointer, h, Res.bind_raise]

theorem memPointer_ok (h : tagRead m w.toNat .word = .ok v) : memPointer m w = .ok v.2 := by
  rw [memPointer, h, Res.bind_ok]

/-! ### The top value -/

theorem pop_empty (h : k.count = 0) : pop k = raise .stackUnderflow := if_pos h

theorem peekTop_empty (h : k.count = 0) : peekTop k req = raise .stackUnderflow := if_pos (by rw [h]; decide)

/-- One `Pop()` is `Remove(1)` with the result kept (R76). -/
theorem remove_one : remove k 1 = pop k >>= fun r => .ok r.2 := by
  by_cases h : k.count = 0
  · rw [pop_empty h, Res.bind_raise, remove, if_pos (by rw [h]; decide)]
  · have hlive : ¬ k.count.toNat < 1 := fun hlt => h (BitVec.eq_of_toNat_eq (Nat.lt_one_iff.mp hlt))
    rw [remove, if_neg hlive]
    rfl

theorem topWord_empty (h : k.count = 0) : topWord k = raise .stackUnderflow := by
  rw [topWord, peekTop_empty h, Res.bind_raise]

theorem topWord_of_byte (h : k.Holds (v :: below)) (hv : ¬ isWord v.1) : topWord k = raise .typeMismatch := by
  have hreq : Request.word.accepts v.1 = false := Bool.eq_false_iff.mpr (mt Request.accepts_word.mp hv)
  rw [topWord, peekTop_not_accepted h hreq, Res.bind_raise]

theorem topWord_of_word (h : k.Holds (v :: below)) (hv : isWord v.1) : topWord k = .ok v.2 := by
  rw [topWord, peekTop_of_holds h (Request.accepts_word.mpr hv), Res.bind_ok]

/-- A value of any type replaces a word on top: the word's four bytes are room for it (R151). -/
theorem pop_push_of_word {b : Value} (h : k.Holds (v :: below)) (hv : isWord v.1) (hfit : b.fits) :
    (pop k >>= fun r => push r.2 b.1 b.2) = .ok (k.putOn below b) ∧ (k.putOn below b).Holds (b :: below) := by
  have hroom : extent below + b.1.bytes ≤ k.mem.cap := by
    have := h.in_cap
    rw [ValTy.bytes_of_word hv] at this
    have := b.1.bytes_le
    omega
  rw [pop_of_holds h, Res.bind_ok]
  exact push_of_holds h.cutTo hfit hroom

/-! ### A value of the live stack (R147) -/

theorem stackValue_outside (h : k.Holds vals) (hsrc : w.toNat ≥ extent vals) :
    stackValue k w = raise .invalidAddress := by
  rw [stackValue, stkNext_of_holds h, Res.bind_ok, if_pos hsrc]

theorem stackValue_inside (h : k.Holds vals) (hsrc : w.toNat < extent vals) :
    stackValue k w = tagRead k.mem w.toNat .any := by
  rw [stackValue, stkNext_of_holds h, Res.bind_ok, if_neg (Nat.not_le.mpr hsrc)]

theorem extent_append : extent (above ++ below) = extent below + extent above := by
  induction above with
  | nil => rfl
  | cons u above ih => rw [List.cons_append, extent, extent, ih, Nat.add_assoc]

/-- The region holds each of its values at the end of the values below it. -/
theorem Memory.holds_of_holdsAll (h : m.holdsAll (above ++ v :: below) = true) : m.holds (extent below) v = true := by
  induction above with
  | nil => exact Bool.and_elim_left h
  | cons u above ih => exact ih (Bool.and_elim_right h)

/-- The read at the start of a live value answers it. -/
theorem stackValue_of_live (h : k.Holds (above ++ v :: below)) (hsrc : w.toNat = extent below) :
    stackValue k w = .ok v := by
  have ⟨_, hcap, _, _, hall⟩ := h
  have hend : extent below + v.1.bytes ≤ extent (above ++ v :: below) := by rw [extent_append, extent]; omega
  have hpos := v.1.bytes_pos
  rw [stackValue_inside h (by omega), hsrc]
  exact tagRead_of_holds (Memory.holds_of_holdsAll hall) (hend.trans hcap) rfl

end

/-! ## The meaning of each instruction (R140 to R151), through the parts above -/

section
variable (s : State) (addr src dst value n : Word)

theorem exec_psh : exec (.psh value) s = s.perform (s.pushing (.u32, value) 5) := rfl

theorem exec_pop : exec .pop s = s.perform (s.discarding 1 1) := by
  rw [State.discarding, remove_one, bind_assoc]
  rfl

theorem exec_pop2 : exec .pop2 s = s.perform (s.discarding 2 1) := rfl
theorem exec_popn : exec (.popn n) s = s.perform (s.discarding n.toNat 5) := rfl

theorem exec_pshfr : exec (.pshfr addr) s = s.perform (memValue s.mem addr >>= fun v => s.pushing v 5) := rfl

theorem exec_poptr : exec (.poptr addr) s = s.perform (pop s.stk >>= fun r => s.storing r.2 addr r.1 5) := rfl

theorem exec_movtr : exec (.movtr addr) s =
    s.perform (peekTop s.stk .any >>= fun v => s.storing s.stk addr v 5) := rfl

theorem exec_stktr : exec (.stktr src dst) s =
    s.perform (stackValue s.stk src >>= fun v => s.storing s.stk dst v 9) := rfl

theorem exec_cpyr : exec (.cpyr src dst) s =
    s.perform (memValue s.mem src >>= fun v => s.storing s.stk dst v 9) := rfl

theorem exec_setr : exec (.setr dst value) s = s.perform (s.storing s.stk dst (.u32, value) 9) := rfl

theorem exec_pshfrr : exec (.pshfrr addr) s =
    s.perform (memPointer s.mem addr >>= fun p => memValue s.mem p >>= fun v => s.pushing v 5) := rfl

theorem exec_pshfrs : exec .pshfrs s =
    s.perform (topWord s.stk >>= fun a => memPointer s.mem a >>= fun p => memValue s.mem p >>= fun v =>
      (pop s.stk >>= fun r => push r.2 v.1 v.2) >>= fun k => .ok ({ s with stk := k }.advance 1)) := by
  simp only [bind_assoc]
  rfl

end

/-! ## The obligations -/

/-- Settles O37: `psh` is one push, of a pattern that fits its type. -/
theorem pshPushesAUint32 : Obligations.PshPushesAUint32 := fun value =>
  ⟨rfl, fun s _ h => pushOutcome_of_pushing (exec_psh s value) h (fun hbyte => nomatch hbyte)⟩

/-- Settles O38: the three instructions discard by `Remove`, with counts 1, 2 and `n`. -/
theorem popsDiscardValues : Obligations.PopsDiscardValues :=
  ⟨rfl, rfl, fun _ => rfl, fun s _ h =>
    ⟨exec_discarding_few (exec_pop s) h, exec_discarding_enough (exec_pop s) h,
      exec_discarding_few (exec_pop2 s) h, exec_discarding_enough (exec_pop2 s) h,
      fun n => ⟨exec_discarding_few (exec_popn s n) h, exec_discarding_enough (exec_popn s n) h⟩⟩⟩

/-- Settles O39: the read, then a push of what it answered. -/
theorem pshfrPushesTheMemoryValue : Obligations.PshfrPushesTheMemoryValue := by
  refine fun addr => ⟨rfl, fun s => ⟨fun kind hread => ?_, fun vals v h hread => ?_⟩⟩
  · exact (exec_pshfr s addr).trans (State.perform_bind_raise hread)
  · exact pushOutcome_of_pushing ((exec_pshfr s addr).trans (State.perform_bind_ok hread)) h (tagRead_fits hread)

/-- Settles O40: `poptr` stores what `Pop` answers and keeps the stack it leaves, `movtr` what `PeekTop` answers. -/
theorem poptrAndMovtrStoreTheTopValue : Obligations.PoptrAndMovtrStoreTheTopValue := by
  refine fun addr => ⟨rfl, rfl, fun s => ⟨fun hempty => ⟨?_, ?_⟩, fun v below h => ⟨?_, h.cutTo, ?_⟩⟩⟩
  · exact (exec_poptr s addr).trans (State.perform_bind_raise (pop_empty hempty))
  · exact (exec_movtr s addr).trans (State.perform_bind_raise (peekTop_empty hempty))
  · exact storeOutcome_of_storing ((exec_poptr s addr).trans (State.perform_bind_ok (pop_of_holds h)))
  · exact storeOutcome_of_storing ((exec_movtr s addr).trans (State.perform_bind_ok (peekTop_of_holds h rfl)))

/-- Settles O41: the address against the end of the live stack, then the read, which answers each live value. -/
theorem stktrStoresALiveStackValue : Obligations.StktrStoresALiveStackValue := by
  intro src dst
  refine ⟨rfl, fun s vals h => ⟨fun hout => ?_, fun hin => ⟨fun kind hread => ?_, fun v hread => ?_⟩, ?_⟩⟩
  · exact (exec_stktr s src dst).trans (State.perform_bind_raise (stackValue_outside h hout))
  · exact (exec_stktr s src dst).trans (State.perform_bind_raise ((stackValue_inside h hin).trans hread))
  · exact storeOutcome_of_storing
      ((exec_stktr s src dst).trans (State.perform_bind_ok ((stackValue_inside h hin).trans hread)))
  · rintro above below v rfl hsrc
    exact storeOutcome_of_storing ((exec_stktr s src dst).trans (State.perform_bind_ok (stackValue_of_live h hsrc)))

/-- Settles O42: `cpyr` stores what its read answers, `setr` its immediate. -/
theorem cpyrAndSetrStoreToMemory : Obligations.CpyrAndSetrStoreToMemory := by
  intro src dst value
  refine ⟨rfl, rfl, fun s => ⟨fun kind hread => ?_, fun v hread => ?_, ?_⟩⟩
  · exact (exec_cpyr s src dst).trans (State.perform_bind_raise hread)
  · exact storeOutcome_of_storing ((exec_cpyr s src dst).trans (State.perform_bind_ok hread))
  · exact storeOutcome_of_storing (exec_setr s dst value)

/-- Settles O43: the pointer's read, then the value's, then a push of what it answered. -/
theorem pshfrrPushesThroughAPointer : Obligations.PshfrrPushesThroughAPointer := by
  refine fun addr => ⟨rfl, fun s => ⟨fun kind hptr => ?_, fun p hptr => ?_⟩⟩
  · exact (exec_pshfrr s addr).trans (State.perform_bind_raise (memPointer_raise hptr))
  · have hexec := (exec_pshfrr s addr).trans (State.perform_bind_ok (memPointer_ok hptr))
    exact ⟨fun kind hread => hexec.trans (State.perform_bind_raise hread), fun vals v h hread =>
      pushOutcome_of_pushing (hexec.trans (State.perform_bind_ok hread)) h (tagRead_fits hread)⟩

/-- Settles O44: the top value and the two reads decide the fault; the push that follows the pop always has room. -/
theorem pshfrsReplacesTheAddressOnTop : Obligations.PshfrsReplacesTheAddressOnTop := by
  refine ⟨rfl, fun s => ⟨fun hempty => ?_, fun a below h => ⟨fun hbyte => ?_, fun hword => ?_⟩⟩⟩
  · exact (exec_pshfrs s).trans (State.perform_bind_raise (topWord_empty hempty))
  · exact (exec_pshfrs s).trans (State.perform_bind_raise (topWord_of_byte h hbyte))
  · have hexec := (exec_pshfrs s).trans (State.perform_bind_ok (topWord_of_word h hword))
    refine ⟨fun kind hptr => hexec.trans (State.perform_bind_raise (memPointer_raise hptr)), fun p hptr => ?_⟩
    replace hexec := hexec.trans (State.perform_bind_ok (memPointer_ok hptr))
    refine ⟨fun kind hread => hexec.trans (State.perform_bind_raise hread), fun v hread => ?_⟩
    obtain ⟨hreplace, hholds⟩ := pop_push_of_word h hword (tagRead_fits hread)
    exact ⟨(hexec.trans (State.perform_bind_ok hread)).trans (State.perform_bind_ok hreplace), hholds⟩

end Sys2Proof.Machine
end

-- Proofs of the families 44 to 47, arithmetic and bitwise: the unary instructions (O45), sums, differences and products
-- (O46), divisions (O47, O48), bitwise operations (O49), shifts (O50), rotates (O51).
section
/-! PROOFS. The ways the two shared procedures end (R160, R161), made once into the rule of an instruction. Each
instruction then gives its function, which Laws/Alu.lean has as a `BitVec` operation, and its result type. -/

namespace Sys2Proof.Machine

open Sys2Proof.Spec

/-! ## How the shared procedures fault (R160, R161) -/

section
variable {k : OperandStack} {v w : Value} {below : List Value} {kind : FaultKind} {f : Word → Word → Word}
  {g : Word → Word} {rty : ValTy} {zcheck : Bool}

/-- `BinOp` raises what reading its operands raises (R160). -/
theorem binOp_raise (h : topTwoWords k = raise kind) : binOp f rty zcheck k = raise kind := by
  rw [binOp, h, Res.bind_raise]

/-- A divisor is looked at only after both type checks, and nothing is popped before it is (R160). -/
theorem binOp_divisionByZero (h : k.Holds (v :: w :: below)) (hv : isWord v.1) (hw : isWord w.1) (hz : v.2 = 0) :
    binOp f rty true k = raise .divisionByZero := by
  rw [binOp, topTwoWords_of_holds h hv hw, Res.bind_ok, hz]
  rfl

/-- `UnOp` raises what reading its operand raises (R161). -/
theorem unOp_raise (h : topWord k = raise kind) : unOp g rty k = raise kind := by
  rw [unOp, h, Res.bind_raise]

end

/-! ## From the shared procedures to the rule of an instruction -/

section
variable {i : Instr} {op : Byte} {rty : ValTy} {zcheck : Bool}

/-- R160 for an instruction whose meaning is `BinOp` of a function that computes `f`. -/
theorem binaryRule_of_exec {f fn : Word → Word → Word} (hop : encode i = [op])
    (hexec : exec i = execBinOp fn rty zcheck) (hfn : ∀ l r, fn l r = f l r) (hrty : isWord rty) :
    BinaryRule i op f rty zcheck := by
  obtain rfl : fn = f := funext₂ hfn
  rw [BinaryRule, hexec]
  refine ⟨hop, fun s => ⟨fun hfew => ?_, fun vr vl below h => ⟨fun hbyte => ?_, ?_, fun hr hl hz => ?_⟩⟩⟩
  · exact State.perform_bind_raise (binOp_raise (topTwoWords_underflow hfew))
  · exact State.perform_bind_raise (binOp_raise (topTwoWords_mismatch h hbyte))
  · rintro hr hl rfl hzero
    exact State.perform_bind_raise (binOp_divisionByZero h hr hl hzero)
  · obtain ⟨hbin, hholds⟩ := binOp_of_holds h hr hl fn hrty hz
    exact ⟨State.perform_bind_ok hbin, hholds⟩

/-- R161 for an instruction whose meaning is `UnOp` of a function that computes `f`. -/
theorem unaryRule_of_exec {f fn : Word → Word} (hop : encode i = [op]) (hexec : exec i = execUnOp fn rty)
    (hfn : ∀ v, fn v = f v) (hrty : isWord rty) : UnaryRule i op f rty := by
  obtain rfl : fn = f := funext hfn
  rw [UnaryRule, hexec]
  refine ⟨hop, fun s => ⟨fun hempty => ?_, fun v below h => ⟨fun hbyte => ?_, fun hword => ?_⟩⟩⟩
  · exact State.perform_bind_raise (unOp_raise (topWord_empty hempty))
  · exact State.perform_bind_raise (unOp_raise (topWord_of_byte h hbyte))
  · obtain ⟨hun, hholds⟩ := unOp_of_holds h hword fn hrty
    exact ⟨State.perform_bind_ok hun, hholds⟩

end

/-! ## The obligations -/

/-- Settles O45: each instruction is `UnOp` of its function, the signed successor and predecessor being the unsigned
ones. -/
theorem unaryInstructionsReplaceTheTop : Obligations.UnaryInstructionsReplaceTheTop :=
  ⟨unaryRule_of_exec rfl rfl incFn_eq (.inl rfl), unaryRule_of_exec rfl rfl decFn_eq (.inl rfl),
    unaryRule_of_exec rfl rfl incsFn_eq (.inr rfl), unaryRule_of_exec rfl rfl decsFn_eq (.inr rfl),
    unaryRule_of_exec rfl rfl (fun _ => rfl) (.inl rfl), unaryRule_of_exec rfl rfl (fun _ => rfl) (.inr rfl)⟩

/-- Settles O46: each instruction is `BinOp` of its function, on signed values the same pattern as on unsigned ones. -/
theorem sumsDifferencesAndProductsWrap : Obligations.SumsDifferencesAndProductsWrap :=
  ⟨binaryRule_of_exec rfl rfl addFn_eq (.inl rfl), binaryRule_of_exec rfl rfl subFn_eq (.inl rfl),
    binaryRule_of_exec rfl rfl mulFn_eq (.inl rfl), binaryRule_of_exec rfl rfl addsFn_eq (.inr rfl),
    binaryRule_of_exec rfl rfl subsFn_eq (.inr rfl), binaryRule_of_exec rfl rfl mulsFn_eq (.inr rfl)⟩

/-- Settles O47: `BinOp` with its zero check, of the unsigned quotient and of the remainder. -/
theorem unsignedDivisionInstructions : Obligations.UnsignedDivisionInstructions :=
  ⟨binaryRule_of_exec rfl rfl divFn_eq (.inl rfl), binaryRule_of_exec rfl rfl modFn_eq (.inl rfl)⟩

/-- Settles O48: `BinOp` with its zero check, of the signed quotient and of the remainder. -/
theorem signedDivisionInstructions : Obligations.SignedDivisionInstructions :=
  ⟨binaryRule_of_exec rfl rfl divsFn_eq (.inr rfl), binaryRule_of_exec rfl rfl modsFn_eq (.inr rfl)⟩

/-- Settles O49: the model gives `BinOp` the bitwise operation itself. -/
theorem bitwiseInstructions : Obligations.BitwiseInstructions :=
  ⟨binaryRule_of_exec rfl rfl (fun _ _ => rfl) (.inl rfl), binaryRule_of_exec rfl rfl (fun _ _ => rfl) (.inl rfl),
    binaryRule_of_exec rfl rfl (fun _ _ => rfl) (.inl rfl), binaryRule_of_exec rfl rfl (fun _ _ => rfl) (.inr rfl),
    binaryRule_of_exec rfl rfl (fun _ _ => rfl) (.inr rfl), binaryRule_of_exec rfl rfl (fun _ _ => rfl) (.inr rfl)⟩

/-- Settles O50: the two families share the shift left, and only `rshfts` fills with the sign bit. -/
theorem shiftInstructions : Obligations.ShiftInstructions :=
  ⟨binaryRule_of_exec rfl rfl shiftLeftFn_eq (.inl rfl), binaryRule_of_exec rfl rfl shiftRightFn_eq (.inl rfl),
    binaryRule_of_exec rfl rfl shiftLeftFn_eq (.inr rfl), binaryRule_of_exec rfl rfl shiftRightSignedFn_eq (.inr rfl)⟩

/-- Settles O51: the two families share both rotates and differ in the tag of the result. -/
theorem rotateInstructions : Obligations.RotateInstructions :=
  ⟨binaryRule_of_exec rfl rfl rotateLeftFn_eq (.inl rfl), binaryRule_of_exec rfl rfl rotateRightFn_eq (.inl rfl),
    binaryRule_of_exec rfl rfl rotateLeftFn_eq (.inr rfl), binaryRule_of_exec rfl rfl rotateRightFn_eq (.inr rfl)⟩

end Sys2Proof.Machine
end

-- Proofs of the family 48_inspect_debug.md: the two inspections, of main memory (O55) and of the operand stack (O56).
section
/-! PROOFS. What the type code and the inspected address answer or raise (R240, R241), one lemma per way each ends. The
raw read and the event after them, which both instructions end with, are a sequence of their own. -/

namespace Sys2Proof.Machine

open Sys2Proof.Spec

/-! ## The type code (48_inspect_debug.md) -/

section
variable {code : Word} {ty : ValTy}

theorem typeOfCode_unknown (h : 2 < code.toNat) : typeOfCode code = raise .typeMismatch := by
  have hne : ∀ c : Word, c.toNat ≤ 2 → code ≠ c := by
    rintro c hc rfl
    omega
  rw [typeOfCode, if_neg (hne 0 (by decide)), if_neg (hne 1 (by decide)), if_neg (hne 2 (by decide))]

theorem typeOfCode_of_codeOf (h : code.toNat = codeOf ty) : typeOfCode code = .ok ty := by
  obtain rfl : code = BitVec.ofNat 32 (codeOf ty) := by rw [← h, BitVec.ofNat_toNat, BitVec.setWidth_eq]
  cases ty <;> rfl

end

/-! ## The inspected stack address (R241) -/

section
variable {k : OperandStack} {offset : Word}

theorem inspectedAddr_empty (h : k.count = 0) : inspectedAddr k offset = raise .stackUnderflow := if_pos h

theorem inspectedAddr_below_base (h : k.count ≠ 0) (hoff : offset.toNat > k.top.toNat) :
    inspectedAddr k offset = raise .invalidAddress := by
  rw [inspectedAddr, if_neg h, if_pos hoff]

theorem inspectedAddr_ok (h : k.count ≠ 0) (hoff : offset.toNat ≤ k.top.toNat) :
    inspectedAddr k offset = .ok (k.top.toNat - offset.toNat) := by
  rw [inspectedAddr, if_neg h, if_neg (Nat.not_lt.mpr hoff)]

end

/-! ## The last part of an inspection: the raw read, the event, then `ip <- ip + 9` -/

/-- Read the value at `a` of region `m`, emit it as found at `place`, then go on (R240, R241). -/
def State.inspecting (s : State) (region : Place) (place code : Word) (m : Memory) (a : Nat) (ty : ValTy) : Res State :=
  rawRead m a ty.width >>= fun v => .ok ((s.emit (.inspect region place code v)).advance 9)

section
variable {i : Instr} {s : State} {region : Place} {place code : Word} {m : Memory} {a : Nat} {ty : ValTy}

theorem exec_inspecting_outside (hexec : exec i s = s.perform (s.inspecting region place code m a ty))
    (hout : a + ty.bytes > m.cap) : exec i s = .next (s.takeFault .invalidAddress) :=
  hexec.trans (State.perform_bind_raise (rawRead_out_of_bounds hout))

theorem exec_inspecting_inside (hexec : exec i s = s.perform (s.inspecting region place code m a ty))
    (hin : a + ty.bytes ≤ m.cap) : exec i s =
      .next { s with ip := s.ip + 9, events := s.events ++ [.inspect region place code (m.valueAt a ty.width)] } :=
  hexec.trans (State.perform_bind_ok (rawRead_in_bounds hin))

end

/-! ## The two instructions as sequences -/

section
variable (s : State) (code addr offset : Word)

theorem exec_nspctr : exec (.nspctr code addr) s =
    s.perform (typeOfCode code >>= fun ty => s.inspecting .mem addr code s.mem addr.toNat ty) := rfl

theorem exec_nspctst : exec (.nspctst code offset) s =
    s.perform (typeOfCode code >>= fun ty => inspectedAddr s.stk offset >>= fun a =>
      s.inspecting .stack offset code s.stk.mem a ty) := rfl

end

/-! ## The obligations -/

/-- Settles O55: the type code, then the raw read at the address. -/
theorem nspctrEmitsTheMemoryValue : Obligations.NspctrEmitsTheMemoryValue := by
  refine fun code addr => ⟨rfl, fun s => ⟨fun hcode => ?_, fun ty hcode => ?_⟩⟩
  · exact (exec_nspctr s code addr).trans (State.perform_bind_raise (typeOfCode_unknown hcode))
  · have hexec := (exec_nspctr s code addr).trans (State.perform_bind_ok (typeOfCode_of_codeOf hcode))
    exact ⟨exec_inspecting_outside hexec, exec_inspecting_inside hexec⟩

/-- Settles O56: the type code, then the inspected address, then the raw read there. -/
theorem nspctstEmitsTheStackValue : Obligations.NspctstEmitsTheStackValue := by
  refine fun code offset => ⟨rfl, fun s => ⟨fun hcode => ?_, fun ty hcode => ?_⟩⟩
  · exact (exec_nspctst s code offset).trans (State.perform_bind_raise (typeOfCode_unknown hcode))
  · have hexec := (exec_nspctst s code offset).trans (State.perform_bind_ok (typeOfCode_of_codeOf hcode))
    refine ⟨fun hempty => ?_, fun hsome => ⟨fun hbelow => ?_, fun hoff => ?_⟩⟩
    · exact hexec.trans (State.perform_bind_raise (inspectedAddr_empty hempty))
    · exact hexec.trans (State.perform_bind_raise (inspectedAddr_below_base hsome hbelow))
    · replace hexec := hexec.trans (State.perform_bind_ok (inspectedAddr_ok hsome hoff))
      exact ⟨exec_inspecting_outside hexec, exec_inspecting_inside hexec⟩

end Sys2Proof.Machine
end

-- Proofs of the family 60_exceptions.md: the host's reads of memory and of the stack (O13).
section
/-! PROOFS. What a host read answers at an address (R326), and the address, or the error, that each of the two host reads
comes to. Their type code and inspected address are the ones of the inspections (R240, R241). -/

namespace Sys2Proof.Machine

open Sys2Proof.Spec

/-! ## A host read at an address -/

section
variable {m : Memory} {a : Nat} {n : Width}

theorem hostRead_in_bounds (h : a + n.bytes ≤ m.cap) : hostRead m a n = some (m.valueAt a n, m.tagAt a) := by
  rw [hostRead, rawRead_in_bounds h]

theorem hostRead_out_of_bounds (h : a + n.bytes > m.cap) : hostRead m a n = none := by
  rw [hostRead, rawRead_out_of_bounds h]
  rfl

end

/-! ## The address a host read comes to, or its error -/

section
variable {s : State} {code offset : Word} {ty : ValTy}

theorem readMemory_of_codeOf (addr : Word) (hcode : code.toNat = codeOf ty) :
    readMemory s addr code = hostRead s.mem addr.toNat ty.width := by
  rw [readMemory, typeOfCode_of_codeOf hcode]

theorem readMemory_unknown (addr : Word) (hcode : 2 < code.toNat) : readMemory s addr code = none := by
  rw [readMemory, typeOfCode_unknown hcode]
  rfl

theorem readStack_of_codeOf (hcode : code.toNat = codeOf ty) (hsome : s.stk.count ≠ 0)
    (hoff : offset.toNat ≤ s.stk.top.toNat) :
    readStack s offset code = hostRead s.stk.mem (s.stk.top.toNat - offset.toNat) ty.width := by
  rw [readStack, typeOfCode_of_codeOf hcode, inspectedAddr_ok hsome hoff]

/-- Whatever the type code is. -/
theorem readStack_of_inspectedAddr_raise {kind : FaultKind} (haddr : inspectedAddr s.stk offset = raise kind) :
    readStack s offset code = none := by
  rw [readStack, haddr]
  cases typeOfCode code <;> rfl

theorem readStack_unknown (offset : Word) (hcode : 2 < code.toNat) : readStack s offset code = none := by
  rw [readStack, typeOfCode_unknown hcode]
  rfl

/-- The three errors of a stack read with a good type code, in the order in which the model looks for them. -/
theorem readStack_none (hcode : code.toNat = codeOf ty)
    (h : s.stk.count = 0 ∨ offset.toNat > s.stk.top.toNat ∨
      s.stk.top.toNat - offset.toNat + ty.bytes > s.stk.mem.cap) :
    readStack s offset code = none := by
  by_cases hempty : s.stk.count = 0
  · exact readStack_of_inspectedAddr_raise (inspectedAddr_empty hempty)
  by_cases hbelow : offset.toNat > s.stk.top.toNat
  · exact readStack_of_inspectedAddr_raise (inspectedAddr_below_base hempty hbelow)
  have hout := (h.resolve_left hempty).resolve_left hbelow
  exact (readStack_of_codeOf hcode hempty (Nat.not_lt.mp hbelow)).trans (hostRead_out_of_bounds hout)

end

/-! ## The obligation -/

/-- Settles O13: each host read is `hostRead` at its address, or an error found before the read. -/
theorem hostReadsAreRaw : Obligations.HostReadsAreRaw := by
  refine fun s ty code hcode x => ⟨fun hin => ?_, fun hout => ?_, fun hsome hoff hin => ?_, readStack_none hcode,
    fun bad hbad => ⟨readMemory_unknown x hbad, readStack_unknown x hbad⟩⟩
  · exact (readMemory_of_codeOf x hcode).trans (hostRead_in_bounds hin)
  · exact (readMemory_of_codeOf x hcode).trans (hostRead_out_of_bounds hout)
  · exact (readStack_of_codeOf hcode hsome hoff).trans (hostRead_in_bounds hin)

end Sys2Proof.Machine
end

-- Proofs of the family 70_reset_and_hazards.md: the state a launch leaves (O15).
section
/-! PROOFS. What the loader leaves in memory, by induction on the image (R341), and the state that a launch starts a core in
(R342, R343). -/

namespace Sys2Proof.Machine

/-! ## The loader (R341) -/

section
variable {a : Nat} {b : Byte} {image : List Byte} {m m' : Memory}

/-- The loader's first write is in bounds, and the rest of the image is loaded after it. -/
theorem loadImage_cons_ok (h : loadImage a (b :: image) m = .ok m') :
    a + 1 ≤ m.cap ∧ loadImage (a + 1) image (m.setByte a b) = .ok m' := by
  obtain ⟨_, hwrite, hrest⟩ := Res.bind_eq_ok.mp h
  obtain ⟨hcap, rfl⟩ := rawWrite_ok hwrite
  exact ⟨hcap, by simpa [Memory.setBytes] using hrest⟩

theorem loadImage_cap (h : loadImage a image m = .ok m') : m'.cap = m.cap := by
  induction image generalizing a m with
  | nil => rw [← Except.ok.inj h]
  | cons b rest ih => rw [ih (loadImage_cons_ok h).2, Memory.cap_setByte]

theorem loadImage_tagAt (h : loadImage a image m = .ok m') (k : Nat) : m'.tagAt k = m.tagAt k := by
  induction image generalizing a m with
  | nil => rw [← Except.ok.inj h]
  | cons b rest ih => rw [ih (loadImage_cons_ok h).2, Memory.tagAt_setByte]

theorem loadImage_byteAt_below (h : loadImage a image m = .ok m') {k : Nat} (hk : k < a) :
    m'.byteAt k = m.byteAt k := by
  induction image generalizing a m with
  | nil => rw [← Except.ok.inj h]
  | cons b rest ih => rw [ih (loadImage_cons_ok h).2 (by omega), Memory.byteAt_setByte, if_neg (by omega)]

/-- From its first address on, the image's bytes, and past its end the bytes that were there. -/
theorem loadImage_byteAt_from (h : loadImage a image m = .ok m') (k : Nat) :
    m'.byteAt (a + k) = (image[k]?).getD (m.byteAt (a + k)) := by
  induction image generalizing a m k with
  | nil => rw [← Except.ok.inj h]; rfl
  | cons b rest ih =>
    have hrest := (loadImage_cons_ok h).2
    cases k with
    | zero => simp [loadImage_byteAt_below hrest (Nat.lt_succ_self a)]
    | succ k => simpa [Nat.add_assoc, Nat.add_comm 1 k] using ih hrest k

end

/-! ## The launch (R320, R341 to R343) -/

/-- A core that starts is the reset one over the memory the loader left. -/
theorem launch_ok {p : LaunchParams} {image : List Byte} {s : State} (h : launch p image = .ok s) :
    p.ok ∧ ∃ m, loadImage 0 image { cap := p.memCap, bytes := [], tags := p.initTags } = .ok m ∧
      s = resetWith m p.stackCap := by
  unfold launch at h
  split at h
  · next hok =>
    split at h
    · next m hload => exact ⟨hok, m, hload, (Except.ok.inj h).symm⟩
    · cases h
  · cases h

/-! ## The obligation -/

/-- Settles O15: the loader's effect on zeroed memory gives the bytes, tags and capacity of `M`; every other part is what
`resetWith` writes. -/
theorem launchLoadsTheImageAndResets : Obligations.LaunchLoadsTheImageAndResets := by
  intro p image s h
  obtain ⟨-, m, hload, rfl⟩ := launch_ok h
  have hbytes (k : Nat) : m.byteAt k = (image[k]?).getD 0 := by
    have hbyte := loadImage_byteAt_from hload k
    rwa [Nat.zero_add] at hbyte
  exact ⟨hbytes, loadImage_tagAt hload, loadImage_cap hload, rfl, rfl, rfl, rfl, rfl, rfl, rfl, rfl, fun _ => rfl, rfl,
    rfl, fun _ => ⟨rfl, rfl⟩, rfl⟩

end Sys2Proof.Machine
end

-- Proofs of the family 'other', the encoding: decode of encode (O1), encode of decode (O2), words (O3, O4), the bytes
-- at `ip` (O8).
section
/-! PROOFS. What an opcode's shape makes of immediates, and that every instruction is made by the row of its opcode
byte; the number of a byte string, byte by byte (R90 to R95). -/

namespace Sys2Proof

open Sys2Proof.Spec

/-! ## Decoding an encoding (R90 to R92) -/

/-- The shape, given the immediates, makes the instruction (R91). -/
inductive OpcodeShape.Makes : OpcodeShape → List Word → Instr → Prop where
  | f0 (i : Instr) : Makes (.f0 i) [] i
  | f1 (mk : Word → Instr) (a : Word) : Makes (.f1 mk) [a] (mk a)
  | f2 (mk : Word → Word → Instr) (a b : Word) : Makes (.f2 mk) [a, b] (mk a b)
  | f3 (mk : Word → Word → Word → Instr) (a b c : Word) : Makes (.f3 mk) [a, b, c] (mk a b c)

/-- The row that an instruction's opcode byte finds makes the instruction from its immediates (R95). -/
theorem Instr.row_makes (i : Instr) :
    ∃ row, lookupOpcode i.opcode = some row ∧ row.shape.Makes i.immediates i := by
  cases i <;> exact ⟨_, rfl, by constructor⟩

/-- A shape reads back the instruction it makes from the immediates' bytes, and leaves the bytes after them (R92). -/
theorem OpcodeShape.Makes.build_eq {sh : OpcodeShape} {ws : List Word} {i : Instr} (h : sh.Makes ws i)
    (rest : List Byte) : sh.build (ws.flatMap leBytes ++ rest) = some (i, rest) := by
  cases h <;> simp [OpcodeShape.build]

theorem decode_encode_append (i : Instr) (rest : List Byte) : decode (encode i ++ rest) = .ok (i, rest) := by
  obtain ⟨row, hrow, hmakes⟩ := i.row_makes
  exact decode_built hrow (hmakes.build_eq rest)

theorem encode_append_of_decode {bs rest : List Byte} {i : Instr} (h : decode bs = .ok (i, rest)) :
    bs = encode i ++ rest := by
  cases bs with
  | nil => cases h
  | cons op tail =>
    cases hrow : lookupOpcode op with
    | none => rw [decode_no_row hrow] at h; cases h
    | some row =>
      cases hbuild : row.shape.build tail with
      | none => rw [decode_truncated hrow hbuild] at h; cases h
      | some built =>
        obtain ⟨j, left⟩ := built
        rw [decode_built hrow hbuild] at h
        obtain ⟨rfl, rfl⟩ := Prod.mk.inj (Except.ok.inj h)
        have hencodes := opcodeMap_encodesAs row (lookupOpcode_mem hrow)
        rw [lookupOpcode_byte hrow] at hencodes
        exact OpcodeShape.build_eq_some hencodes hbuild

/-! ## The length of an encoding (R91) -/

theorem length_leBytes (w : Word) : (leBytes w).length = 4 := rfl

theorem length_flatMap_leBytes (ws : List Word) : (ws.flatMap leBytes).length = 4 * ws.length := by
  induction ws with
  | nil => rfl
  | cons w ws ih =>
    rw [List.flatMap_cons, List.length_append, ih, length_leBytes, List.length_cons]
    omega

theorem Instr.length_immediates (i : Instr) : i.immediates.length = i.format.immediates := by cases i <;> rfl

/-- An encoding is as long as its format says (R91). -/
theorem length_encode (i : Instr) : (encode i).length = i.format.length := by
  rw [encode, List.length_cons, length_flatMap_leBytes, i.length_immediates, Format.length_eq]

/-! ## Instruction words (R93) -/

/-- The number of a byte string is below `256` to its length. -/
theorem numberOf_lt (bs : List Byte) : numberOf bs < 2 ^ (8 * bs.length) := by
  induction bs with
  | nil => decide
  | cons b rest ih =>
    have hb := b.isLt
    rw [numberOf, List.length_cons, Nat.mul_succ, Nat.pow_add]
    omega

/-- Byte `k` of the number of a byte string is byte `k` of the string, and 0 past its end (R93). -/
theorem ofNat_numberOf_div (bs : List Byte) (k : Nat) :
    BitVec.ofNat 8 (numberOf bs / 2 ^ (8 * k)) = (bs[k]?).getD 0 := by
  induction bs generalizing k with
  | nil => simp [numberOf]
  | cons b rest ih =>
    have hb := b.isLt
    apply BitVec.eq_of_toNat_eq
    cases k with
    | zero => simp [numberOf]; omega
    | succ k =>
      have hdiv : numberOf (b :: rest) / 2 ^ (8 * (k + 1)) = numberOf rest / 2 ^ (8 * k) := by
        rw [Nat.mul_succ, Nat.add_comm, Nat.pow_add, ← Nat.div_div_eq_div_mul, numberOf]
        congr 1
        omega
      rw [hdiv, ih, List.getElem?_cons_succ]

/-- The bytes of the word of a byte string are the string, then zeros up to the longest instruction. -/
theorem tableBytes_numberOf {bs : List Byte} (h : bs.length ≤ maxLength) :
    tableBytes (8 * bs.length) (numberOf bs) = bs ++ List.replicate (maxLength - bs.length) 0 := by
  apply List.ext_getElem?
  intro k
  rw [tableBytes, Nat.mod_eq_of_lt (numberOf_lt bs), List.getElem?_map, List.getElem?_append]
  simp only [ofNat_numberOf_div, List.getElem?_replicate]
  by_cases hk : k < bs.length
  · simp [hk, List.getElem?_range (hk.trans_le h)]
  · by_cases hmax : k < maxLength
    · simp [hk, hmax, show k - bs.length < maxLength - bs.length by omega]
    · simp [hk, hmax, show ¬ k - bs.length < maxLength - bs.length by omega]

theorem decodeTableWord_encode (i : Instr) :
    decodeTableWord (8 * i.format.length) (numberOf (encode i)) = some i := by
  have hmax : (encode i).length ≤ maxLength := by rw [length_encode]; exact i.format.length_le
  rw [← length_encode, decodeTableWord, tableBytes_numberOf hmax, decode_encode_append]

end Sys2Proof

namespace Sys2Proof.Machine

/-! ## The bytes at `ip` (R94) -/

/-- Where the bytes of an instruction stand at `ip`, fetch and decode answers it. -/
theorem fetchDecode_of_bytes {s : State} {i : Instr} (hcap : s.ip.toNat + i.length ≤ s.mem.cap)
    (hbytes : ∀ k, k < i.length → (encode i)[k]? = some (s.mem.byteAt (s.ip.toNat + k))) :
    fetchDecode s = .ok i := by
  have hlen : (encode i).length = i.length := length_encode i
  have hmax : i.length ≤ maxLength := i.format.length_le
  have hprefix : encode i <+: fetchBytes s := by
    refine List.prefix_iff_getElem?.mpr fun k hk => ?_
    rw [hlen] at hk
    rw [getElem?_fetchBytes s (by omega), ← hbytes k hk]
    exact List.getElem?_eq_getElem _
  obtain ⟨rest, hrest⟩ := hprefix
  simp only [fetchDecode, ← hrest, decode_encode_append]

/-! ## The obligations -/

/-- Settles O1: an instruction's opcode byte finds the row that makes it from its immediates. -/
theorem encodedInstructionDecodesToItself : Obligations.EncodedInstructionDecodesToItself := decode_encode_append

/-- Settles O2: the row found for the first byte builds the instruction, and encodes it as
the bytes it was built from. -/
theorem decodedBytesAreTheEncoding : Obligations.DecodedBytesAreTheEncoding := fun _ _ _ => encode_append_of_decode

/-- Settles O3: the word's bytes are the encoding and zeros after it, which decode leaves. -/
theorem instructionWordsDecode : Obligations.InstructionWordsDecode := fun i =>
  ⟨length_encode i, decodeTableWord_encode i⟩

/-- Settles O4: the decoding of an encoding, for eleven instructions. -/
theorem sampleWordsDecode : Obligations.SampleWordsDecode :=
  ⟨decode_encode_append .die [], decode_encode_append (.call 10) [], decode_encode_append (.jgs 25) [],
    decode_encode_append (.loop 3 22 24) [], decode_encode_append (.psh 0x01020304) [],
    decode_encode_append (.stktr 1 64) [], decode_encode_append .add [], decode_encode_append .divs [],
    decode_encode_append .rrot [], decode_encode_append .nots [], decode_encode_append .brkp []⟩

/-- Settles O8: the bytes fetched start with the encoding, whatever follows it. -/
theorem bytesAtIpRunTheInstruction : Obligations.BytesAtIpRunTheInstruction := fun _ _ hrun hcap hbytes =>
  step_of_fetchDecode_ok hrun (fetchDecode_of_bytes hcap hbytes)

end Sys2Proof.Machine
end

-- Proofs of the family 'other', what an instruction can do: where the model stops, and the stack an instruction leaves.
section
/-! PROOFS. Which operations never stop the model, and which do not on a stack that holds values (R77); and what an
instruction leaves of such a stack (`StackEffect`): some of its lower values, or those with one value put on them. -/

namespace Sys2Proof.Machine

/-- The literal 1 as a number, for the counters and depths that step by it. -/
theorem toNat_one : (1 : Word).toNat = 1 := rfl

/-! ## Operations that do not stop the model -/

/-- The operation does not stop the model: it answers a value or raises a fault of the spec. -/
def Res.Runs {α : Type} (x : Res α) : Prop := ∀ why, x ≠ .error (.stuck why)

section
variable {α β : Type}

@[simp] theorem Res.runs_ok (a : α) : Res.Runs (.ok a) := fun _ h => nomatch h
@[simp] theorem Res.runs_raise (kind : FaultKind) : Res.Runs (raise kind : Res α) := fun _ h => nomatch h

theorem Res.Runs.bind {x : Res α} {f : α → Res β} (hx : x.Runs) (hf : ∀ a, x = .ok a → (f a).Runs) :
    (x >>= f).Runs := by
  rcases x with (kind | why) | a
  · exact Res.runs_raise kind
  · exact absurd rfl (hx why)
  · exact hf a rfl

end

section
variable (m : Memory) (k : OperandStack) (c : CallStack) (a : Nat) (n : Width) (req : Request) (ty : ValTy) (w : Word)

theorem rawRead_runs : (rawRead m a n).Runs := by
  unfold rawRead
  split <;> simp

theorem tagRead_runs : (tagRead m a req).Runs := tagRead_not_stuck m a req

theorem tagWrite_runs : (tagWrite m a ty w).Runs := by
  unfold tagWrite
  split <;> simp

theorem peekTop_runs : (peekTop k req).Runs := by
  unfold peekTop
  split
  · exact Res.runs_raise _
  · exact tagRead_runs _ _ _

theorem topWord_runs : (topWord k).Runs := (peekTop_runs k .word).bind fun _ _ => Res.runs_ok _

theorem memValue_runs : (memValue m w).Runs := tagRead_runs _ _ _

theorem memPointer_runs : (memPointer m w).Runs := (tagRead_runs _ _ _).bind fun _ _ => Res.runs_ok _

theorem typeOfCode_runs : (typeOfCode w).Runs := by
  unfold typeOfCode
  repeat' split
  all_goals simp

theorem inspectedAddr_runs : (inspectedAddr k w).Runs := by
  unfold inspectedAddr
  repeat' split
  all_goals simp

theorem unOp_runs (f : Word → Word) : (unOp f ty k).Runs :=
  (topWord_runs k).bind fun _ _ => (tagWrite_runs _ _ _ _).bind fun _ _ => Res.runs_ok _

theorem callPush_runs : (callPush c w).Runs := by
  unfold callPush
  split <;> simp

theorem callPop_runs : (callPop c).Runs := by
  unfold callPop
  split <;> simp

end

/-- A pattern of 32 bits fits a word type. -/
theorem Value.fits_of_word {ty : ValTy} (h : isWord ty) {w : Word} : Value.fits (ty, w) := by
  rcases h with rfl | rfl <;> exact fun hbyte => nomatch hbyte

/-! ## The stack operations on a stack that holds values: a fault, or the stack they leave -/

section
variable {k : OperandStack} {vals : List Value} {v : Value} {f : Word → Word → Word} {g : Word → Word} {rty : ValTy}
  {zcheck : Bool} {n : Nat} {w : Word}

theorem push_cases (h : k.Holds vals) (hfit : v.fits) : push k v.1 v.2 = raise .stackOverflow ∨
    extent vals + v.1.bytes ≤ k.mem.cap ∧ push k v.1 v.2 = .ok (k.putOn vals v) := by
  by_cases hroom : extent vals + v.1.bytes ≤ k.mem.cap
  · exact .inr ⟨hroom, (push_of_holds h hfit hroom).1⟩
  · exact .inl (push_overflow h (Nat.not_le.mp hroom))

theorem pop_cases (h : k.Holds vals) : pop k = raise .stackUnderflow ∨
    ∃ v below, vals = v :: below ∧ pop k = .ok (v, k.cutTo below) := by
  cases vals with
  | nil => exact .inl (pop_underflow h)
  | cons v below => exact .inr ⟨v, below, rfl, pop_of_holds h⟩

theorem remove_cases (h : k.Holds vals) :
    remove k n = raise .stackUnderflow ∨ remove k n = .ok (k.cutTo (vals.drop n)) := by
  by_cases hn : n ≤ vals.length
  · exact .inr (remove_of_holds h hn).1
  · obtain ⟨-, -, hcount, -⟩ := h
    exact .inl (if_pos (by omega))

/-- A stack that holds fewer than two values has a count below 2. -/
theorem OperandStack.Holds.two_values (h : k.Holds vals) :
    k.count.toNat < 2 ∨ ∃ v w below, vals = v :: w :: below := by
  have ⟨_, _, hcount, _⟩ := h
  match vals with
  | [] => exact .inl (by simp [hcount])
  | [_] => exact .inl (by simp [hcount])
  | v :: w :: below => exact .inr ⟨v, w, below, rfl⟩

theorem binOp_cases (h : k.Holds vals) (hrty : isWord rty) : (∃ kind, binOp f rty zcheck k = raise kind) ∨
    ∃ v w below, vals = v :: w :: below ∧ isWord w.1 ∧ binOp f rty zcheck k = .ok (k.putOn below (rty, f w.2 v.2)) := by
  rcases h.two_values with hfew | ⟨v, w, below, rfl⟩
  · exact .inl ⟨_, binOp_raise (topTwoWords_underflow hfew)⟩
  by_cases hwords : isWord v.1 ∧ isWord w.1
  · obtain ⟨hv, hw⟩ := hwords
    by_cases hz : zcheck = false ∨ v.2 ≠ 0
    · exact .inr ⟨v, w, below, rfl, hw, (binOp_of_holds h hv hw f hrty hz).1⟩
    · obtain ⟨hcheck, hzero⟩ := not_or.mp hz
      rw [Bool.not_eq_false] at hcheck
      subst hcheck
      exact .inl ⟨_, binOp_divisionByZero h hv hw (not_not.mp hzero)⟩
  · exact .inl ⟨_, binOp_raise (topTwoWords_mismatch h (not_and_or.mp hwords))⟩

theorem unOp_cases (h : k.Holds vals) (hrty : isWord rty) : (∃ kind, unOp g rty k = raise kind) ∨
    ∃ v below, vals = v :: below ∧ isWord v.1 ∧ unOp g rty k = .ok (k.putOn below (rty, g v.2)) := by
  cases vals with
  | nil => exact .inl ⟨_, unOp_raise (topWord_empty (by simpa using h.count_eq))⟩
  | cons v below =>
    by_cases hword : isWord v.1
    · exact .inr ⟨v, below, rfl, hword, (unOp_of_holds h hword g hrty).1⟩
    · exact .inl ⟨_, unOp_raise (topWord_of_byte h hword)⟩

/-- The top value replaced by another, as `pshfrs` does where the top is a word (R151). -/
theorem pop_push_cases {u : Word} (h : k.Holds vals) (htop : topWord k = .ok u) (hfit : v.fits) :
    ∃ a below, vals = a :: below ∧ isWord a.1 ∧ (pop k >>= fun r => push r.2 v.1 v.2) = .ok (k.putOn below v) := by
  cases vals with
  | nil =>
    rw [topWord_empty (by simpa using h.count_eq)] at htop
    exact absurd htop (raise_ne_ok _ _)
  | cons a below =>
    by_cases hword : isWord a.1
    · exact ⟨a, below, rfl, hword, (pop_push_of_word h hword hfit).1⟩
    · rw [topWord_of_byte h hword] at htop
      exact absurd htop (raise_ne_ok _ _)

theorem push_runs (h : k.Inv) (hfit : v.fits) : (push k v.1 v.2).Runs := by
  obtain ⟨vals, h⟩ := h
  rcases push_cases h hfit with hpush | ⟨-, hpush⟩ <;> simp [hpush]

theorem pop_runs (h : k.Inv) : (pop k).Runs := by
  obtain ⟨vals, h⟩ := h
  rcases pop_cases h with hpop | ⟨v, below, -, hpop⟩ <;> simp [hpop]

theorem remove_runs (h : k.Inv) (n : Nat) : (remove k n).Runs := by
  obtain ⟨vals, h⟩ := h
  rcases remove_cases (n := n) h with hremove | hremove <;> simp [hremove]

theorem binOp_runs (h : k.Inv) (hrty : isWord rty) : (binOp f rty zcheck k).Runs := by
  obtain ⟨vals, h⟩ := h
  rcases binOp_cases (f := f) (zcheck := zcheck) h hrty with ⟨kind, hbin⟩ | ⟨v, w, below, -, -, hbin⟩ <;> simp [hbin]

theorem pop_push_runs {u : Word} (h : k.Inv) (htop : topWord k = .ok u) (hfit : v.fits) :
    (pop k >>= fun r => push r.2 v.1 v.2).Runs := by
  obtain ⟨vals, h⟩ := h
  obtain ⟨a, below, -, -, hreplace⟩ := pop_push_cases h htop hfit
  simp only [hreplace, Res.runs_ok]

theorem topTwoRaw_runs (h : k.Inv) : (topTwoRaw k).Runs := by
  obtain ⟨vals, h⟩ := h
  rcases h.two_values with hfew | ⟨v, w, below, rfl⟩
  · simp [topTwoRaw_underflow hfew]
  · rw [topTwoRaw_eq h]
    exact (rawRead_runs _ _ _).bind fun _ _ => (rawRead_runs _ _ _).bind fun _ _ => Res.runs_ok _

theorem topTwoWords_runs (h : k.Inv) : (topTwoWords k).Runs := by
  obtain ⟨vals, h⟩ := h
  rcases h.two_values with hfew | ⟨v, w, below, rfl⟩
  · simp [topTwoWords_underflow hfew]
  · by_cases hwords : isWord v.1 ∧ isWord w.1
    · simp [topTwoWords_of_holds h hwords.1 hwords.2]
    · simp [topTwoWords_mismatch h (not_and_or.mp hwords)]

theorem stackValue_runs (h : k.Inv) (src : Word) : (stackValue k src).Runs := by
  obtain ⟨vals, h⟩ := h
  by_cases hsrc : src.toNat ≥ extent vals
  · simp [stackValue_outside h hsrc]
  · rw [stackValue_inside h (Nat.not_le.mp hsrc)]
    exact tagRead_runs _ _ _

end

/-! ## What an instruction leaves of a stack that holds values -/

/-- The stack `k`, holding `vals`, with only the values `below` left, or with those and one value put on them at the
span. -/
inductive StackResult (k : OperandStack) (vals : List Value) (span : Option Span) : OperandStack → Prop where
  | cut {below : List Value} (hbelow : below <:+ vals) : StackResult k vals span (k.cutTo below)
  | put {below : List Value} {v : Value} (hbelow : below <:+ vals) (hfit : v.fits)
      (hroom : extent below + v.1.bytes ≤ k.mem.cap) (hspan : span = some (extent below, v.1.bytes)) :
      StackResult k vals span (k.putOn below v)

/-- The stack an instruction leaves: of the same capacity, and where the stack holds values, a `StackResult` at the
instruction's span. -/
structure StackEffect (i : Instr) (s : State) (k : OperandStack) : Prop where
  cap : k.mem.cap = s.stk.mem.cap
  result : ∀ vals, s.stk.Holds vals → StackResult s.stk vals (stackStoreSpan i s) k

section
variable {k k' : OperandStack} {vals below : List Value} {span : Option Span}

/-- The lower values of a stack are held by the stack cut to them. -/
theorem OperandStack.Holds.cutTo_suffix (h : k.Holds vals) (hbelow : below <:+ vals) :
    (k.cutTo below).Holds below := by
  obtain ⟨above, rfl⟩ := hbelow
  induction above generalizing k with
  | nil => rwa [List.nil_append, ← h.cutTo_self] at h
  | cons v above ih => exact ih (k := k.cutTo (above ++ below)) h.cutTo

theorem StackResult.inv (hres : StackResult k vals span k') (h : k.Holds vals) : k'.Inv := by
  cases hres with
  | cut hbelow => exact ⟨_, h.cutTo_suffix hbelow⟩
  | put hbelow hfit hroom _ =>
    obtain ⟨hcap, -, -, -, hall⟩ := h.cutTo_suffix hbelow
    exact ⟨_, OperandStack.holds_putOn hcap hall hfit hroom⟩

theorem StackResult.wf (hres : StackResult k vals span k') (h : k.mem.wf) : k'.mem.wf := by
  cases hres with
  | cut _ => exact h
  | put _ _ hroom _ => exact Memory.wf_store h hroom _

theorem StackResult.frame (hres : StackResult k vals span k') {x : Nat} (hx : outside span x) :
    k'.mem.byteAt x = k.mem.byteAt x ∧ k'.mem.tagAt x = k.mem.tagAt x := by
  cases hres with
  | cut _ => exact ⟨rfl, rfl⟩
  | put _ _ _ hspan =>
    rw [hspan] at hx
    exact ⟨Memory.byteAt_store_outside _ _ _ _ hx, Memory.tagAt_store_outside _ _ _ _ hx⟩

end

section
variable {i : Instr} {s : State} {k : OperandStack}

theorem StackEffect.refl (i : Instr) (s : State) : StackEffect i s s.stk where
  cap := rfl
  result vals h := by
    have hcut : StackResult s.stk vals (stackStoreSpan i s) (s.stk.cutTo vals) := .cut List.suffix_rfl
    rwa [h.cutTo_self] at hcut

theorem StackEffect.of_pop {v : Value} (hpop : pop s.stk = .ok (v, k)) : StackEffect i s k where
  cap := by
    obtain ⟨-, -, hmem, -⟩ := pop_ok hpop
    rw [hmem]
  result vals h := by
    rcases pop_cases h with hfew | ⟨u, below, rfl, hok⟩
    · simp [hfew] at hpop
    · obtain ⟨-, rfl⟩ := Prod.mk.inj (Except.ok.inj (hok.symm.trans hpop))
      exact .cut (List.suffix_cons _ _)

theorem StackEffect.of_remove {n : Nat} (hremove : remove s.stk n = .ok k) : StackEffect i s k where
  cap := by rw [(remove_ok hremove).2]
  result vals h := by
    rcases remove_cases (n := n) h with hfew | hok
    · simp [hfew] at hremove
    · obtain rfl := Except.ok.inj (hok.symm.trans hremove)
      exact .cut (List.drop_suffix _ _)

theorem StackEffect.of_push {v : Value} (hpush : push s.stk v.1 v.2 = .ok k) (hfit : v.fits)
    (hspan : ∀ a, stkNext s.stk = .ok a → stackStoreSpan i s = some (a, v.1.bytes)) : StackEffect i s k where
  cap := by
    obtain ⟨a, -, -, rfl⟩ := push_ok hpush
    exact Memory.cap_store _ _ _ _
  result vals h := by
    rcases push_cases h hfit with hfull | ⟨hroom, hok⟩
    · simp [hfull] at hpush
    · obtain rfl := Except.ok.inj (hok.symm.trans hpush)
      exact .put List.suffix_rfl hfit hroom (hspan _ (stkNext_of_holds h))

theorem StackEffect.of_binOp {f : Word → Word → Word} {rty : ValTy} {zcheck : Bool} (hrty : isWord rty)
    (hbin : binOp f rty zcheck s.stk = .ok k) (hspan : stackStoreSpan i s = spanAt (stkPrev s.stk s.stk.top.toNat) 4) :
    StackEffect i s k where
  cap := by
    obtain ⟨_, -, hbin⟩ := Res.bind_eq_ok.mp hbin
    split at hbin
    · simp at hbin
    obtain ⟨⟨_, k₁⟩, hpop₁, hbin⟩ := Res.bind_eq_ok.mp hbin
    obtain ⟨⟨_, k₂⟩, hpop₂, hpush⟩ := Res.bind_eq_ok.mp hbin
    obtain ⟨-, -, hmem₁, -⟩ := pop_ok hpop₁
    obtain ⟨-, -, hmem₂, -⟩ := pop_ok hpop₂
    obtain ⟨a, -, -, rfl⟩ := push_ok hpush
    exact (Memory.cap_store _ _ _ _).trans (by rw [hmem₂, hmem₁])
  result vals h := by
    rcases binOp_cases (f := f) (zcheck := zcheck) h hrty with ⟨kind, hraise⟩ | ⟨v, w, below, rfl, hw, hok⟩
    · simp [hraise] at hbin
    · obtain rfl := Except.ok.inj (hok.symm.trans hbin)
      have hin := h.cutTo.in_cap
      rw [ValTy.bytes_of_word hw, ← ValTy.bytes_of_word hrty] at hin
      rw [h.top_toNat, stkPrev_of_holds (k := s.stk) h.cutTo.holdsTop, ← ValTy.bytes_of_word hrty] at hspan
      exact .put ⟨[v, w], rfl⟩ (Value.fits_of_word hrty) hin hspan

theorem StackEffect.of_unOp {g : Word → Word} {rty : ValTy} (hrty : isWord rty) (hun : unOp g rty s.stk = .ok k)
    (hspan : stackStoreSpan i s = some (s.stk.top.toNat, 4)) : StackEffect i s k where
  cap := by
    obtain ⟨_, -, -, rfl⟩ := unOp_ok hun
    exact Memory.cap_store _ _ _ _
  result vals h := by
    rcases unOp_cases (g := g) h hrty with ⟨kind, hraise⟩ | ⟨v, below, rfl, hv, hok⟩
    · simp [hraise] at hun
    · obtain rfl := Except.ok.inj (hok.symm.trans hun)
      have hin := h.in_cap
      rw [ValTy.bytes_of_word hv, ← ValTy.bytes_of_word hrty] at hin
      rw [h.top_toNat, ← ValTy.bytes_of_word hrty] at hspan
      exact .put (List.suffix_cons _ _) (Value.fits_of_word hrty) hin hspan

/-- One value in the place of a word, as `pshfrs` does (R151). -/
theorem StackEffect.of_pop_push {v : Value} {u : Word} (htop : topWord s.stk = .ok u)
    (hreplace : (pop s.stk >>= fun r => push r.2 v.1 v.2) = .ok k) (hfit : v.fits)
    (hspan : stackStoreSpan i s = some (s.stk.top.toNat, v.1.bytes)) : StackEffect i s k where
  cap := by
    obtain ⟨⟨_, k₁⟩, hpop, hpush⟩ := Res.bind_eq_ok.mp hreplace
    obtain ⟨-, -, hmem, -⟩ := pop_ok hpop
    obtain ⟨a, -, -, rfl⟩ := push_ok hpush
    exact (Memory.cap_store _ _ _ _).trans (by rw [hmem])
  result vals h := by
    obtain ⟨a, below, rfl, hword, hok⟩ := pop_push_cases h htop hfit
    obtain rfl := Except.ok.inj (hok.symm.trans hreplace)
    have hin := h.in_cap
    have hbytes := v.1.bytes_le
    rw [ValTy.bytes_of_word hword] at hin
    exact .put (List.suffix_cons _ _) hfit (by omega) (by rw [hspan, h.top_toNat])

end

end Sys2Proof.Machine
end

-- Proofs of the family 'other', every way an instruction completes, for all 60 instructions.
section
/-! PROOFS. `Completes` lists the ways an instruction completes; one lemma per shared last part, then one line per
instruction (R110 to R151, R160, R161, R240 to R242). The later proofs split on `Completes` and no longer on `Instr`. -/

namespace Sys2Proof.Machine

open Sys2Proof.Spec

/-! ## The ways an instruction completes -/

/-- The instructions that emit an event (R325). -/
abbrev Emits (i : Instr) : Prop :=
  (∃ c a, i = .nspctr c a) ∨ (∃ c o, i = .nspctst c o) ∨ i = .brkp ∨ i = .testDie

/-- The instructions that write the call stack (R31). -/
abbrev WritesCalls (i : Instr) : Prop := i = .ret ∨ ∃ a, i = .call a

/-- The instructions that write the loop registers (R29). -/
abbrev WritesLoop (i : Instr) : Prop := i = .lcont ∨ i = .lbrk ∨ ∃ c b e, i = .loop c b e

/-- The state in which instruction `i`, performed in `s`, completes without a fault. -/
inductive Completes (i : Instr) (s : State) : State → Prop where
  | halt (hi : i = .die) : Completes i s { s with status := .halted, exitCode := 0 }
  | go {w : Word} (hip : w ∈ ipAfter i s) : Completes i s (s.jump w)
  | emit {e : Event} {w : Word} (hi : Emits i) (he : e.ok = true) (hip : w ∈ ipAfter i s) :
      Completes i s ((s.emit e).jump w)
  | calls {c : CallStack} {w : Word} (hi : WritesCalls i) (hc : s.calls.Inv → c.Inv) (hip : w ∈ ipAfter i s) :
      Completes i s ({ s with calls := c }.jump w)
  | loop {l : LoopRegs} {w : Word} (hi : WritesLoop i) (hip : w ∈ ipAfter i s) :
      Completes i s ({ s with lp := l }.jump w)
  | stack {k : OperandStack} {w : Word} (hk : StackEffect i s k) (hip : w ∈ ipAfter i s) :
      Completes i s ({ s with stk := k }.jump w)
  | store {k : OperandStack} {v : Value} {dst : Nat} {w : Word} (hk : StackEffect i s k)
      (hspan : mainStoreSpan i s = some (dst, v.1.bytes)) (hroom : dst + v.1.bytes ≤ s.mem.cap)
      (hip : w ∈ ipAfter i s) : Completes i s ({ s with stk := k, mem := s.mem.store dst v.1 v.2 }.jump w)

/-- The operation ends as instruction `i` performed in `s` does: with a state in which `i` completes, or with a fault of
R300; and where the stack holds values it does not stop the model. -/
structure EndsAs (i : Instr) (s : State) (x : Res State) : Prop where
  ensures : x.Ensures (Completes i s)
  runs : s.stk.Inv → x.Runs

/-- The instruction ends in one of the ways above. -/
def ExecEnds (i : Instr) (s : State) : Prop := ∃ x, exec i s = s.perform x ∧ EndsAs i s x

section
variable {α : Type} {i : Instr} {s t : State}

theorem EndsAs.ok (h : Completes i s t) : EndsAs i s (.ok t) := ⟨Res.ensures_ok h, fun _ => Res.runs_ok t⟩

theorem ends_next (hexec : exec i s = .next t) (h : Completes i s t) : ExecEnds i s := ⟨.ok t, hexec, .ok h⟩

theorem EndsAs.raise {kind : FaultKind} (h : kind ≠ .none) : EndsAs i s (raise kind) :=
  ⟨Res.ensures_raise h, fun _ => Res.runs_raise kind⟩

theorem EndsAs.bind {x : Res α} {f : α → Res State} (hraises : x.Raises) (hruns : s.stk.Inv → x.Runs)
    (hf : ∀ a, x = .ok a → EndsAs i s (f a)) : EndsAs i s (x >>= f) :=
  ⟨hraises.bind_ensures fun a ha => (hf a ha).ensures, fun h => (hruns h).bind fun a ha => (hf a ha).runs h⟩

end

/-! ## The shared last parts -/

section
variable {i : Instr} {s : State} {k : OperandStack} {v : Value} {dst addr : Word} {n len : Nat}

theorem endsAs_pushing (hfit : v.fits)
    (hspan : ∀ a, stkNext s.stk = .ok a → stackStoreSpan i s = some (a, v.1.bytes))
    (hip : s.ip + BitVec.ofNat 32 len ∈ ipAfter i s) : EndsAs i s (s.pushing v len) :=
  .bind (push_raises _ _ _) (fun h => push_runs h hfit) fun _ hpush => .ok (.stack (.of_push hpush hfit hspan) hip)

theorem endsAs_discarding (hip : s.ip + BitVec.ofNat 32 len ∈ ipAfter i s) : EndsAs i s (s.discarding n len) :=
  .bind (remove_raises _ _) (fun h => remove_runs h n) fun _ hremove => .ok (.stack (.of_remove hremove) hip)

theorem endsAs_storing (hk : StackEffect i s k) (hspan : mainStoreSpan i s = some (dst.toNat, v.1.bytes))
    (hip : s.ip + BitVec.ofNat 32 len ∈ ipAfter i s) : EndsAs i s (s.storing k dst v len) :=
  .bind (tagWrite_raises _ _ _ _) (fun _ => tagWrite_runs _ _ _ _) fun m hm => by
    obtain ⟨hroom, rfl⟩ := tagWrite_ok hm
    exact .ok (.store hk hspan hroom hip)

theorem typeOfCode_eq_ok {code : Word} {ty : ValTy} (h : typeOfCode code = .ok ty) : code.toNat = codeOf ty := by
  have hbad : ¬ 2 < code.toNat := fun hbad => by simp [typeOfCode_unknown hbad] at h
  have hcode : ∃ ty', code.toNat = codeOf ty' := by
    obtain h0 | h1 | h2 : code.toNat = 0 ∨ code.toNat = 1 ∨ code.toNat = 2 := by omega
    · exact ⟨.u32, h0⟩
    · exact ⟨.i32, h1⟩
    · exact ⟨.u8, h2⟩
  obtain ⟨ty', hcode⟩ := hcode
  obtain rfl := Except.ok.inj ((typeOfCode_of_codeOf hcode).symm.trans h)
  exact hcode

/-- The event of an inspection is one R325 describes: the value read has the width of its type code. -/
theorem Event.ok_inspect {code : Word} {ty : ValTy} (hcode : code.toNat = codeOf ty) (region : Place) (place : Word)
    (m : Memory) (a : Nat) : (Event.inspect region place code (m.valueAt a ty.width)).ok = true := by
  have hfits := m.valueAt_fits a ty
  obtain rfl : code = BitVec.ofNat 32 (codeOf ty) := by rw [← hcode, BitVec.ofNat_toNat, BitVec.setWidth_eq]
  cases ty with
  | u32 => rfl
  | i32 => rfl
  | u8 => exact decide_eq_true (hfits rfl)

theorem endsAs_inspecting {region : Place} {place code : Word} {m : Memory} {a : Nat} {ty : ValTy}
    (hi : Emits i) (hcode : code.toNat = codeOf ty) (hip : s.ip + 9 ∈ ipAfter i s) :
    EndsAs i s (s.inspecting region place code m a ty) :=
  .bind (rawRead_raises _ _ _) (fun _ => rawRead_runs _ _ _) fun v hv => by
    obtain ⟨-, rfl⟩ := rawRead_ok hv
    exact .ok (.emit hi (Event.ok_inspect hcode region place m a) hip)

theorem State.jumpIf_completes {taken : Bool} (hip : ipAfter i s = [addr, s.ip + 5]) :
    Completes i s (s.jumpIf taken addr) := by
  cases taken with
  | true => exact .go (by simp [hip])
  | false => exact .go (by simp [hip])

theorem ends_jumpOnRaw {cond : Word → Word → Bool} (hexec : exec i s = jumpOnRaw cond addr s)
    (hip : ipAfter i s = [addr, s.ip + 5]) : ExecEnds i s :=
  ⟨_, hexec, .bind (topTwoRaw_raises _) topTwoRaw_runs fun _ _ => .ok (State.jumpIf_completes hip)⟩

theorem ends_jumpOnWords {cond : Word → Word → Bool} (hexec : exec i s = jumpOnWords cond addr s)
    (hip : ipAfter i s = [addr, s.ip + 5]) : ExecEnds i s :=
  ⟨_, hexec, .bind (topTwoWords_raises _) topTwoWords_runs fun _ _ => .ok (State.jumpIf_completes hip)⟩

theorem ends_binOp {f : Word → Word → Word} {rty : ValTy} {zcheck : Bool}
    (hexec : exec i s = execBinOp f rty zcheck s) (hrty : isWord rty)
    (hspan : stackStoreSpan i s = spanAt (stkPrev s.stk s.stk.top.toNat) 4)
    (hip : ipAfter i s = [s.ip + 1]) : ExecEnds i s :=
  ⟨_, hexec, .bind (binOp_raises _ _ _ _) (fun h => binOp_runs h hrty) fun _ hbin =>
    .ok (.stack (.of_binOp hrty hbin hspan) (by simp [hip]))⟩

theorem ends_unOp {g : Word → Word} {rty : ValTy} (hexec : exec i s = execUnOp g rty s) (hrty : isWord rty)
    (hspan : stackStoreSpan i s = some (s.stk.top.toNat, 4)) (hip : ipAfter i s = [s.ip + 1]) : ExecEnds i s :=
  ⟨_, hexec, .bind (unOp_raises _ _ _) (fun _ => unOp_runs _ _ _) fun _ hun =>
    .ok (.stack (.of_unOp hrty hun hspan) (by simp [hip]))⟩

end

/-! ## The instructions that read before their last part, and those of control and loop -/

section
variable (s : State) (addr src dst code offset count body stop : Word)

theorem pshfr_ends : ExecEnds (.pshfr addr) s :=
  ⟨_, exec_pshfr s addr, .bind (memValue_raises _ _) (fun _ => memValue_runs _ _) fun _ hv =>
    endsAs_pushing (tagRead_fits hv) (fun _ ha => by simp [stackStoreSpan, spanAtOf, spanAt, hv, ha]) (.head _)⟩

theorem pshfrr_ends : ExecEnds (.pshfrr addr) s :=
  ⟨_, exec_pshfrr s addr, .bind (memPointer_raises _ _) (fun _ => memPointer_runs _ _) fun _ hp =>
    .bind (memValue_raises _ _) (fun _ => memValue_runs _ _) fun _ hv =>
      endsAs_pushing (tagRead_fits hv) (fun _ ha => by simp [stackStoreSpan, spanAtOf, spanAt, hp, hv, ha]) (.head _)⟩

theorem pshfrs_ends : ExecEnds .pshfrs s :=
  ⟨_, exec_pshfrs s, .bind (topWord_raises _) (fun _ => topWord_runs _) fun _ hu =>
    .bind (memPointer_raises _ _) (fun _ => memPointer_runs _ _) fun _ hp =>
      .bind (memValue_raises _ _) (fun _ => memValue_runs _ _) fun _ hv =>
        .bind ((pop_raises _).bind fun _ => push_raises _ _ _) (fun h => pop_push_runs h hu (tagRead_fits hv))
          fun _ hreplace => .ok (.stack (.of_pop_push hu hreplace (tagRead_fits hv)
            (by simp [stackStoreSpan, spanAtOf, spanAt, hu, hp, hv])) (.head _))⟩

theorem poptr_ends : ExecEnds (.poptr addr) s :=
  ⟨_, exec_poptr s addr, .bind (pop_raises _) pop_runs fun r hr => by
    obtain ⟨hcount, hread, -⟩ := pop_ok hr
    have hlive : ¬ s.stk.count.toNat < 1 := fun h => hcount (BitVec.eq_of_toNat_eq (Nat.lt_one_iff.mp h))
    have hpeek : peekTop s.stk .any = .ok r.1 := (if_neg hlive).trans hread
    exact endsAs_storing (.of_pop hr) (by simp [mainStoreSpan, spanOf, hpeek]) (.head _)⟩

theorem movtr_ends : ExecEnds (.movtr addr) s :=
  ⟨_, exec_movtr s addr, .bind (peekTop_raises _ _) (fun _ => peekTop_runs _ _) fun _ hv =>
    endsAs_storing (.refl _ _) (by simp [mainStoreSpan, spanOf, hv]) (.head _)⟩

theorem stktr_ends : ExecEnds (.stktr src dst) s :=
  ⟨_, exec_stktr s src dst, .bind (stackValue_raises _ _) (fun h => stackValue_runs h src) fun _ hv =>
    endsAs_storing (.refl _ _) (by simp [mainStoreSpan, spanOf, hv]) (.head _)⟩

theorem cpyr_ends : ExecEnds (.cpyr src dst) s :=
  ⟨_, exec_cpyr s src dst, .bind (memValue_raises _ _) (fun _ => memValue_runs _ _) fun _ hv =>
    endsAs_storing (.refl _ _) (by simp [mainStoreSpan, spanOf, hv]) (.head _)⟩

theorem nspctr_ends : ExecEnds (.nspctr code addr) s :=
  ⟨_, exec_nspctr s code addr, .bind (typeOfCode_raises _) (fun _ => typeOfCode_runs _) fun _ hty =>
    endsAs_inspecting (.inl ⟨_, _, rfl⟩) (typeOfCode_eq_ok hty) (.head _)⟩

theorem nspctst_ends : ExecEnds (.nspctst code offset) s :=
  ⟨_, exec_nspctst s code offset, .bind (typeOfCode_raises _) (fun _ => typeOfCode_runs _) fun _ hty =>
    .bind (inspectedAddr_raises _ _) (fun _ => inspectedAddr_runs _ _) fun _ _ =>
      endsAs_inspecting (.inr (.inl ⟨_, _, rfl⟩)) (typeOfCode_eq_ok hty) (.head _)⟩

/-- A call below the limit keeps the call stack's invariant (R31, R113). -/
theorem CallStack.inv_push {c c' : CallStack} {ret : Word} (h : callPush c ret = .ok c') (hinv : c.Inv) : c'.Inv := by
  obtain ⟨hroom, rfl⟩ := callPush_ok h
  obtain ⟨hdepth, hentries⟩ := hinv
  simp only [Config.recurMax] at hroom hdepth
  refine ⟨?_, Sparse.canonical_set hentries (by simp only [Config.recurMax]; omega) ret⟩
  simp only [Config.recurMax, BitVec.toNat_add, toNat_one]
  omega

/-- A return from a depth above 0 keeps the call stack's invariant (R31, R114). -/
theorem CallStack.inv_pop {c c' : CallStack} {ret : Word} (h : callPop c = .ok (ret, c')) (hinv : c.Inv) : c'.Inv := by
  obtain ⟨hdepth, -, rfl⟩ := callPop_ok h
  obtain ⟨hle, hentries⟩ := hinv
  have hpos : c.depth.toNat ≠ 0 := fun h0 => hdepth (BitVec.eq_of_toNat_eq h0)
  refine ⟨?_, hentries⟩
  simp only [Config.recurMax, BitVec.toNat_sub, toNat_one] at hle ⊢
  omega

theorem call_ends : ExecEnds (.call addr) s :=
  ⟨_, exec_call s addr, .bind (callPush_raises _ _) (fun _ => callPush_runs _ _) fun _ hc =>
    .ok (.calls (.inr ⟨_, rfl⟩) (CallStack.inv_push hc) (.head _))⟩

theorem ret_ends : ExecEnds .ret s :=
  ⟨_, exec_ret s, .bind (callPop_raises _) (fun _ => callPop_runs _) fun _ hr => by
    obtain ⟨-, hret, -⟩ := callPop_ok hr
    exact .ok (.calls (.inl rfl) (CallStack.inv_pop hr) (by rw [hret]; exact .head _))⟩

theorem loop_ends : ExecEnds (.loop count body stop) s := by
  refine ⟨_, exec_loop count body stop s, ?_⟩
  split
  · exact .raise (by decide)
  · exact .ok (.loop (.inr (.inr ⟨_, _, _, rfl⟩)) (.head _))

theorem lcont_ends : ExecEnds .lcont s := by
  refine ⟨_, exec_lcont s, ?_⟩
  split
  · exact .raise (by decide)
  split
  · next hmore => exact .ok (.loop (.inl rfl) (by simp [ipAfter, hmore]))
  · next hlast => exact .ok (.loop (.inl rfl) (by simp [ipAfter, hlast]))

theorem lbrk_ends : ExecEnds .lbrk s := by
  refine ⟨_, exec_lbrk s, ?_⟩
  split
  · exact .raise (by decide)
  · exact .ok (.loop (.inr (.inl rfl)) (.head _))

end

/-! ## All instructions -/

theorem exec_ends (i : Instr) (s : State) : ExecEnds i s := by
  cases i with
  | die => exact ends_next (exec_die s) (.halt rfl)
  | nop => exact ends_next (exec_nop s) (.go (.head _))
  | testDie => exact ends_next (exec_testDie s) (.emit (.inr (.inr (.inr rfl))) rfl (.head _))
  | brkp => exact ends_next (exec_brkp s) (.emit (.inr (.inr (.inl rfl))) rfl (.head _))
  | call addr => exact call_ends s addr
  | ret => exact ret_ends s
  | jmp addr => exact ends_next (exec_jmp addr s) (.go (.head _))
  | je addr => exact ends_jumpOnRaw (exec_je addr s) rfl
  | jn addr => exact ends_jumpOnRaw (exec_jn addr s) rfl
  | jl addr => exact ends_jumpOnWords (exec_jl addr s) rfl
  | jg addr => exact ends_jumpOnWords (exec_jg addr s) rfl
  | jls addr => exact ends_jumpOnWords (exec_jls addr s) rfl
  | jgs addr => exact ends_jumpOnWords (exec_jgs addr s) rfl
  | loop count body stop => exact loop_ends s count body stop
  | lcont => exact lcont_ends s
  | lbrk => exact lbrk_ends s
  | psh value =>
    exact ⟨_, exec_psh s value, endsAs_pushing (Value.fits_of_word (.inl rfl))
      (fun _ ha => by simp [stackStoreSpan, spanAt, ha]) (.head _)⟩
  | pop => exact ⟨_, exec_pop s, endsAs_discarding (.head _)⟩
  | pop2 => exact ⟨_, exec_pop2 s, endsAs_discarding (.head _)⟩
  | popn n => exact ⟨_, exec_popn s n, endsAs_discarding (.head _)⟩
  | pshfr addr => exact pshfr_ends s addr
  | poptr addr => exact poptr_ends s addr
  | movtr addr => exact movtr_ends s addr
  | stktr src dst => exact stktr_ends s src dst
  | cpyr src dst => exact cpyr_ends s src dst
  | setr dst value => exact ⟨_, exec_setr s dst value, endsAs_storing (.refl _ _) rfl (.head _)⟩
  | pshfrr addr => exact pshfrr_ends s addr
  | pshfrs => exact pshfrs_ends s
  | inc | dec | not => exact ends_unOp rfl (.inl rfl) rfl rfl
  | incs | decs | nots => exact ends_unOp rfl (.inr rfl) rfl rfl
  | add | sub | mul | div | mod | and | xor | or | lshft | rshft | lrot | rrot =>
    exact ends_binOp rfl (.inl rfl) rfl rfl
  | adds | subs | muls | divs | mods | ands | xors | ors | lshfts | rshfts | lrots | rrots =>
    exact ends_binOp rfl (.inr rfl) rfl rfl
  | nspctr code addr => exact nspctr_ends s _ _
  | nspctst code offset => exact nspctst_ends s _ _

/-- An instruction that answers a next state completes in it, or faults with a kind of R300. -/
theorem exec_next {i : Instr} {s t : State} (h : exec i s = .next t) :
    Completes i s t ∨ ∃ kind, kind ≠ .none ∧ t = s.takeFault kind := by
  obtain ⟨x, hexec, hends⟩ := exec_ends i s
  exact State.perform_cases hends.ensures (hexec.symm.trans h)

/-- On a stack that holds values no instruction stops the model (log 3). -/
theorem exec_of_stackInv (i : Instr) {s : State} (h : s.stk.Inv) : ∃ t, exec i s = .next t := by
  obtain ⟨x, hexec, hends⟩ := exec_ends i s
  rw [hexec]
  rcases x with (kind | why) | t
  · exact ⟨_, State.perform_raise s kind⟩
  · exact absurd rfl (hends.runs h why)
  · exact ⟨_, State.perform_ok s t⟩

end Sys2Proof.Machine
end

-- Proofs of the family 'other', from the ways an instruction completes: the step (O7), precise faults (O9), die (O10),
-- the invariant (O18, O19), the frames (O57 to O60).
section
/-! PROOFS. Each part of the state after a completed instruction, one lemma per part; and how the step of a running core
comes to an instruction or to a fault (R322). -/

namespace Sys2Proof.Machine

open Sys2Proof.Spec

/-! ## The parts of the state after an instruction that completes -/

section
variable {i : Instr} {s t : State}

theorem Completes.status_eq (h : Completes i s t) : t.status = .halted ∧ i = .die ∨ t.status = s.status := by
  cases h with
  | halt hi => exact .inl ⟨rfl, hi⟩
  | go | emit | calls | loop | stack | store => exact .inr rfl

theorem Completes.ip_mem (h : Completes i s t) : t.ip ∈ ipAfter i s := by
  cases h with
  | halt hi =>
    subst hi
    exact .head _
  | go hip => exact hip
  | emit _ _ hip => exact hip
  | calls _ _ hip => exact hip
  | loop _ hip => exact hip
  | stack _ hip => exact hip
  | store _ _ _ hip => exact hip

theorem Completes.lp_eq (h : Completes i s t) : t.lp = s.lp ∨ WritesLoop i := by
  cases h with
  | loop hi _ => exact .inr hi
  | halt | go | emit | calls | stack | store => exact .inl rfl

theorem Completes.calls_eq (h : Completes i s t) :
    t.calls = s.calls ∨ WritesCalls i ∧ (s.calls.Inv → t.calls.Inv) := by
  cases h with
  | calls hi hc _ => exact .inr ⟨hi, hc⟩
  | halt | go | emit | loop | stack | store => exact .inl rfl

theorem Completes.events_eq (h : Completes i s t) :
    t.events = s.events ∨ Emits i ∧ ∃ e : Event, e.ok = true ∧ t.events = s.events ++ [e] := by
  cases h with
  | emit hi he _ => exact .inr ⟨hi, _, he, rfl⟩
  | halt | go | calls | loop | stack | store => exact .inl rfl

theorem Completes.exitCode_eq (h : Completes i s t) : t.exitCode = s.exitCode ∨ i = .die ∧ t.exitCode = 0 := by
  cases h with
  | halt hi => exact .inr ⟨hi, rfl⟩
  | go | emit | calls | loop | stack | store => exact .inl rfl

theorem Completes.fault_eq (h : Completes i s t) : t.faultKind = s.faultKind ∧ t.faultIp = s.faultIp := by
  cases h with
  | halt | go | emit | calls | loop | stack | store => exact ⟨rfl, rfl⟩

theorem Completes.stackEffect (h : Completes i s t) : StackEffect i s t.stk := by
  cases h with
  | stack hk _ => exact hk
  | store hk _ _ _ => exact hk
  | halt | go | emit | calls | loop => exact .refl i s

/-- Main memory is as it was, or stored to at the instruction's span. -/
theorem Completes.mem_eq (h : Completes i s t) : t.mem = s.mem ∨ ∃ (v : Value) (dst : Nat),
    mainStoreSpan i s = some (dst, v.1.bytes) ∧ dst + v.1.bytes ≤ s.mem.cap ∧ t.mem = s.mem.store dst v.1 v.2 := by
  cases h with
  | store _ hspan hroom _ => exact .inr ⟨_, _, hspan, hroom, rfl⟩
  | halt | go | emit | calls | loop | stack => exact .inl rfl

theorem Completes.mem_cap (h : Completes i s t) : t.mem.cap = s.mem.cap := by
  rcases h.mem_eq with hmem | ⟨v, dst, -, -, hmem⟩
  · rw [hmem]
  · rw [hmem, Memory.cap_store]

theorem Completes.mem_frame (h : Completes i s t) {x : Nat} (hx : outside (mainStoreSpan i s) x) :
    t.mem.byteAt x = s.mem.byteAt x ∧ t.mem.tagAt x = s.mem.tagAt x := by
  rcases h.mem_eq with hmem | ⟨v, dst, hspan, -, hmem⟩
  · rw [hmem]
    exact ⟨rfl, rfl⟩
  · rw [hspan] at hx
    rw [hmem]
    exact ⟨Memory.byteAt_store_outside _ _ _ _ hx, Memory.tagAt_store_outside _ _ _ _ hx⟩

/-! ## The invariant after an instruction that completes (R23 to R25, R31, R77, R325) -/

theorem Completes.mem_wf (h : Completes i s t) (hwf : s.mem.wf) : t.mem.wf := by
  rcases h.mem_eq with hmem | ⟨v, dst, -, hroom, hmem⟩
  · rwa [hmem]
  · rw [hmem]
    exact Memory.wf_store hwf hroom _

theorem Completes.callsInv (h : Completes i s t) (hinv : s.calls.Inv) : t.calls.Inv := by
  rcases h.calls_eq with hcalls | ⟨-, hkeeps⟩
  · rwa [hcalls]
  · exact hkeeps hinv

theorem Completes.eventsOk (h : Completes i s t) (hok : ∀ e ∈ s.events, e.ok = true) :
    ∀ e ∈ t.events, e.ok = true := by
  rcases h.events_eq with hevents | ⟨-, e, he, hevents⟩
  · rwa [hevents]
  · rw [hevents]
    intro e' he'
    rcases List.mem_append.mp he' with hold | hnew
    · exact hok e' hold
    · rwa [List.mem_singleton.mp hnew]

theorem Completes.statusInv (h : Completes i s t) (hrun : s.status = .running) (hinv : s.StatusInv) : t.StatusInv := by
  obtain ⟨hkind, -, hip, hexit⟩ := hinv
  obtain ⟨hkind', hip'⟩ := h.fault_eq
  have hs : s.status ≠ .faulted := by simp [hrun]
  have ht : t.status ≠ .faulted := by
    rcases h.status_eq with ⟨hhalt, -⟩ | hsame
    · simp [hhalt]
    · rwa [hsame]
  have hnone : s.faultKind = .none := not_not.mp fun hne => hs (hkind.mpr hne)
  refine ⟨?_, fun hf => absurd hf ht, fun _ => hip'.trans (hip hs), ?_⟩
  · rw [hkind', hnone]
    simpa using ht
  · rcases h.exitCode_eq with hsame | ⟨-, hzero⟩
    · rw [hsame, hexit]
    · exact hzero

theorem Completes.inv (h : Completes i s t) (hrun : s.status = .running) (hinv : s.Inv) : t.Inv where
  mem := ⟨h.mem_wf hinv.mem.1, by rw [h.mem_cap]; exact hinv.mem.2⟩
  stkMem := by
    obtain ⟨vals, hholds⟩ := hinv.stk
    exact (h.stackEffect.result vals hholds).wf hinv.stkMem
  stk := by
    obtain ⟨vals, hholds⟩ := hinv.stk
    exact (h.stackEffect.result vals hholds).inv hholds
  calls := h.callsInv hinv.calls
  status := h.statusInv hrun hinv.status
  events := h.eventsOk hinv.events

/-- Fault entry in a running core keeps the invariant (R310). -/
theorem State.Inv.takeFault {kind : FaultKind} (hinv : s.Inv) (hkind : kind ≠ .none) : (s.takeFault kind).Inv where
  mem := hinv.mem
  stkMem := hinv.stkMem
  stk := hinv.stk
  calls := hinv.calls
  status := by
    obtain ⟨-, -, -, hexit⟩ := hinv.status
    exact ⟨⟨fun _ => hkind, fun _ => rfl⟩, fun _ => rfl, fun hne => absurd rfl hne, hexit⟩
  events := hinv.events

end

/-! ## The step of a running core (R94, R322) -/

section
variable {s t : State}

theorem decodeFault_ne_none (e : DecodeError) : decodeFault e ≠ .none := by cases e <;> decide

theorem fetchDecode_of_decode_ok {i : Instr} {rest : List Byte} (h : decode (fetchBytes s) = .ok (i, rest)) :
    fetchDecode s = .ok i := by
  simp only [fetchDecode, h]

theorem fetchDecode_of_decode_error {e : DecodeError} (h : decode (fetchBytes s) = .error e) :
    fetchDecode s = raise (decodeFault e) := by
  simp only [fetchDecode, h]

/-- A running core performs the instruction at `ip`, or takes the fault of fetch and decode. -/
theorem step_of_running (hrun : s.status = .running) : (∃ i, fetchDecode s = .ok i ∧ step s = exec i s) ∨
    ∃ kind, kind ≠ .none ∧ fetchDecode s = raise kind ∧ step s = .next (s.takeFault kind) := by
  rcases hdecode : decode (fetchBytes s) with e | ⟨i, rest⟩
  · have hfetch := fetchDecode_of_decode_error hdecode
    exact .inr ⟨_, decodeFault_ne_none e, hfetch, step_of_fetchDecode_raise hrun hfetch⟩
  · have hfetch := fetchDecode_of_decode_ok hdecode
    exact .inl ⟨i, hfetch, step_of_fetchDecode_ok hrun hfetch⟩

/-- The step of a running core completes the instruction at `ip`, or is fault entry. -/
theorem step_next (hrun : s.status = .running) (h : step s = .next t) :
    (∃ i, fetchDecode s = .ok i ∧ Completes i s t) ∨ ∃ kind, kind ≠ .none ∧ t = s.takeFault kind := by
  rcases step_of_running hrun with ⟨i, hfetch, hstep⟩ | ⟨kind, hkind, -, hstep⟩
  · rcases exec_next (hstep.symm.trans h) with hcomp | hfault
    · exact .inl ⟨i, hfetch, hcomp⟩
    · exact .inr hfault
  · exact .inr ⟨kind, hkind, Host.Outcome.next.inj (h.symm.trans hstep)⟩

theorem step_of_terminal (hterm : s.status ≠ .running) : step s = .next s := if_neg hterm

theorem step_keeps_inv (hinv : s.Inv) (h : step s = .next t) : t.Inv := by
  by_cases hrun : s.status = .running
  · rcases step_next hrun h with ⟨i, -, hcomp⟩ | ⟨kind, hkind, rfl⟩
    · exact hcomp.inv hrun hinv
    · exact hinv.takeFault hkind
  · obtain rfl := Host.Outcome.next.inj ((step_of_terminal hrun).symm.trans h)
    exact hinv

theorem step_of_inv (hinv : s.Inv) : ∃ t, step s = .next t := by
  by_cases hrun : s.status = .running
  · rcases step_of_running hrun with ⟨i, -, hstep⟩ | ⟨kind, -, -, hstep⟩
    · rw [hstep]
      exact exec_of_stackInv i hinv.stk
    · exact ⟨_, hstep⟩
  · exact ⟨s, step_of_terminal hrun⟩

end

/-! ## The obligations -/

/-- Settles O18: fault entry keeps the invariant, and so does an instruction that completes, part by part. -/
theorem stepKeepsTheInvariant : Obligations.StepKeepsTheInvariant := fun _ _ => step_keeps_inv

/-- Settles O19: of the invariant, the stack's part (R77) is what keeps every instruction from stopping the model. -/
theorem invariantStatesAlwaysStep : Obligations.InvariantStatesAlwaysStep := fun _ => step_of_inv

/-- Settles O7: what the bytes at `ip` decode to decides the step of a running core. -/
theorem stepRunsTheDecodedInstruction : Obligations.StepRunsTheDecodedInstruction := by
  refine fun s => ⟨step_of_terminal, fun hrun i rest hdecode => ?_, fun hrun e hdecode => ?_⟩
  · exact step_of_fetchDecode_ok hrun (fetchDecode_of_decode_ok hdecode)
  · have hstep := step_of_fetchDecode_raise hrun (fetchDecode_of_decode_error hdecode)
    cases e with
    | unknownOpcode => exact hstep
    | truncated => exact hstep

/-- Settles O9: an instruction that completes does not fault the core, so the step was fault entry. -/
theorem faultsArePrecise : Obligations.FaultsArePrecise := by
  intro s t hrun hstep hfaulted
  rcases step_next hrun hstep with ⟨i, -, hcomp⟩ | ⟨kind, hkind, rfl⟩
  · rcases hcomp.status_eq with ⟨hhalt, -⟩ | hsame
    · exact nomatch hhalt.symm.trans hfaulted
    · exact nomatch hrun.symm.trans (hsame.symm.trans hfaulted)
  · exact ⟨hkind, rfl, rfl⟩

/-- Settles O10: of the instructions that complete only `die` leaves `Running`, and fault entry leaves it for
`Faulted`. -/
theorem onlyDieHalts : Obligations.OnlyDieHalts := by
  refine fun s t hrun hstep => ⟨fun hhalt => ?_, fun hfetch => ?_⟩
  · rcases step_next hrun hstep with ⟨i, hfetch, hcomp⟩ | ⟨kind, -, rfl⟩
    · rcases hcomp.status_eq with ⟨-, rfl⟩ | hsame
      · exact hfetch
      · exact nomatch hrun.symm.trans (hsame.symm.trans hhalt)
    · exact nomatch hhalt
  · have hdie := (step_of_fetchDecode_ok hrun hfetch).trans (exec_die s)
    rw [← Host.Outcome.next.inj (hdie.symm.trans hstep)]

/-- Settles O57: an instruction that completes stores to main memory at its span only, and fault entry nowhere. -/
theorem mainMemoryFrame : Obligations.MainMemoryFrame := by
  intro i s t h x hx
  rcases exec_next h with hcomp | ⟨kind, -, rfl⟩
  · exact hcomp.mem_frame hx
  · exact ⟨rfl, rfl⟩

/-- Settles O58: an instruction that completes cuts the stack, which writes nothing, or puts one value at its span. -/
theorem stackMemoryFrame : Obligations.StackMemoryFrame := by
  intro i s t ⟨vals, hholds⟩ h x hx
  rcases exec_next h with hcomp | ⟨kind, -, rfl⟩
  · exact (hcomp.stackEffect.result vals hholds).frame hx
  · exact ⟨rfl, rfl⟩

/-- Settles O59: one lemma per register of an instruction that completes; fault entry writes none of these. -/
theorem registerFrame : Obligations.RegisterFrame := by
  intro i s t h
  rcases exec_next h with hcomp | ⟨kind, -, rfl⟩
  · refine ⟨fun hloop hlcont hlbrk => ?_, fun hcall hret => ?_, fun hnspctr hnspctst hbrkp htest => ?_, ?_,
      fun hdie => ?_, hcomp.mem_cap, hcomp.stackEffect.cap⟩
    · refine hcomp.lp_eq.resolve_right ?_
      rintro (hi | hi | ⟨c, b, e, hi⟩)
      exacts [hlcont hi, hlbrk hi, hloop c b e hi]
    · refine hcomp.calls_eq.resolve_right ?_
      rintro ⟨hi | ⟨a, hi⟩, -⟩
      exacts [hret hi, hcall a hi]
    · refine hcomp.events_eq.resolve_right ?_
      rintro ⟨⟨c, a, hi⟩ | ⟨c, o, hi⟩ | hi | hi, -⟩
      exacts [hnspctr c a hi, hnspctst c o hi, hbrkp hi, htest hi]
    · rcases hcomp.events_eq with hsame | ⟨-, e, -, hmore⟩
      · rw [hsame]
      · rw [hmore]
        exact List.prefix_append _ _
    · exact hcomp.exitCode_eq.resolve_right fun ⟨hi, _⟩ => hdie hi
  · exact ⟨fun _ _ _ => rfl, fun _ _ => rfl, fun _ _ _ _ => rfl, List.prefix_rfl, fun _ => rfl, rfl, rfl⟩

/-- Settles O60: fault entry keeps `ip`, and each way of completing puts it at one of the instruction's places. -/
theorem ipFrame : Obligations.IpFrame := by
  intro i s t h
  rcases exec_next h with hcomp | ⟨kind, hkind, rfl⟩
  · exact .inr hcomp.ip_mem
  · exact .inl ⟨kind, hkind, rfl, rfl⟩

end Sys2Proof.Machine
end

-- Proofs of the family 'other', a core's life: launch (O16, O17), every state it passes through (O20), the run driver
-- (O12), and the reset state and `STATUS` (O14, O11).
section
/-! PROOFS. When the loader accepts an image and what it keeps (R341), the induction over the states of a launched core,
and the run driver by induction on its bound (R323). -/

namespace Sys2Proof.Machine

open Sys2Proof.Spec

/-! ## The loader (R341) -/

section
variable {a : Nat} {image : List Byte} {m m' : Memory}

/-- An image that ends by the capacity is loaded. -/
theorem loadImage_fits (h : a + image.length ≤ m.cap) : ∃ m', loadImage a image m = .ok m' := by
  induction image generalizing a m with
  | nil => exact ⟨m, rfl⟩
  | cons b rest ih =>
    rw [List.length_cons] at h
    have hroom : ¬ a + Width.one.bytes > m.cap := by rw [Width.bytes_one]; omega
    rw [loadImage, rawWrite, if_neg hroom, Res.bind_ok]
    exact ih (by rw [Memory.cap_setBytes]; omega)

/-- An image that is loaded ends by the capacity. -/
theorem loadImage_length (h : loadImage a image m = .ok m') (ha : a ≤ m.cap) : a + image.length ≤ m.cap := by
  induction image generalizing a m with
  | nil => exact ha
  | cons b rest ih =>
    obtain ⟨hin, hrest⟩ := loadImage_cons_ok h
    have hlen := ih hrest (by rw [Memory.cap_setByte]; omega)
    rw [Memory.cap_setByte] at hlen
    rw [List.length_cons]
    omega

theorem loadImage_wf (h : loadImage a image m = .ok m') (hwf : m.wf) : m'.wf := by
  induction image generalizing a m with
  | nil => rwa [← Except.ok.inj h]
  | cons b rest ih =>
    obtain ⟨hin, hrest⟩ := loadImage_cons_ok h
    exact ih hrest (Memory.wf_setByte hwf (by omega) b)

end

/-! ## Launch and reset -/

/-- A reset core over memory in canonical form meets the invariant: no stack value, no call, no fault, no event. -/
theorem resetWith_inv {m : Memory} {stackCap : Nat} (hwf : m.wf) (hcap : Config.capOk m.cap)
    (hstack : Config.capOk stackCap) : (resetWith m stackCap).Inv where
  mem := ⟨hwf, hcap⟩
  stkMem := Memory.wf_blank stackCap
  stk := ⟨[], hstack, Nat.zero_le _, rfl, rfl, rfl⟩
  calls := ⟨Nat.zero_le _, Sparse.canonical_nil _⟩
  status := by
    have hrun : (resetWith m stackCap).status ≠ .faulted := fun h : Status.running = .faulted => nomatch h
    exact ⟨⟨fun h => absurd h hrun, fun h => absurd rfl h⟩, fun h => absurd h hrun, fun _ => rfl, rfl⟩
  events := fun _ h => nomatch h

theorem reset_eq_resetWith : State.reset = resetWith (Memory.blank Config.memCapReset) Config.stackCapReset := rfl

theorem launch_inv {p : LaunchParams} {image : List Byte} {s : State} (h : launch p image = .ok s) : s.Inv := by
  obtain ⟨⟨hmem, hstack, htags⟩, m, hload, rfl⟩ := launch_ok h
  refine resetWith_inv (loadImage_wf hload ⟨Sparse.canonical_nil _, htags⟩) ?_ hstack
  rw [loadImage_cap hload]
  exact hmem

theorem Reachable.inv {s : State} (h : Reachable s) : s.Inv := by
  induction h with
  | launched hlaunch => exact launch_inv hlaunch
  | stepped _ hstep ih => exact step_keeps_inv ih hstep

/-! ## The run driver (R323) -/

theorem any_isBreak {events : List Event} :
    events.any Event.isBreak = true ↔ ∃ a, Event.brk a ∈ events := by
  rw [List.any_eq_true]
  refine ⟨fun ⟨e, he, hbrk⟩ => ?_, fun ⟨a, ha⟩ => ⟨_, ha, rfl⟩⟩
  cases e with
  | brk a => exact ⟨a, he⟩
  | inspect | checkpoint => exact nomatch hbrk

/-- The step from `s` to `t` makes the driver return: in debug mode it emitted a `Break`. -/
abbrev Breaks (debugMode : Bool) (s t : State) : Prop := debugMode = true ∧ ∃ a, Event.brk a ∈ newEvents s t

section
variable {debugMode : Bool} {n : Nat} {s t u : State}

theorem breaks_iff : (debugMode && (newEvents s t).any Event.isBreak) = true ↔ Breaks debugMode s t := by
  rw [Bool.and_eq_true, any_isBreak]

theorem quiet_iff : (debugMode = true → ∀ a, Event.brk a ∉ newEvents s t) ↔ ¬ Breaks debugMode s t := by
  simp [Breaks]

theorem run_terminal (hterm : s.status ≠ .running) : runToCompletion debugMode n s = .returned s false := by
  cases n with
  | zero => exact if_neg hterm
  | succ n => exact if_neg hterm

theorem run_zero (hrun : s.status = .running) : runToCompletion debugMode 0 s = .stepsUsed s := if_pos hrun

theorem run_break (hrun : s.status = .running) (hstep : step s = .next t) (hbrk : Breaks debugMode s t) :
    runToCompletion debugMode (n + 1) s = .returned t true := by
  simp only [runToCompletion, hrun, if_true, hstep, breaks_iff.mpr hbrk]

theorem run_quiet (hrun : s.status = .running) (hstep : step s = .next t) (hquiet : ¬ Breaks debugMode s t) :
    runToCompletion debugMode (n + 1) s = runToCompletion debugMode n t := by
  simp only [runToCompletion, hrun, if_true, hstep, if_neg (mt breaks_iff.mp hquiet)]

theorem run_stopped (hrun : s.status = .running) (hstep : ∀ t, step s ≠ .next t) :
    runToCompletion debugMode (n + 1) s = .modelStopped := by
  simp only [runToCompletion, hrun, if_true]
  cases h : step s with
  | next t => exact absurd h (hstep t)
  | fault | refused => rfl

/-- Quiet rounds bring the driver no further than to the state they lead to. -/
theorem run_of_quiet {k : Nat} (h : QuietSteps debugMode k s t) (n : Nat) :
    runToCompletion debugMode (k + n) s = runToCompletion debugMode n t := by
  induction h with
  | none s => rw [Nat.zero_add]
  | more hrun hstep hquiet _ ih => rw [Nat.succ_add, run_quiet hrun hstep (quiet_iff.mp hquiet), ih]

end

/-- How a run of at most `n` rounds from `s` ends (R323): quiet rounds to a terminal state, to a step that breaks, for
as many rounds as the bound, or to a state from which the model stops. -/
inductive RunEnds (debugMode : Bool) (n : Nat) (s : State) : RunEnd → Prop where
  | terminal {k : Nat} {t : State} (hk : k ≤ n) (hq : QuietSteps debugMode k s t) (ht : t.status ≠ .running) :
      RunEnds debugMode n s (.returned t false)
  | broke {k : Nat} {t u : State} (hk : k < n) (hq : QuietSteps debugMode k s u) (hu : u.status = .running)
      (hstep : step u = .next t) (hbrk : Breaks debugMode u t) : RunEnds debugMode n s (.returned t true)
  | used {t : State} (hq : QuietSteps debugMode n s t) (ht : t.status = .running) : RunEnds debugMode n s (.stepsUsed t)
  | stopped : RunEnds debugMode n s .modelStopped

section
variable {debugMode : Bool} {n : Nat} {s t : State}

/-- A quiet round first lengthens a run by one. -/
theorem RunEnds.more {r : RunEnd} (hrun : s.status = .running) (hstep : step s = .next t)
    (hquiet : ¬ Breaks debugMode s t) (h : RunEnds debugMode n t r) : RunEnds debugMode (n + 1) s r := by
  have hq := quiet_iff.mpr hquiet
  cases h with
  | terminal hk hrest ht => exact .terminal (Nat.succ_le_succ hk) (.more hrun hstep hq hrest) ht
  | broke hk hrest hu hnext hbrk => exact .broke (Nat.succ_lt_succ hk) (.more hrun hstep hq hrest) hu hnext hbrk
  | used hrest ht => exact .used (.more hrun hstep hq hrest) ht
  | stopped => exact .stopped

theorem run_ends (debugMode : Bool) (n : Nat) (s : State) : RunEnds debugMode n s (runToCompletion debugMode n s) := by
  induction n generalizing s with
  | zero =>
    by_cases hrun : s.status = .running
    · rw [run_zero hrun]
      exact .used (.none s) hrun
    · rw [run_terminal hrun]
      exact .terminal (Nat.zero_le _) (.none s) hrun
  | succ n ih =>
    by_cases hrun : s.status = .running
    · by_cases hnext : ∃ t, step s = .next t
      · obtain ⟨t, hstep⟩ := hnext
        by_cases hbrk : Breaks debugMode s t
        · rw [run_break hrun hstep hbrk]
          exact .broke (Nat.succ_pos n) (.none s) hrun hstep hbrk
        · rw [run_quiet hrun hstep hbrk]
          exact (ih t).more hrun hstep hbrk
      · rw [run_stopped hrun (not_exists.mp hnext)]
        exact .stopped
    · rw [run_terminal hrun]
      exact .terminal (Nat.zero_le _) (.none s) hrun

theorem run_returned_iff : runToCompletion debugMode n s = .returned t false ↔
    ∃ k, k ≤ n ∧ QuietSteps debugMode k s t ∧ t.status ≠ .running := by
  refine ⟨fun h => ?_, fun ⟨k, hk, hq, ht⟩ => ?_⟩
  · have hends := h ▸ run_ends debugMode n s
    cases hends with
    | terminal hk hq ht => exact ⟨_, hk, hq, ht⟩
  · obtain ⟨j, rfl⟩ := Nat.exists_eq_add_of_le hk
    rw [run_of_quiet hq, run_terminal ht]

theorem run_broke_iff : runToCompletion debugMode n s = .returned t true ↔ debugMode = true ∧ ∃ k u, k < n ∧
    QuietSteps debugMode k s u ∧ u.status = .running ∧ step u = .next t ∧ ∃ a, Event.brk a ∈ newEvents u t := by
  refine ⟨fun h => ?_, fun ⟨hdebug, k, u, hk, hq, hu, hstep, hbrk⟩ => ?_⟩
  · have hends := h ▸ run_ends debugMode n s
    cases hends with
    | broke hk hq hu hstep hbrk => exact ⟨hbrk.1, _, _, hk, hq, hu, hstep, hbrk.2⟩
  · obtain ⟨j, rfl⟩ := Nat.exists_eq_add_of_lt hk
    rw [Nat.add_assoc, run_of_quiet hq, run_break hu hstep ⟨hdebug, hbrk⟩]

theorem run_used_iff : runToCompletion debugMode n s = .stepsUsed t ↔
    QuietSteps debugMode n s t ∧ t.status = .running := by
  refine ⟨fun h => ?_, fun ⟨hq, ht⟩ => ?_⟩
  · have hends := h ▸ run_ends debugMode n s
    cases hends with
    | used hq ht => exact ⟨hq, ht⟩
  · exact (run_of_quiet hq 0).trans (run_zero ht)

end

/-! ## The `STATUS` word (R26) -/

section
variable (s : State)

theorem State.statusWord_state : s.statusWord.extractLsb' 0 2 = s.status.code := BitVec.extractLsb'_append_eq_right

theorem State.statusWord_low : s.statusWord.extractLsb' 2 6 = 0#6 :=
  (BitVec.extractLsb'_append_eq_of_le (by decide)).trans BitVec.extractLsb'_append_eq_right

theorem State.statusWord_kind : s.statusWord.extractLsb' 8 8 = s.faultKind.code :=
  (BitVec.extractLsb'_append_eq_of_le (by decide)).trans
    ((BitVec.extractLsb'_append_eq_of_le (by decide)).trans BitVec.extractLsb'_append_eq_right)

theorem State.statusWord_high : s.statusWord.extractLsb' 16 16 = 0#16 :=
  (BitVec.extractLsb'_append_eq_of_le (by decide)).trans
    ((BitVec.extractLsb'_append_eq_of_le (by decide)).trans BitVec.extractLsb'_append_eq_left)

end

/-! ## The obligations -/

/-- Settles O12: how a run ends gives one direction of each clause, and running through the quiet rounds the other. -/
theorem runReturnsOnlyWhereTheRuleStops : Obligations.RunReturnsOnlyWhereTheRuleStops := fun _ _ _ _ =>
  ⟨run_returned_iff, run_broke_iff, run_used_iff⟩

/-- Settles O16: legal parameters leave the loader to decide, and it decides by the image's length. -/
theorem launchStartsExactlyWhenTheImageFits : Obligations.LaunchStartsExactlyWhenTheImageFits := by
  intro p image hok
  refine ⟨fun hfits => ?_, fun hlong => ?_⟩
  · obtain ⟨m, hload⟩ := loadImage_fits (a := 0) (m := { cap := p.memCap, bytes := [], tags := p.initTags })
      (by rwa [Nat.zero_add])
    exact ⟨_, by rw [launch, if_pos hok, hload]⟩
  · rw [launch, if_pos hok]
    cases hload : loadImage 0 image { cap := p.memCap, bytes := [], tags := p.initTags } with
    | error e => rfl
    | ok m =>
      have hlen := loadImage_length hload (Nat.zero_le _)
      exact absurd hlong (by simpa using hlen)

/-- Settles O17: the reset state is a reset core over blank memory, a launched one over what the loader left. -/
theorem launchEstablishesTheInvariant : Obligations.LaunchEstablishesTheInvariant := by
  refine ⟨?_, fun _ _ _ => launch_inv⟩
  rw [reset_eq_resetWith]
  exact resetWith_inv (Memory.wf_blank _) (by decide) (by decide)

/-- Settles O20: the invariant holds at launch and every step keeps it, and where it holds there is a next state. -/
theorem launchedCoreNeverStopsTheModel : Obligations.LaunchedCoreNeverStopsTheModel := fun _ h =>
  ⟨h.inv, step_of_inv h.inv⟩

/-- Settles O14: every part of the reset state is written out in it, and a blank region reads 0 and `Untagged`. -/
theorem resetStateValues : Obligations.ResetStateValues :=
  ⟨rfl, rfl, rfl, rfl, rfl, rfl, rfl, fun _ => rfl, rfl, rfl,
    fun _ => ⟨Memory.byteAt_blank _ _, Memory.tagAt_blank _ _⟩,
    fun _ => ⟨Memory.byteAt_blank _ _, Memory.tagAt_blank _ _⟩, rfl, rfl, rfl⟩

/-- Settles O11: the word's fields one by one; outside `Faulted` the invariant leaves the kind `None`, whose code
is 0. -/
theorem statusWordLayout : Obligations.StatusWordLayout := by
  refine ⟨rfl, fun s => ⟨?_, s.statusWord_low, ?_, s.statusWord_high, fun ⟨hkind, _⟩ hs => ?_⟩⟩
  · rw [s.statusWord_state]
    cases s.status <;> rfl
  · rw [s.statusWord_kind]
    cases s.faultKind <;> rfl
  · have hnone : s.faultKind = .none := not_not.mp fun hne => hs (hkind.mpr hne)
    rw [s.statusWord_kind, hnone]
    rfl

end Sys2Proof.Machine
end

-- Proofs of the family 'other', the remaining laws: typed writes (O23 to O25), push and pop (O26), call and ret (O30),
-- a jump out of memory (O34), the passes of a loop (O36), division (O52, O53), rotates (O54).
section
/-! PROOFS. What a typed read answers after a typed write, at the write's address and inside its span (R57 to R59); the
passes of a loop context by induction (R131); and the laws of division and rotation on `BitVec` (R169, R187, R206). -/

namespace Sys2Proof.Machine

open Sys2Proof.Spec

/-! ## Typed reads after a typed write (R57, R58) -/

section
variable {m m' : Memory} {a x : Nat} {ty : ValTy} {v : Word} {req : Request}

theorem tagWrite_in_bounds (h : a + ty.bytes ≤ m.cap) : tagWrite m a ty v = .ok (m.store a ty v) :=
  if_neg (Nat.not_lt.mpr h)

/-- No tail tag, and not `Untagged`, is a head tag (R35). -/
theorem ValTy.tail_ne_head (ty other : ValTy) : ty.tail ≠ other.head := by
  cases ty <;> cases other <;> decide

/-- A typed read at a tail tag raises `TypeMismatch` (R57). -/
theorem tagRead_of_tail (hcap : x < m.cap) (htail : m.tagAt x = ty.tail) : tagRead m x req = raise .typeMismatch :=
  tagRead_of_no_head hcap fun other => by
    rw [htail]
    exact ty.tail_ne_head other

/-- A typed read of what a typed write stored, by a request that accepts the type. -/
theorem tagRead_store (hfit : Value.fits (ty, v)) (hcap : a + ty.bytes ≤ m.cap) (hreq : req.accepts ty = true) :
    tagRead (m.store a ty v) a req = .ok (ty, v) :=
  tagRead_of_holds (Memory.holds_store m a hfit) (by rwa [Memory.cap_store]) hreq

/-- A typed read of what a typed write stored, by a request that does not accept the type. -/
theorem tagRead_store_not_accepted (hfit : Value.fits (ty, v)) (hcap : a + ty.bytes ≤ m.cap)
    (hreq : req.accepts ty = false) : tagRead (m.store a ty v) a req = raise .typeMismatch :=
  tagRead_of_not_accepted (Memory.holds_store m a hfit) (by rwa [Memory.cap_store]) hreq

/-- A typed read inside the span of a typed write. -/
theorem tagRead_store_interior (hcap : a + ty.bytes ≤ m.cap) (hlow : a < x) (hhigh : x < a + ty.bytes) :
    tagRead (m.store a ty v) x req = raise .typeMismatch :=
  tagRead_of_tail (by rw [Memory.cap_store]; omega) (Memory.tagAt_store_tail _ _ _ _ ⟨hlow, hhigh⟩)

end

/-! ## The passes of a loop context (R131, C4) -/

/-- After `j` passes of an active context whose counter has more than `j` to go, the context is the same but for a
counter lower by `j`. -/
theorem lconts_passes {s : State} (hactive : s.lp.active = true) (j : Nat) (hj : j < s.lp.counter.toNat) :
    ∃ t, Lconts j s t ∧ t.lp.active = true ∧ t.lp.bodyAddr = s.lp.bodyAddr ∧ t.lp.endAddr = s.lp.endAddr ∧
      t.lp.counter.toNat = s.lp.counter.toNat - j ∧ (j ≠ 0 → t.ip = s.lp.bodyAddr) := by
  induction j with
  | zero => exact ⟨s, .none s, hactive, rfl, rfl, rfl, fun h => absurd rfl h⟩
  | succ j ih =>
    obtain ⟨t, hpasses, ht, hbody, hend, hcounter, -⟩ := ih (by omega)
    have hmore : t.lp.counter.toNat > 1 := by omega
    refine ⟨_, .more hpasses (exec_lcont_again ht hmore), ht, hbody, hend, ?_, fun _ => hbody⟩
    simp only [BitVec.toNat_sub, toNat_one]
    omega

/-! ## Signed division (R185 to R187) -/

section
variable (l r : Word)

theorem divsFn_eq_sdiv : divsFn l r = l.sdiv r := by
  apply BitVec.eq_of_toInt_eq
  rw [divsFn_eq, BitVec.toInt_ofInt, BitVec.toInt_sdiv]

theorem modsFn_eq_srem : modsFn l r = l.srem r := by
  rw [modsFn_eq, ← Int.tmod_def, ← BitVec.toInt_srem, BitVec.ofInt_toInt]

/-- The identity of R187 modulo `2^32`, for every operand. -/
theorem eq_mul_divsFn_add_modsFn : l = r * divsFn l r + modsFn l r :=
  calc l = BitVec.ofInt 32 (r.toInt * l.toInt.tdiv r.toInt + l.toInt.tmod r.toInt) := by
        rw [Int.mul_tdiv_add_tmod, BitVec.ofInt_toInt]
    _ = r * divsFn l r + modsFn l r := by
        rw [BitVec.ofInt_add, BitVec.ofInt_mul, BitVec.ofInt_toInt, divsFn_eq, modsFn_eq, Int.tmod_def]

/-- A remainder is 0 or of the sign of the dividend (R186). -/
theorem tmod_sign (a b : Int) : a.tmod b = 0 ∨ (0 < a.tmod b ∧ 0 < a) ∨ (a.tmod b < 0 ∧ a < 0) := by
  have hsign := Int.sign_tmod a b
  split at hsign
  · exact .inl (Int.sign_eq_zero_iff_zero.mp hsign)
  · rcases Int.lt_trichotomy a 0 with ha | rfl | ha
    · rw [Int.sign_eq_neg_one_of_neg ha, Int.sign_eq_neg_one_iff_neg] at hsign
      exact .inr (.inr ⟨hsign, ha⟩)
    · exact .inl (Int.zero_tmod b)
    · rw [Int.sign_eq_one_of_pos ha, Int.sign_eq_one_iff_pos] at hsign
      exact .inr (.inl ⟨hsign, ha⟩)

/-! ## Rotates (R206, R207) -/

theorem rotateRight_rotateLeft {n : Nat} (hn : n < 32) : (l.rotateLeft n).rotateRight n = l := by
  apply BitVec.eq_of_getLsbD_eq
  intro i hi
  rw [BitVec.getLsbD_rotateRight, Nat.mod_eq_of_lt hn]
  by_cases hlow : i < 32 - n
  · simp [BitVec.getLsbD_rotateLeft, Nat.mod_eq_of_lt hn, hlow, show n + i < 32 by omega,
      BitVec.getLsbD_eq_getElem hi]
  · simp [BitVec.getLsbD_rotateLeft, Nat.mod_eq_of_lt hn, hlow, hi, show i - (32 - n) < n by omega,
      show 32 - n + (i - (32 - n)) = i by omega]

theorem rotateLeft_rotateRight {n : Nat} (hn : n < 32) : (l.rotateRight n).rotateLeft n = l := by
  apply BitVec.eq_of_getLsbD_eq
  intro i hi
  rw [BitVec.getLsbD_rotateLeft, Nat.mod_eq_of_lt hn]
  by_cases hlow : i < n
  · simp [BitVec.getLsbD_rotateRight, Nat.mod_eq_of_lt hn, hlow, show 32 - n + i < 32 by omega,
      BitVec.getLsbD_eq_getElem hi]
  · simp [BitVec.getLsbD_rotateRight, Nat.mod_eq_of_lt hn, hlow, hi, show i - n < 32 - n by omega,
      show n + (i - n) = i by omega]

/-- A count plus 32 is the same count modulo 32, also where the sum wraps. -/
theorem toNat_add_32_mod : (r + 32).toNat % 32 = r.toNat % 32 := by
  have h32 : (32 : Word).toNat = 32 := rfl
  rw [BitVec.toNat_add, h32]
  omega

end

/-! ## The obligations -/

/-- Settles O23: the laws of a typed write, at its head, its tails, its bytes and outside its span. -/
theorem typedWriteWritesExactlyItsSpan : Obligations.TypedWriteWritesExactlyItsSpan := by
  refine fun m a ty v => ⟨fun hout => if_pos hout, fun hcap =>
    ⟨_, tagWrite_in_bounds hcap, rfl, Memory.cap_store _ _ _ _, fun k hk => Memory.byteAt_store_inside _ _ _ _ hk,
    Memory.tagAt_store_head _ _ _ _, fun k hk hk' => ?_,
    fun x hx => ⟨Memory.byteAt_store_outside _ _ _ _ hx, Memory.tagAt_store_outside _ _ _ _ hx⟩,
    fun hwf => Memory.wf_store hwf hcap v⟩⟩
  exact Memory.tagAt_store_tail _ _ _ _ (by omega)

/-- Settles O24: the region holds the value just written, and behind its head only tail tags. -/
theorem typedWriteThenReadReturnsTheValue : Obligations.TypedWriteThenReadReturnsTheValue := by
  intro m m' a ty v hfit hwrite
  obtain ⟨hcap, rfl⟩ := tagWrite_ok hwrite
  refine ⟨tagRead_store hfit hcap (by simp [Request.accepts]), tagRead_store hfit hcap rfl, fun other hne => ?_,
    fun x req hlow hhigh => tagRead_store_interior hcap hlow hhigh⟩
  exact tagRead_store_not_accepted hfit hcap (by simpa [Request.accepts] using hne)

/-- Settles O25: the byte's tag stands where a tail tag of the old value was, and the other tags are outside its
span. -/
theorem overlappingWriteBreaksTheOldValue : Obligations.OverlappingWriteBreaksTheOldValue := by
  intro m m1 m2 a k ty v b hword hk hk' hb hwrite hbyte
  obtain ⟨hcap, rfl⟩ := tagWrite_ok hwrite
  obtain ⟨hcap', rfl⟩ := tagWrite_ok hbyte
  have hbytes := ValTy.bytes_of_word hword
  rw [Memory.cap_store] at hcap'
  have hhead : ((m.store a ty v).store (a + k) .u8 b).tagAt a = ty.head := by
    rw [Memory.tagAt_store_outside _ _ _ _ (.inl (by omega)), Memory.tagAt_store_head]
  have htail : ∀ j, 1 ≤ j → j < 4 → j ≠ k → ((m.store a ty v).store (a + k) .u8 b).tagAt (a + j) = ty.tail := by
    intro j hj hj' hne
    rw [Memory.tagAt_store_outside _ _ _ _ (by rw [ValTy.bytes_u8]; omega), Memory.tagAt_store_tail _ _ _ _ (by omega)]
  refine ⟨fun req => ?_, tagRead_store (fun _ => hb) (by rwa [Memory.cap_store]) rfl, htail, hhead⟩
  refine tagRead_of_wrong_tail hhead (by simpa using hcap) (Bool.eq_false_iff.mpr fun hok => ?_)
  have hbroken := Memory.tailsOk_iff.mp hok k hk (by omega)
  rw [Memory.tagAt_store_head] at hbroken
  exact ty.tail_ne_head .u8 hbroken.symm

/-- Settles O26: with room `Push` puts the value on the old ones, and `Pop` cuts the stack back to those. -/
theorem pushThenPopRestoresTheStack : Obligations.PushThenPopRestoresTheStack := by
  refine fun k vals ty v h hfit => ⟨push_overflow (v := (ty, v)) h, fun hroom => ?_⟩
  obtain ⟨hpush, hholds⟩ := push_of_holds (v := (ty, v)) h hfit hroom
  have ⟨_, _, _, htop, _⟩ := h
  exact ⟨_, _, hpush, hholds, hholds.top_toNat, pop_of_holds hholds, hholds.cutTo, htop.symm, h.count_eq.symm⟩

/-- Settles O30: the entry that `ret` reads is the one `call` stored, at the caller's depth, and the entries below it
are the caller's. -/
theorem retAfterCallReturnsToTheCaller : Obligations.RetAfterCallReturnsToTheCaller := by
  intro addr s t u hdepth hcall hcalls
  have hroom : s.calls.depth ≠ 1000 := fun h => by simp [h] at hdepth
  rw [exec_call, callPush_room hroom, Res.bind_ok, State.perform_ok] at hcall
  obtain rfl := Host.Outcome.next.inj hcall
  have hdeeper : u.calls.depth = s.calls.depth + 1 := congrArg CallStack.depth hcalls
  have hback : u.calls.depth - 1 = s.calls.depth := by rw [hdeeper, BitVec.add_sub_cancel]
  have hlive : u.calls.depth ≠ 0 := fun h => by
    have hwrap : (s.calls.depth + 1).toNat = 0 := by rw [← hdeeper, h]; rfl
    rw [BitVec.toNat_add, toNat_one] at hwrap
    omega
  have hentry (j : Nat) : u.calls.entry j = if j = s.calls.depth.toNat then s.ip + 5 else s.calls.entry j :=
    (congrArg (CallStack.entry · j) hcalls).trans (CallStack.entry_set _ _ _ j)
  rw [exec_ret, callPop_nonempty hlive, Res.bind_ok, State.perform_ok]
  refine ⟨_, rfl, ?_, hback, fun j hj => ?_⟩
  · rw [State.jump_ip, hback, hentry, if_pos rfl]
  · exact (hentry j).trans (if_neg (Nat.ne_of_lt hj))

/-- Settles O34: the jump checks nothing, and the fetch at the target finds no byte. -/
theorem jumpOutOfMemoryFaultsAtTheTarget : Obligations.JumpOutOfMemoryFaultsAtTheTarget := fun s addr hrun hout =>
  ⟨s.jump addr, exec_jmp addr s, hrun, rfl,
    step_of_fetchDecode_raise (s := s.jump addr) hrun (fetchDecode_outside (s := s.jump addr) hout)⟩

/-- Settles O36: each pass lowers the counter by one, and the pass that finds it at 1 leaves. -/
theorem loopRunsItsBodyCountTimes : Obligations.LoopRunsItsBodyCountTimes := by
  intro s n hactive hcounter
  refine ⟨fun j hj => ?_, ?_⟩
  · obtain ⟨t, hpasses, ht, -, -, hleft, hip⟩ := lconts_passes hactive (j + 1) (by omega)
    exact ⟨t, hpasses, hip (Nat.succ_ne_zero j), ht, by omega⟩
  · obtain ⟨t, hpasses, ht, -, hend, hleft, -⟩ := lconts_passes hactive n (by omega)
    exact ⟨_, .more hpasses (exec_lcont_last ht (by omega)), hend, rfl, rfl⟩

/-- Settles O52: the functions are the quotient and remainder of unsigned numbers. -/
theorem unsignedDivisionLaw : Obligations.UnsignedDivisionLaw := by
  intro l r hr
  have hpos : 0 < r.toNat := Nat.pos_of_ne_zero fun h => hr (BitVec.eq_of_toNat_eq h)
  rw [divFn_eq, modFn_eq, BitVec.toNat_udiv, BitVec.toNat_umod]
  exact ⟨(Nat.div_add_mod _ _).symm, Nat.mod_lt _ hpos⟩

/-- Settles O53: the functions are `sdiv` and `srem`, whose signed values are those of `Int`'s division toward 0
wherever the quotient fits. -/
theorem signedDivisionLaw : Obligations.SignedDivisionLaw := by
  intro l r hr
  have hrem : (modsFn l r).toInt = l.toInt.tmod r.toInt := by rw [modsFn_eq_srem, BitVec.toInt_srem]
  have hr0 : r.toInt ≠ 0 := fun h => hr (BitVec.eq_of_toInt_eq h)
  refine ⟨fun hfits => ?_, eq_mul_divsFn_add_modsFn l r, ?_, ?_, fun hl hm => ?_⟩
  · have hne : l ≠ BitVec.intMin 32 ∨ r ≠ -1#32 := by
      by_contra hboth
      obtain ⟨rfl, rfl⟩ : l = BitVec.intMin 32 ∧ r = -1#32 := by simpa [not_or] using hboth
      exact hfits (by decide)
    rw [hrem, divsFn_eq_sdiv, BitVec.toInt_sdiv_of_ne_or_ne l r hne, Int.mul_tdiv_add_tmod]
  · rw [hrem, Int.natAbs_tmod]
    exact Nat.mod_lt _ (Int.natAbs_pos.mpr hr0)
  · rw [hrem]
    exact tmod_sign _ _
  · rw [divsFn_eq, modsFn_eq, hl, hm]
    decide

/-- Settles O54: the functions rotate by the count modulo 32, left and right by one count being inverse. -/
theorem rotatesUndoEachOther : Obligations.RotatesUndoEachOther := by
  intro l r
  have hn : r.toNat % 32 < 32 := Nat.mod_lt _ (by decide)
  refine ⟨?_, ?_, ?_, ?_, fun hzero => ⟨if_pos hzero, if_pos hzero⟩⟩
  · rw [rotateLeftFn_eq, rotateRightFn_eq, rotateRight_rotateLeft l hn]
  · rw [rotateLeftFn_eq, rotateRightFn_eq, rotateLeft_rotateRight l hn]
  · rw [rotateLeftFn_eq, rotateLeftFn_eq, toNat_add_32_mod]
  · rw [rotateRightFn_eq, rotateRightFn_eq, toNat_add_32_mod]

end Sys2Proof.Machine
end
